-- ==== Sys2Proof/Word.lean ====
section
/-! DEFINITION. The word types of the serialuino framing engine: everything the hardware moves is one byte
(spec/20_memory.md R31); a command word has 20 bits (spec/30_encoding.md R55). -/

namespace Sys2Proof

/-- An unsigned 8-bit value, bit 7 the most significant (00_scope.md R9 and section 6). -/
abbrev Byte := BitVec 8

/-- The opaque 8-bit name of a payload buffer, HANDLE_W = 8 (20_memory.md R38, 92 D13). -/
abbrev Handle := BitVec 8

/-- The host's command word, bit 19 first: four opcode bits, then two operand bytes (30_encoding.md R55). -/
abbrev CmdWord := BitVec 20

end Sys2Proof
end

