-- ==== Sys2Proof/Syntax.lean ====
section
/-! DEFINITION. The operations of the engine, one constructor per row of spec/opcode_table.json
(spec/30_encoding.md R56), the frame as data (R51), and the host's calls: the command words and the procedures the
spec gives the host (40_session_control.md, 45_composite_operations.md). -/

namespace Sys2Proof

/-- The four operations. An operand is the field of the command word, taken whole (30_encoding.md R60). -/
inductive Instr where
  /-- `ENCODE s, act`: build a request byte (42_header_encoding.md R83). -/
  | encode (isSlave : Bool) (action : Byte)
  /-- `CKSUM h`: the XOR of the bytes of buffer `h` (41_checksum.md R78). -/
  | cksum (h : Handle)
  /-- `RECV h`: receive one frame into buffer `h` (43_frame_receiver.md R85). -/
  | recv (h : Handle)
  /-- `SEND req, h`: send one frame with the payload in buffer `h` (44_frame_sender.md R105). -/
  | send (req : Byte) (h : Handle)
  deriving DecidableEq, Repr

/-- A frame as data: its length and checksum bytes follow from these two (30_encoding.md R51 to R53). -/
structure Frame where
  request : Byte
  payload : List Byte
  deriving DecidableEq, Repr

/-- What a host can ask for: a command word, one of the five procedures that have no command word
(30_encoding.md R62), or one operation of the buffer collaborator on the host's own behalf (60_exceptions.md R140). -/
inductive HostCall where
  /-- Present a command word and wait for it (10_state.md R24). -/
  | command (w : CmdWord)
  /-- `OPEN` (40_session_control.md R70). -/
  | openSession
  /-- `CLOSE` (R71). -/
  | closeSession
  /-- `SEND1 req, val` (45_composite_operations.md R120). -/
  | send1 (req val : Byte)
  /-- `SENDRECV req, hp, hr` (R121). -/
  | sendRecv (req : Byte) (hp hr : Handle)
  /-- `SEND1RECV req, val, hr` (R122). -/
  | send1Recv (req val : Byte) (hr : Handle)
  /-- `allocate(size) -> handle`. -/
  | bufAlloc (size : Nat)
  /-- `deallocate(handle)`. -/
  | bufFree (h : Handle)
  /-- `is_valid(handle) -> bool`. -/
  | bufIsValid (h : Handle)
  /-- `size(handle) -> count`. -/
  | bufSize (h : Handle)
  /-- `resize(handle, new_size) -> bool`. -/
  | bufResize (h : Handle) (size : Nat)
  /-- `get(handle, index) -> byte`. -/
  | bufGet (h : Handle) (i : Nat)
  /-- `set(handle, index, byte)`. -/
  | bufSet (h : Handle) (i : Nat) (v : Byte)
  /-- The host does nothing while the world outside makes its next moves. -/
  | pause
  deriving DecidableEq, Repr

end Sys2Proof
end

