-- ==== Sys2Proof/Config.lean ====
section
/-! DEFINITION. The constants the implementation must match (spec/00_scope.md R5, spec/10_state.md R15) and the
free values: what the two external collaborators answer and the spec does not fix. A free value is an opaque
constant applied to the model's own counter `State.freeCtr`, so no proof can see what it is. -/

namespace Sys2Proof.Config

/-- HEADER_TAG = 0b110, the three bits 7 to 5 of a request byte (R5). -/
def headerTag : BitVec 3 := 0b110#3

/-- ROLE_BIT = 4 (R5). -/
def roleBit : Nat := 4

/-- ACTION_MASK = 0x0F (R5). -/
def actionMask : Byte := 0x0F#8

/-- MAX_PAYLOAD = 50 bytes (R5). -/
def maxPayload : Nat := 50

/-- MAX_LENGTH = MAX_PAYLOAD + 1 = 51 (R5). -/
def maxLength : Nat := maxPayload + 1

/-- MIN_AVAIL = 4, the bytes that must be there before a frame is parsed (R5). -/
def minAvail : Nat := 4

/-- POLL_INTERVAL = 25 time units, the reload value of the poll timer (R5, R139). -/
def pollInterval : BitVec 5 := 25#5

/-- AVAIL_W = SIZE_W = 8: both counts saturate at 255 (00_scope.md section 4, 92 D14). -/
def countMax : Nat := 255

/-- FREE VALUE: a byte of a buffer that was allocated or resized and not written since
(93 U6; log entry 3). -/
opaque freeByte : Nat → Byte

/-- FREE VALUE: the answer of `resize` once the scripted answers are used up (93 U15; log entry 4). -/
opaque resizeAnswer : Nat → Bool

/-- FREE VALUE: the whole record of a buffer after a `resize` that answered false; `none` is a handle
that is no longer valid (93 U6; log entry 3). -/
opaque failedResize : Nat → Option (List Byte)

/-- FREE VALUE: the answer of `allocate` once the scripted answers are used up; `none` is an invalid
handle (93 U15; log entry 4). -/
opaque allocAnswer : Nat → Option Handle

/-- FREE VALUE: what `read_byte` gives on an empty channel (93 U4; log entry 5). -/
opaque emptyRead : Nat → Byte

end Sys2Proof.Config
end

