-- ==== Sys2Proof/WellFormed.lean ====
section
/-! DEFINITION. Well-formedness. Every operand of the four operations is a whole field of the command word and every
value of it is accepted (spec/42 R83, spec/30 R58, R60), so the types of `Instr` leave nothing to refuse and `Instr.wf`
holds of every instruction; the check with content is the frame's (spec/30_encoding.md R51, R52). -/

namespace Sys2Proof

/-- The check of an operation, constructor by constructor: `ENCODE` takes every action byte (R81, R83), a handle is an
opaque name (R38), the request byte is not validated (R58, R110). -/
def Instr.wf : Instr → Bool
  | .encode _ _ => true
  | .cksum _ => true
  | .recv _ => true
  | .send _ _ => true

/-- A frame the receiver can take: at most MAX_PAYLOAD payload bytes, so that the length byte is 1 to 51
(R51, R52). -/
def Frame.wf (f : Frame) : Bool := decide (f.payload.length ≤ Config.maxPayload)

/-- A frame the sender can make: 1 to MAX_PAYLOAD payload bytes (R59, R106, R112). -/
def Frame.sendable (f : Frame) : Bool := decide (1 ≤ f.payload.length) && f.wf

end Sys2Proof
end

