-- ==== Sys2Proof/Decode.lean ====
section
/-! DEFINITION. The command word (spec/30_encoding.md R55 to R57, R60): its fields, the decoder, total on all 2^20
words and refusing a reserved opcode by name, and after it the encoder. -/

namespace Sys2Proof

/-- A command word from its three fields, `oooo aaaaaaaa bbbbbbbb` (R55). -/
def cmdWord (op : BitVec 4) (a b : Byte) : CmdWord := op ++ a ++ b

/-- Bits 19:16, the opcode (R55). -/
def opField (w : CmdWord) : BitVec 4 := w.extractLsb' 16 4

/-- Bits 15:8, the first operand (R55). -/
def aField (w : CmdWord) : Byte := w.extractLsb' 8 8

/-- Bits 7:0, the second operand (R55). -/
def bField (w : CmdWord) : Byte := w.extractLsb' 0 8

/-- What a command word stands for: an operation, or a reserved opcode (R56, R57). -/
inductive Decoded where
  | op (i : Instr)
  | reservedOpcode (o : BitVec 4)
  deriving DecidableEq, Repr

/-- The opcode map of R56. Operand bits an opcode does not use are ignored (R56, 92 D26). -/
def decode (w : CmdWord) : Decoded :=
  match (opField w).toNat with
  | 0 => .op (.encode ((aField w).getLsbD 0) (bField w))
  | 1 => .op (.cksum (bField w))
  | 2 => .op (.recv (bField w))
  | 3 => .op (.send (aField w) (bField w))
  | _ => .reservedOpcode (opField w)

/-- The opcode R56 assigns to each operation. -/
def opcode : Instr → BitVec 4
  | .encode _ _ => 0#4
  | .cksum _ => 1#4
  | .recv _ => 2#4
  | .send _ _ => 3#4

/-- Field `a` of each operation's word; an assembler writes ignored bits as 0 (R56). -/
def operandA : Instr → Byte
  | .encode s _ => (0#7 ++ BitVec.ofBool s : BitVec 8)
  | .cksum _ => 0#8
  | .recv _ => 0#8
  | .send req _ => req

/-- Field `b` of each operation's word (R56). -/
def operandB : Instr → Byte
  | .encode _ act => act
  | .cksum h => h
  | .recv h => h
  | .send _ h => h

/-- The encoder: the word an assembler writes for an operation (R55, R56). -/
def encode (i : Instr) : CmdWord := cmdWord (opcode i) (operandA i) (operandB i)

/-- The bits of the word that each operation uses; the others are ignored (R56). -/
def usedBits : Instr → CmdWord
  | .encode _ _ => 0xF01FF#20
  | .cksum _ => 0xF00FF#20
  | .recv _ => 0xF00FF#20
  | .send _ _ => 0xFFFFF#20

/-- The host's entry to the decoder: `w` holds the bits of the word as spec/opcode_table.json numbers them. The table
gives a row 20 bits, so a word with a bit above bit 19 is no command word. -/
def decodeTableWord (_nbits w : Nat) : Option Instr :=
  if w < 2 ^ 20 then
    match decode (BitVec.ofNat 20 w) with
    | .op i => some i
    | .reservedOpcode _ => none
  else none

end Sys2Proof
end

