-- ==== Sys2Proof/Machine/State.lean ====
section
/-! DEFINITION. The state of the machine as plain data: the engine's registers and outputs (spec/10_state.md R11 to
R16, R20), the two collaborators' state (R17, R18), and what the model adds so that one deterministic step can be taken:
the host's calls still to be made, the moves of the world outside, the collaborators' scripted answers and the counter of
the free values (log entries 1 to 5). -/

namespace Sys2Proof.Machine

/-- The sequencer register `st` (10_state.md R13): the states in the order of their codes 0 to 19. -/
inductive Seq where
  | idle | rCheck | rWaitMin | rReq | rLen | rValidate | rWaitFrame | rResize | rPayload | rCksum | rCleanup
  | sCheck | sReq | sLen | sPayload | sCksum | sFlush | kRun | eRun | finish
  deriving DecidableEq, Repr

/-- The diagnostic `cause` in the order of its codes 0 to 7 (60_exceptions.md R132). -/
inductive Cause where
  | none | invalidHandle | badLength | resizeFail | checksum | badSize | zeroRequest | illegalCmd
  deriving DecidableEq, Repr

/-- The working registers of the frame receiver (10_state.md R11). -/
structure Rx where
  h : Handle
  req : Byte
  len : Byte
  ck : Byte
  idx : BitVec 6
  res : Byte
  deriving DecidableEq, Repr

/-- The working registers of the frame sender, shared with `CKSUM` (10_state.md R12). -/
structure Tx where
  h : Handle
  req : Byte
  n : Byte
  len : Byte
  ck : Byte
  idx : BitVec 6
  ok : Bool
  deriving DecidableEq, Repr

/-- The channel collaborator (10_state.md R17). `rxq` is the receive stream, oldest byte first, and `capacity` the parameter
RXQ_CAPACITY (92 D17, 93 U12, 70_reset_and_hazards.md R160): no more than that many bytes stand in the queue the engine sees
(`Chan.queue`), and what has reached this end beyond them waits for room (log entry 15). `ready` and `lineUp` are the two levels
by which the world outside says whether it takes bytes: `ready` is the port `tx_ready` (R23), `lineUp` says that the line
carries queued bytes away when a flush asks for it (log entry 6). -/
structure Chan where
  rxq : List Byte
  capacity : Nat
  txq : List Byte
  wireOut : List Byte
  ready : Bool
  lineUp : Bool
  deriving DecidableEq, Repr

/-- The buffer collaborator's map from handles to records (10_state.md R18), one entry per VALID handle, handles
strictly rising; a handle that is not listed is not valid. `size` is the length of `data` (log entry 7). -/
abbrev Memory := List (Handle × List Byte)

/-- A move of the world outside (20_memory.md R44, 60_exceptions.md R146). -/
inductive EnvMove where
  /-- The peer's byte reaches the receive stream, whatever it is (R44, R45). -/
  | arrive (b : Byte)
  /-- The line carries away the oldest byte not yet flushed (10_state.md R17). -/
  | carry
  /-- The level of `tx_ready` (10_state.md R23). -/
  | ready (level : Bool)
  /-- Whether the line carries bytes away on its own. -/
  | line (level : Bool)
  /-- `rst` is asserted (70_reset_and_hazards.md R150). -/
  | rst
  /-- The slot this stands in comes again before the next visit, and so for ever: a peer that keeps sending
  (70_reset_and_hazards.md R164, 93 U16). -/
  | again
  deriving DecidableEq, Repr

/-- The answers the buffer collaborator will give, oldest first: the inputs `resize_ok` and `alloc_ok`
(10_state.md R18, 93 U15); when a list is used up the answer is a free value of Config. -/
structure Answers where
  resizeOk : List Bool
  alloc : List (Option Handle)
  deriving DecidableEq, Repr

/-- Where a host procedure of several lines stands (40_session_control.md R70, R71; 45_composite_operations.md
R120 to R122). `t` is the transient buffer the procedure allocated, if it did. -/
inductive HostPhase where
  /-- No procedure in progress. -/
  | ready
  /-- `OPEN` is draining. -/
  | opening
  /-- `CLOSE` is draining. -/
  | closing
  /-- `CLOSE` is waiting for the flush. -/
  | flushing
  /-- `SEND1` has issued its `SEND`. -/
  | sent1 (t : Handle)
  /-- `SENDRECV` has issued its `SEND`. -/
  | sent (hr : Handle) (t : Option Handle)
  /-- `SENDRECV` has issued its `RECV`. -/
  | received (t : Option Handle)
  deriving DecidableEq, Repr

/-- What the last host procedure or buffer call returned to the host. -/
inductive HostRet where
  /-- Nothing returned yet. -/
  | none
  /-- The procedure finished and returns nothing (`OPEN`, `CLOSE`, `set`, `deallocate`). -/
  | unit
  | bool (b : Bool)
  | byte (b : Byte)
  | count (n : Nat)
  /-- `allocate`; `none` is an invalid handle. -/
  | handle (h : Option Handle)
  deriving DecidableEq, Repr

/-- The whole machine. -/
structure State where
  /-- The sequencer register (R13). -/
  st : Seq
  /-- The command word latched at acceptance (R24). -/
  cmd : CmdWord
  /-- The receiver's registers (R11). -/
  rx : Rx
  /-- The sender's registers (R12). -/
  tx : Tx
  /-- The poll timer `poll_t` (R20). -/
  pollT : BitVec 5
  /-- Output: an operation is in progress (R14). -/
  busy : Bool
  /-- Output: `result` and `cause` are final (R14). -/
  done : Bool
  /-- Output: the operation's return value (R14, 30_encoding.md R63). -/
  result : Byte
  /-- Output: the diagnostic cause (R14). -/
  cause : Cause
  /-- Output: the pulse that reports a reserved command word (R23, 30_encoding.md R57). -/
  illegal : Bool
  /-- The cause `fail` recorded, carried to FINISH (log entry 8). -/
  failCause : Cause
  /-- `K_RUN` has still to ask for the size of its buffer (log entry 12). -/
  kSize : Bool
  /-- The session bit, kept by the host side (R16). -/
  bound : Bool
  /-- The channel collaborator (R17). -/
  chan : Chan
  /-- The buffer collaborator (R18). -/
  bufs : Memory
  /-- The calls the host will make, next one first (the model's own). -/
  host : List HostCall
  /-- The host procedure in progress (the model's own). -/
  phase : HostPhase
  /-- The last value returned to the host (the model's own). -/
  ret : HostRet
  /-- The moves of the world outside, one slot before each visit of the sequencer (the model's own; R44). -/
  env : List (List EnvMove)
  /-- The buffer collaborator's scripted answers (the model's own; 93 U15). -/
  answers : Answers
  /-- The counter of the free values (the model's own). -/
  freeCtr : Nat
  deriving DecidableEq, Repr

/-- The engine raises no fault: every failure is a result (60_exceptions.md R130), and a wait that is never satisfied is
a state that stays in its wait (93 U16). The type has no constructor. -/
inductive Fault where
  deriving DecidableEq, Repr

/-- The cases to which the spec gives no meaning and which it tells a model to refuse. All are safe: nothing is claimed
of a machine that goes on. -/
inductive Refusal where
  /-- Raised by exec for an operation that has no meaning yet; no operation is left so. -/
  | notModelled (mnemonic : String)
  /-- Raised by `RECV`, `SEND`, `CLOSE` and the composites while `bound = 0` (40_session_control.md R73, 93 U1, U2). -/
  | noSession
  /-- Raised by `OPEN` while `bound = 1` (93 U2). -/
  | sessionOpen
  /-- Raised by `SEND`, `CKSUM` and the host's own buffer calls with a handle that is not valid
  (44_frame_sender.md R111, 41_checksum.md R78, 93 U3). -/
  | invalidHandle
  /-- Raised by `CKSUM` for a buffer of more than 50 bytes (41_checksum.md R78, 93 U14). -/
  | tooLong
  /-- Raised by a buffer access at or beyond the size (93 U11); the engine never makes one from a state that a run
  reaches (20_memory.md R37). -/
  | badIndex
  deriving DecidableEq, Repr

/-- What one visit of the sequencer, or one round of a host's drain or flush, comes to. -/
inductive Visit where
  /-- The visit was made. -/
  | go (s : State)
  /-- The wait is not satisfied: nothing more happens until the world outside moves. -/
  | wait (s : State)
  /-- The spec gives the case no meaning. -/
  | stop (r : Refusal)
  deriving DecidableEq, Repr

/-- Reset (10_state.md R22): the engine idle, nothing reported, no session open, working registers 0. The collaborators'
state, which the spec leaves unspecified, and the model's own fields hold the values that log entry 9 names. -/
def State.reset : State where
  st := .idle
  cmd := 0#20
  rx := { h := 0#8, req := 0#8, len := 0#8, ck := 0#8, idx := 0#6, res := 0#8 }
  tx := { h := 0#8, req := 0#8, n := 0#8, len := 0#8, ck := 0#8, idx := 0#6, ok := false }
  pollT := 0#5
  busy := false
  done := false
  result := 0x00#8
  cause := .none
  illegal := false
  failCause := .none
  kSize := false
  bound := false
  chan := { rxq := [], capacity := 51, txq := [], wireOut := [], ready := true, lineUp := true }
  bufs := []
  host := []
  phase := .ready
  ret := .none
  env := []
  answers := { resizeOk := [], alloc := [] }
  freeCtr := 0

end Sys2Proof.Machine
end

