-- ==== Sys2Proof/Machine/Ops.lean ====
section
/-! DEFINITION. The shared operations: the buffer collaborator's map and its seven operations (spec/10_state.md R18), the
channel's four (R17), reset and the moves of the world outside (R150, R44), the record of a failure (00_scope.md
section 6), the waits and the drain (43_frame_receiver.md R99, 40_session_control.md R72), and the loop that runs visits
until the machine rests. -/

namespace Sys2Proof.Machine

/-! ## The buffer collaborator's map -/

/-- The bytes of the buffer a handle names; `none` when the handle is not valid. -/
def Memory.find : Memory → Handle → Option (List Byte)
  | [], _ => none
  | (k, d) :: m, h => if k = h then some d else Memory.find m h

/-- The map with the handle naming a buffer of these bytes. -/
def Memory.put : Memory → Handle → List Byte → Memory
  | [], h, d => [(h, d)]
  | (k, e) :: m, h, d =>
    if h < k then (h, d) :: (k, e) :: m
    else if h = k then (h, d) :: m
    else (k, e) :: Memory.put m h d

/-- The map with the handle not valid. -/
def Memory.erase (m : Memory) (h : Handle) : Memory := m.filter (fun e => e.1 ≠ h)

/-- The map with the handle's record replaced; `none` makes the handle not valid. -/
def Memory.assign (m : Memory) (h : Handle) : Option (List Byte) → Memory
  | some d => m.put h d
  | none => m.erase h

/-- The canonical form: handles strictly rising, so that equal maps are equal lists. -/
def Memory.wf : Memory → Bool
  | [] => true
  | (k, _) :: m => m.all (fun e => decide (k < e.1)) && Memory.wf m

/-- One byte of a buffer: the model's read of one byte of memory. -/
def Memory.byteAt (m : Memory) (h : Handle) (i : Nat) : Option Byte := (m.find h).bind (·[i]?)

/-! ## The free values -/

/-- `n` bytes nobody has written: free values (93 U6). -/
def freeBytes (k n : Nat) : List Byte := (List.range n).map fun i => Config.freeByte (k + i)

/-! ## The buffer collaborator's operations (10_state.md R18) -/

/-- `is_valid(handle)`. -/
def bufValid (h : Handle) (s : State) : Bool := (s.bufs.find h).isSome

/-- `size(handle)` of a buffer of these bytes: an 8-bit count that saturates at 255 (92 D14). -/
def sizeCount (d : List Byte) : Byte := BitVec.ofNat 8 (min d.length Config.countMax)

/-- `get(handle, index)`. -/
def bufGet (h : Handle) (i : Nat) (s : State) : Option Byte := s.bufs.byteAt h i

/-- `set(handle, index, byte)`; `none` when the handle is not valid or the index is at or beyond the size. -/
def bufSet (h : Handle) (i : Nat) (v : Byte) (s : State) : Option State :=
  match s.bufs.find h with
  | some d => if i < d.length then some { s with bufs := s.bufs.put h (d.set i v) } else none
  | none => none

/-- The next answer of `resize`: the next scripted one, else a free value (93 U15). -/
def drawResize (s : State) : Bool × State :=
  match s.answers.resizeOk with
  | b :: rest => (b, { s with answers := { s.answers with resizeOk := rest } })
  | [] => (Config.resizeAnswer s.freeCtr, { s with freeCtr := s.freeCtr + 1 })

/-- `resize(handle, new_size)` of a valid handle: on true the buffer has the new size and unspecified bytes, on false
its whole record is unspecified (R18, 93 U6). -/
def bufResize (h : Handle) (n : Nat) (s : State) : Bool × State :=
  match drawResize s with
  | (true, t) => (true, { t with bufs := t.bufs.put h (freeBytes t.freeCtr n), freeCtr := t.freeCtr + n })
  | (false, t) => (false, { t with bufs := t.bufs.assign h (Config.failedResize t.freeCtr), freeCtr := t.freeCtr + 1 })

/-- The first handle at or after `h`, going round, that is not valid; `none` when all of the next `fuel` are. -/
def freshFrom (m : Memory) (h : Handle) : Nat → Option Handle
  | 0 => none
  | fuel + 1 => if (m.find h).isSome then freshFrom m (h + 1#8) fuel else some h

/-- The next answer of `allocate`: the next scripted one, else a free value (93 U15). -/
def drawAlloc (s : State) : Option Handle × State :=
  match s.answers.alloc with
  | a :: rest => (a, { s with answers := { s.answers with alloc := rest } })
  | [] => (Config.allocAnswer s.freeCtr, { s with freeCtr := s.freeCtr + 1 })

/-- `allocate(size)`: `none` is a handle that is not valid (allocation failed); otherwise a handle that named no buffer
before, whose buffer has the size asked for and unspecified bytes (R18; log entry 4). -/
def bufAlloc (n : Nat) (s : State) : Option Handle × State :=
  match drawAlloc s with
  | (none, t) => (none, t)
  | (some h, t) =>
    match freshFrom t.bufs h 256 with
    | none => (none, t)
    | some k => (some k, { t with bufs := t.bufs.put k (freeBytes t.freeCtr n), freeCtr := t.freeCtr + n })

/-- `deallocate(handle)`. -/
def bufFree (h : Handle) (s : State) : State := { s with bufs := s.bufs.erase h }

/-! ## The channel's operations (10_state.md R17) -/

/-- The receive queue: of the receive stream, what the channel's capacity holds (70_reset_and_hazards.md R160; log entry 15). -/
def Chan.queue (c : Chan) : List Byte := c.rxq.take c.capacity

/-- `available()`: the bytes that can be read now, saturating at 255. -/
def chanAvail (s : State) : Nat := min s.chan.queue.length Config.countMax

/-- `read_byte()`: removes and returns the oldest byte; on an empty channel the value is free (93 U4). -/
def chanRead (s : State) : Byte × State :=
  match s.chan.queue with
  | b :: _ => (b, { s with chan := { s.chan with rxq := s.chan.rxq.tail } })
  | [] => (Config.emptyRead s.freeCtr, { s with freeCtr := s.freeCtr + 1 })

/-- `write_byte(byte)` once the channel takes the byte. -/
def chanWrite (b : Byte) (s : State) : State :=
  { s with chan := { s.chan with txq := s.chan.txq ++ [b], wireOut := s.chan.wireOut ++ [b] } }

/-- A visit that writes a byte: the write blocks until the channel takes it (20_memory.md R36, 44 R109). -/
def writing (b : Byte) (s : State) (after : State) : Visit :=
  if s.chan.ready then .go (chanWrite b after) else .wait s

/-- The channel can confirm a flush: nothing is queued, or the line carries what is queued away. -/
def canFlush (s : State) : Bool := s.chan.lineUp || s.chan.txq.isEmpty

/-- `flush()` confirmed: everything written has left (20_memory.md R40). -/
def chanFlush (s : State) : State := { s with chan := { s.chan with txq := [] } }

/-- One round of `Drain()` (40_session_control.md R72): the bytes left after reading one and discarding it. -/
def drainOne (s : State) : State := (chanRead s).2

/-! ## Reset and the moves of the world outside -/

/-- `rst`: every register of the engine and `bound` at its reset value, the operation and the host procedure in progress
abandoned, the collaborators and what is still to come untouched (70_reset_and_hazards.md R150, R152). -/
def resetEngine (s : State) : State :=
  { State.reset with
    chan := s.chan, bufs := s.bufs, host := s.host, env := s.env, answers := s.answers, freeCtr := s.freeCtr }

/-- What a move does to the channel. -/
def EnvMove.onChan : EnvMove → Chan → Chan
  | .arrive b, c => { c with rxq := c.rxq ++ [b] }
  | .carry, c => { c with txq := c.txq.drop 1 }
  | .ready v, c => { c with ready := v }
  | .line v, c => { c with lineUp := v }
  | .rst, c => c
  | .again, c => c

/-- One move of the world outside. -/
def applyMove (s : State) : EnvMove → State
  | .rst => resetEngine s
  | m => { s with chan := m.onChan s.chan }

/-- The slots to come once the first has been taken: it comes again when it says so. -/
def laterSlots : List (List EnvMove) → List (List EnvMove)
  | [] => []
  | slot :: rest => if EnvMove.again ∈ slot then slot :: rest else rest

/-- The moves of the next slot, in order. -/
def envStep (s : State) : State :=
  (s.env.headD []).foldl applyMove { s with env := laterSlots s.env }

/-! ## Failing, waiting, running -/

/-- `fail X`: the cause is recorded and the result stays at its failure value (00_scope.md section 6, 60 R130). -/
def fail (c : Cause) (next : Seq) (s : State) : State := { s with failCause := c, st := next }

/-- One visit of a wait for `n` bytes (43_frame_receiver.md R99, 60 R139): while the poll timer runs one time unit passes;
when it is out the count is sampled, and either the wait is over or the timer is loaded again. -/
def waitVisit (n : Nat) (next : Seq) (s : State) : Visit :=
  if s.pollT ≠ 0#5 then .go { s with pollT := s.pollT - 1#5 }
  else if n ≤ chanAvail s then .go { s with st := next }
  else .wait { s with pollT := Config.pollInterval }

/-- Makes visits, each after the moves of one slot of the world outside, until the machine is no longer active, or until
a wait is not satisfied and the world outside has no more moves (20_memory.md R44, 93 U16); when the visits given are used up
the next step makes more (log entry 20). -/
def runVisits (active : State → Bool) (visit : State → Visit) : Nat → State → Host.Outcome State Fault Refusal
  | 0, s => .next s
  | k + 1, s =>
    if active s then
      match visit (envStep s) with
      | .go t => runVisits active visit k t
      | .wait t => if t.env.isEmpty then .next t else runVisits active visit k t
      | .stop r => .refused r
    else .next s

/-- Visits enough for any operation when no slot comes again: one for each slot and each byte that is there or comes, and a
constant for what an operation does besides (R171). -/
def visitBudget (s : State) : Nat := s.env.length + s.env.flatten.length + s.chan.rxq.length + 256

end Sys2Proof.Machine
end

