-- ==== Sys2Proof/Machine/Operands.lean ====
section
/-! DEFINITION. The operand forms (spec/30_encoding.md R60): each operand from the latched command word, and the two
length computations. -/

namespace Sys2Proof.Machine

/-- `isSlave = cmd[8]` (R60). -/
def isSlaveOf (w : CmdWord) : Bool := (aField w).getLsbD 0

/-- `action = cmd[7:0]`, taken whole; the encoder masks it (R60, 42 R81). -/
def actionOf (w : CmdWord) : Byte := bField w

/-- `request = cmd[15:8]`, an opaque byte (R60). -/
def requestOf (w : CmdWord) : Byte := aField w

/-- The handle, `cmd[7:0]`, an opaque name (R60). -/
def handleOf (w : CmdWord) : Handle := bField w

/-- `length` on send: `BufSize(h) + 1`, with no carry for a size of 1 to 50 (R60). -/
def sendLength (n : Byte) : Byte := n + 1#8

/-- Payload size on receive: `rx.len - 1`, natural-number subtraction (R60). -/
def payloadSize (len : Byte) : Nat := len.toNat - 1

/-- A length byte the receiver accepts: unsigned, 1 to MAX_LENGTH (R59, 43 R91). -/
def validLength (len : Byte) : Bool := decide (1 ≤ len.toNat) && decide (len.toNat ≤ Config.maxLength)

/-- A payload size the sender accepts: 1 to MAX_PAYLOAD (44 R106). -/
def validSize (n : Byte) : Bool := decide (1 ≤ n.toNat) && decide (n.toNat ≤ Config.maxPayload)

end Sys2Proof.Machine
end

