-- ==== Sys2Proof/Machine/Checksum.lean ====
section
/-! DEFINITION. The checksum unit (spec/41_checksum.md): the function `xor8`, the fold step, and one visit of `CKSUM`. -/

namespace Sys2Proof.Machine

/-- The fold step of the running checksum (R76). -/
def foldByte (c b : Byte) : Byte := c ^^^ b

/-- `xor8(s)`: 0 for the empty sequence, otherwise the fold from left to right (R75). -/
def xor8 (s : List Byte) : Byte := s.foldl foldByte 0x00#8

/-- The bytes `CKSUM h` folds, or why the spec gives it no meaning (R78, 93 U3, U14). -/
def cksumBuffer (h : Handle) (s : State) : Except Refusal (List Byte) :=
  match s.bufs.find h with
  | none => .error .invalidHandle
  | some d => if d.length ≤ Config.maxPayload then .ok d else .error .tooLong

/-- One visit of K_RUN (R78): the first asks for the size and sets the working registers, each later one folds the next byte
of the buffer, and the last finds the sequence at its end (log entries 12 and 21: that the first and the last are visits of
their own is the model's choice). -/
def visitKRun (s : State) : Visit :=
  if s.kSize then
    match cksumBuffer (handleOf s.cmd) s with
    | .error r => .stop r
    | .ok d => .go { s with
        tx := { s.tx with h := handleOf s.cmd, n := sizeCount d, ck := 0x00#8, idx := 0#6 }, kSize := false }
  else if s.tx.idx.toNat < s.tx.n.toNat then
    match bufGet s.tx.h s.tx.idx.toNat s with
    | some v => .go { s with tx := { s.tx with ck := foldByte s.tx.ck v, idx := s.tx.idx + 1#6 } }
    | none => .stop .badIndex
  else .go { s with failCause := .none, st := .finish }

end Sys2Proof.Machine
end

