-- ==== Sys2Proof/Machine/Header.lean ====
section
/-! DEFINITION. The request-header encoder (spec/42_header_encoding.md). -/

namespace Sys2Proof.Machine

/-- The constant tag in place: HEADER_TAG in bits 7 to 5, 0xC0 (00_scope.md R5). -/
def tagInPlace : Byte := Config.headerTag ++ 0#5

/-- `encode_request(isSlave, action)`: tag, low four bits of the action, role bit (R80). -/
def encodeRequest (isSlave : Bool) (action : Byte) : Byte :=
  let r := tagInPlace ||| (action &&& Config.actionMask)
  if isSlave then r ||| (1#8 <<< Config.roleBit) else r

/-- The one visit of E_RUN: the encoder is wiring from the latched word; its output is presented at FINISH (R83). -/
def visitERun (s : State) : Visit := .go { s with failCause := .none, st := .finish }

end Sys2Proof.Machine
end

