-- ==== Sys2Proof/Machine/Flags.lean ====
section
/-! DEFINITION. The status outputs (spec/10_state.md R14, R24): what acceptance and FINISH write. The engine has no
condition codes. -/

namespace Sys2Proof.Machine

/-- `cmd_ready = not busy` (R23). -/
def cmdReady (s : State) : Bool := !s.busy

/-- Acceptance of a command word (R24): the word is latched, `busy` set, `done` cleared, and the sequencer moves to the
operation's first state. -/
def accept (w : CmdWord) (first : Seq) (s : State) : State :=
  { s with cmd := w, busy := true, done := false, illegal := false, st := first }

/-- Acceptance of a reserved command word: no operation starts, `illegal` pulses, and FINISH comes next
(30_encoding.md R57). -/
def acceptIllegal (w : CmdWord) (s : State) : State :=
  { accept w .finish s with illegal := true, failCause := .illegalCmd }

/-- The result encodings of 30_encoding.md R63, selected by the latched opcode: `ENCODE` the request byte, `CKSUM` the
checksum, `RECV` the response code, `SEND` 0x01 or 0x00, a reserved word 0x00. -/
def resultOf (s : State) : Byte :=
  match (opField s.cmd).toNat with
  | 0 => encodeRequest (isSlaveOf s.cmd) (actionOf s.cmd)
  | 1 => s.tx.ck
  | 2 => s.rx.res
  | 3 => (BitVec.ofBool s.tx.ok).zeroExtend 8
  | _ => 0x00#8

/-- FINISH: `result` and `cause` written, `done` set, `busy` and the pulse cleared, back to IDLE (R24, R14). -/
def visitFinish (s : State) : Visit :=
  .go { s with
    result := resultOf s, cause := s.failCause, done := true, busy := false, illegal := false, st := .idle }

end Sys2Proof.Machine
end

