-- ==== Sys2Proof/Machine/Receiver.lean ====
section
/-! DEFINITION. The frame receiver, one visit of each of its states (spec/43_frame_receiver.md R85 to R96, in the order of
the pseudocode of R85). -/

namespace Sys2Proof.Machine

/-- R_CHECK: the operands and the start values, and the precondition on the handle (R86, R87). -/
def visitRCheck (s : State) : Visit :=
  let t := { s with rx := { s.rx with h := handleOf s.cmd, res := 0x00#8, ck := 0x00#8, idx := 0#6 } }
  if bufValid t.rx.h t then .go { t with st := .rWaitMin } else .go (fail .invalidHandle .finish t)

/-- R_WAIT_MIN: at least MIN_AVAIL bytes (R88). -/
def visitRWaitMin (s : State) : Visit := waitVisit Config.minAvail .rReq s

/-- R_REQ: the request byte is consumed and folded, not examined (R89). -/
def visitRReq (s : State) : Visit :=
  let (v, t) := chanRead s
  .go { t with rx := { t.rx with req := v, ck := foldByte t.rx.ck v }, st := .rLen }

/-- R_LEN: the length byte is consumed and folded (R90). -/
def visitRLen (s : State) : Visit :=
  let (v, t) := chanRead s
  .go { t with rx := { t.rx with len := v, ck := foldByte t.rx.ck v }, st := .rValidate }

/-- R_VALIDATE: the length must be 1 to 51, compared unsigned (R91). -/
def visitRValidate (s : State) : Visit :=
  if validLength s.rx.len then .go { s with st := .rWaitFrame } else .go (fail .badLength .rCleanup s)

/-- R_WAIT_FRAME: at least `length` more bytes (R92). -/
def visitRWaitFrame (s : State) : Visit := waitVisit s.rx.len.toNat .rResize s

/-- R_RESIZE: the buffer is resized to `length - 1`; when that fails no payload byte is read (R93). -/
def visitRResize (s : State) : Visit :=
  if bufValid s.rx.h s then
    match bufResize s.rx.h (payloadSize s.rx.len) s with
    | (true, t) => .go { t with st := .rPayload }
    | (false, t) => .go (fail .resizeFail .rCleanup t)
  else .stop .invalidHandle

/-- R_PAYLOAD: the next payload byte is read, written at its index and folded (R94). The exit test of the loop is a visit of
its own, which moves no byte (log entry 21: the model's choice). -/
def visitRPayload (s : State) : Visit :=
  if s.rx.idx.toNat < payloadSize s.rx.len then
    let (v, t) := chanRead s
    match bufSet t.rx.h t.rx.idx.toNat v t with
    | some u => .go { u with rx := { u.rx with ck := foldByte u.rx.ck v, idx := u.rx.idx + 1#6 } }
    | none => .stop .badIndex
  else .go { s with st := .rCksum }

/-- R_CKSUM: the checksum byte is read, compared and not folded; on a match the result is the request byte (R95, 60 R133). -/
def visitRCksum (s : State) : Visit :=
  let (c, t) := chanRead s
  if c = t.rx.ck then
    .go { t with
      rx := { t.rx with res := t.rx.req }
      failCause := if t.rx.req = 0x00#8 then .zeroRequest else .none
      st := .rCleanup }
  else .go (fail .checksum .rCleanup t)

/-- R_CLEANUP: a failed result drains the channel, one byte a visit, until it reports none (R96, 40 R72). -/
def visitRCleanup (s : State) : Visit :=
  if s.rx.res = 0x00#8 ∧ 0 < chanAvail s then .go (drainOne s) else .go { s with st := .finish }

end Sys2Proof.Machine
end

