-- ==== Sys2Proof/Machine/Sender.lean ====
section
/-! DEFINITION. The frame sender, one visit of each of its states (spec/44_frame_sender.md R105 to R109). -/

namespace Sys2Proof.Machine

/-- S_CHECK: the operands and the start values, and the test of the payload size, made once (R106). -/
def visitSCheck (s : State) : Visit :=
  match s.bufs.find (handleOf s.cmd) with
  | none => .stop .invalidHandle
  | some d =>
    let t := { s with
      tx := { s.tx with
        h := handleOf s.cmd, req := requestOf s.cmd, ok := false, idx := 0#6, n := sizeCount d } }
    if validSize t.tx.n then .go { t with st := .sReq } else .go (fail .badSize .finish t)

/-- S_REQ: the request byte is written; it is the first fold into 0x00 (R107). -/
def visitSReq (s : State) : Visit :=
  writing s.tx.req s { s with tx := { s.tx with ck := foldByte 0x00#8 s.tx.req }, st := .sLen }

/-- S_LEN: the length byte is written and folded (R107). -/
def visitSLen (s : State) : Visit :=
  let l := sendLength s.tx.n
  writing l s { s with tx := { s.tx with len := l, ck := foldByte s.tx.ck l }, st := .sPayload }

/-- S_PAYLOAD: the next payload byte is read, written and folded (R107), one a visit (10_state.md R13). The exit test of the
loop is a visit of its own, which writes no byte: `tx.n + 1` visits in all (log entry 21: the model's choice; R113 leaves it
open). -/
def visitSPayload (s : State) : Visit :=
  if s.tx.idx.toNat < s.tx.n.toNat then
    match bufGet s.tx.h s.tx.idx.toNat s with
    | some v => writing v s { s with tx := { s.tx with ck := foldByte s.tx.ck v, idx := s.tx.idx + 1#6 } }
    | none => .stop .badIndex
  else .go { s with st := .sCksum }

/-- S_CKSUM: the checksum byte is written and not folded (R107). -/
def visitSCksum (s : State) : Visit := writing s.tx.ck s { s with st := .sFlush }

/-- S_FLUSH: the flush is confirmed only when everything written has left (R108). -/
def visitSFlush (s : State) : Visit :=
  if canFlush s then
    .go { chanFlush s with tx := { s.tx with ok := true }, failCause := .none, st := .finish }
  else .wait s

end Sys2Proof.Machine
end

