-- ==== Sys2Proof/Machine/Sequencer.lean ====
section
/-! DEFINITION. The sequencer (spec/10_state.md R13): one visit of the state `st` holds, and the engine run until it is
idle or rests in a wait. -/

namespace Sys2Proof.Machine

/-- One visit, by the sequencer state. -/
def visit (s : State) : Visit :=
  match s.st with
  | .idle => .go s
  | .rCheck => visitRCheck s
  | .rWaitMin => visitRWaitMin s
  | .rReq => visitRReq s
  | .rLen => visitRLen s
  | .rValidate => visitRValidate s
  | .rWaitFrame => visitRWaitFrame s
  | .rResize => visitRResize s
  | .rPayload => visitRPayload s
  | .rCksum => visitRCksum s
  | .rCleanup => visitRCleanup s
  | .sCheck => visitSCheck s
  | .sReq => visitSReq s
  | .sLen => visitSLen s
  | .sPayload => visitSPayload s
  | .sCksum => visitSCksum s
  | .sFlush => visitSFlush s
  | .kRun => visitKRun s
  | .eRun => visitERun s
  | .finish => visitFinish s

/-- The engine is in the middle of an operation. -/
def engineActive (s : State) : Bool := decide (s.st ≠ .idle)

/-- The engine's visits, at most so many. -/
def runEngineFor : Nat → State → Host.Outcome State Fault Refusal := runVisits engineActive visit

/-- The operation in progress is carried on until it is finished or rests in a wait (R24, 93 U16). -/
def runEngine (s : State) : Host.Outcome State Fault Refusal := runEngineFor (visitBudget s) s

/-- The numeric code of a sequencer state (R13). -/
def Seq.code : Seq → BitVec 5
  | .idle => 0#5
  | .rCheck => 1#5
  | .rWaitMin => 2#5
  | .rReq => 3#5
  | .rLen => 4#5
  | .rValidate => 5#5
  | .rWaitFrame => 6#5
  | .rResize => 7#5
  | .rPayload => 8#5
  | .rCksum => 9#5
  | .rCleanup => 10#5
  | .sCheck => 11#5
  | .sReq => 12#5
  | .sLen => 13#5
  | .sPayload => 14#5
  | .sCksum => 15#5
  | .sFlush => 16#5
  | .kRun => 17#5
  | .eRun => 18#5
  | .finish => 19#5

/-- The code on the 3-bit output `cause` (60_exceptions.md R132). -/
def Cause.code : Cause → BitVec 3
  | .none => 0#3
  | .invalidHandle => 1#3
  | .badLength => 2#3
  | .resizeFail => 3#3
  | .checksum => 4#3
  | .badSize => 5#3
  | .zeroRequest => 6#3
  | .illegalCmd => 7#3

end Sys2Proof.Machine
end

