-- ==== Sys2Proof/Machine/Operations.lean ====
section
/-! DEFINITION. The meaning of each of the four operations: the command is accepted (spec/10_state.md R24) and the
sequencer is run. A command presented while the engine is busy is not taken and changes nothing (R24). The cases the spec
tells a model to refuse are refused before anything is accepted (93 U1, U3, U14). -/

namespace Sys2Proof.Machine

/-- `ENCODE s, act` (42_header_encoding.md R83). -/
def execEncode (isSlave : Bool) (action : Byte) (s : State) : Host.Outcome State Fault Refusal :=
  if s.busy then .next s
  else runEngine (accept (encode (.encode isSlave action)) .eRun s)

/-- The start of `CKSUM`: its first visit of K_RUN will ask for the size (41_checksum.md R78). -/
def startCksum (h : Handle) (s : State) : State :=
  { accept (encode (.cksum h)) .kRun s with kSize := true }

/-- `CKSUM h` (41_checksum.md R78): refused for a handle that is not valid and for a buffer of more than 50 bytes. -/
def execCksum (h : Handle) (s : State) : Host.Outcome State Fault Refusal :=
  if s.busy then .next s
  else
    match cksumBuffer h s with
    | .error r => .refused r
    | .ok _ => runEngine (startCksum h s)

/-- `RECV h` (43_frame_receiver.md R85): refused while no session is open (40_session_control.md R73). -/
def execRecv (h : Handle) (s : State) : Host.Outcome State Fault Refusal :=
  if s.busy then .next s
  else if s.bound then runEngine (accept (encode (.recv h)) .rCheck s)
  else .refused .noSession

/-- `SEND req, h` (44_frame_sender.md R105): refused while no session is open (40 R73) and for a handle that is not valid
(44 R111). -/
def execSend (req : Byte) (h : Handle) (s : State) : Host.Outcome State Fault Refusal :=
  if s.busy then .next s
  else if s.bound then
    if bufValid h s then runEngine (accept (encode (.send req h)) .sCheck s) else .refused .invalidHandle
  else .refused .noSession

end Sys2Proof.Machine
end

