-- ==== Sys2Proof/Machine/Dispatch.lean ====
section
/-! DEFINITION. One arm per operation (spec/30_encoding.md R56). -/

namespace Sys2Proof.Machine

def exec (i : Instr) (s : State) : Host.Outcome State Fault Refusal :=
  match i with
  | .encode isSlave action => Sys2Proof.Machine.execEncode isSlave action s
  | .cksum h => Sys2Proof.Machine.execCksum h s
  | .recv h => Sys2Proof.Machine.execRecv h s
  | .send req h => Sys2Proof.Machine.execSend req h s

end Sys2Proof.Machine
end

