-- ==== Sys2Proof/Machine/HostCalls.lean ====
section
/-! DEFINITION. The host's side: `OPEN` and `CLOSE` (spec/40_session_control.md R70, R71), the composites
(45_composite_operations.md R120 to R122), the host's own buffer calls (60_exceptions.md R140), and what the machine does
next. Each `SEND` and `RECV` of a composite is a whole operation of its own (R124), taken in a step of its own. -/

namespace Sys2Proof.Machine

/-- A procedure or call is over and returns this to the host. -/
def returnTo (r : HostRet) (s : State) : State := { s with ret := r, phase := .ready }

/-- The transient buffer of a composite is released, if it has one (45 R123). When its handle has meanwhile become not valid
(`SEND1RECV` into the transient buffer itself, and a resize that failed) the release changes nothing: the spec is silent, and
this is the model's choice (log entry 22). -/
def freeTransient : Option Handle → State → State
  | some t, s => bufFree t s
  | none, s => s

/-- `OPEN` or `CLOSE` is at work on the channel. -/
def phaseActive (s : State) : Bool :=
  match s.phase with
  | .opening => true
  | .closing => true
  | .flushing => true
  | .ready => false
  | .sent1 _ => false
  | .sent _ _ => false
  | .received _ => false

/-- One round of `OPEN` or `CLOSE`: a byte of the drain, or the line after it (40 R70 to R72). -/
def phaseVisit (s : State) : Visit :=
  match s.phase with
  | .opening => if 0 < chanAvail s then .go (drainOne s) else .go (returnTo .unit s)
  | .closing => if 0 < chanAvail s then .go (drainOne s) else .go { s with phase := .flushing }
  | .flushing => if canFlush s then .go (returnTo .unit { chanFlush s with bound := false }) else .wait s
  | .ready => .go s
  | .sent1 _ => .go s
  | .sent _ _ => .go s
  | .received _ => .go s

/-- `OPEN` or `CLOSE` is carried on until it is finished or rests in its flush. -/
def runPhase (s : State) : Host.Outcome State Fault Refusal :=
  runVisits phaseActive phaseVisit (visitBudget s) s

/-- `OPEN`: `bound <- 1; Drain()` (40 R70); refused while a session is open (93 U2). -/
def hostOpen (s : State) : Host.Outcome State Fault Refusal :=
  if s.bound then .refused .sessionOpen else runPhase { s with bound := true, phase := .opening }

/-- `CLOSE`: `Drain(); ChanFlush(); bound <- 0` (40 R71); refused while no session is open (93 U2). -/
def hostClose (s : State) : Host.Outcome State Fault Refusal :=
  if s.bound then runPhase { s with phase := .closing } else .refused .noSession

/-- `SEND1 req, val` up to its `SEND` (45 R120). -/
def hostSend1 (req val : Byte) (s : State) : Host.Outcome State Fault Refusal :=
  if s.bound then
    match bufAlloc 1 s with
    | (none, t) => .next (returnTo (.bool false) t)
    | (some h, t) =>
      match bufSet h 0 val t with
      | some u => exec (.send req h) { u with phase := .sent1 h }
      | none => .refused .badIndex
  else .refused .noSession

/-- `SENDRECV req, hp, hr` up to its `SEND`, for a composite that holds the transient buffer `t` (45 R121). -/
def startSendRecv (req : Byte) (hp hr : Handle) (t : Option Handle) (s : State) : Host.Outcome State Fault Refusal :=
  if bufValid hr s then exec (.send req hp) { s with phase := .sent hr t }
  else .next (returnTo (.byte 0x00#8) (freeTransient t s))

/-- `SENDRECV req, hp, hr` (45 R121). -/
def hostSendRecv (req : Byte) (hp hr : Handle) (s : State) : Host.Outcome State Fault Refusal :=
  if s.bound then startSendRecv req hp hr none s else .refused .noSession

/-- `SEND1RECV req, val, hr`: the allocation first, then `SENDRECV` (45 R122). -/
def hostSend1Recv (req val : Byte) (hr : Handle) (s : State) : Host.Outcome State Fault Refusal :=
  if s.bound then
    match bufAlloc 1 s with
    | (none, t) => .next (returnTo (.byte 0x00#8) t)
    | (some h, t) =>
      match bufSet h 0 val t with
      | some u => startSendRecv req h hr (some h) u
      | none => .refused .badIndex
  else .refused .noSession

/-- A command word is presented to the idle engine (10_state.md R24): its operation is executed; a reserved word is
accepted with its pulse, and FINISH is the next step (30_encoding.md R57). -/
def hostCommand (w : CmdWord) (s : State) : Host.Outcome State Fault Refusal :=
  match decode w with
  | .op i => exec i s
  | .reservedOpcode _ => .next (acceptIllegal w s)

/-- The host's own `size`, `get` and `set` need a valid handle and an index below the size (93 U3, U11). -/
def hostOnBuffer (h : Handle) (s : State) (k : List Byte → Host.Outcome State Fault Refusal) :
    Host.Outcome State Fault Refusal :=
  match s.bufs.find h with
  | some d => k d
  | none => .refused .invalidHandle

/-- One call of the host, made while the engine is idle and no procedure is in progress. -/
def hostCall (c : HostCall) (s : State) : Host.Outcome State Fault Refusal :=
  match c with
  | .command w => hostCommand w s
  | .openSession => hostOpen s
  | .closeSession => hostClose s
  | .send1 req val => hostSend1 req val s
  | .sendRecv req hp hr => hostSendRecv req hp hr s
  | .send1Recv req val hr => hostSend1Recv req val hr s
  | .bufAlloc n => let (h, t) := bufAlloc n s; .next (returnTo (.handle h) t)
  | .bufFree h => hostOnBuffer h s fun _ => .next (returnTo .unit (bufFree h s))
  | .bufIsValid h => .next (returnTo (.bool (bufValid h s)) s)
  | .bufSize h => hostOnBuffer h s fun d => .next (returnTo (.count (sizeCount d).toNat) s)
  | .bufResize h n => hostOnBuffer h s fun _ =>
      let (ok, t) := bufResize h n s
      .next (returnTo (.bool ok) t)
  | .bufGet h i => hostOnBuffer h s fun d =>
      match d[i]? with
      | some v => .next (returnTo (.byte v) s)
      | none => .refused .badIndex
  | .bufSet h i v => hostOnBuffer h s fun _ =>
      match bufSet h i v s with
      | some t => .next (returnTo .unit t)
      | none => .refused .badIndex
  | .pause => .next (envStep s)

/-- The line of a composite that comes after the operation it issued has finished (45 R120 to R123). -/
def afterOperation (s : State) : Host.Outcome State Fault Refusal :=
  match s.phase with
  | .sent1 t => .next (returnTo (.bool (s.result ≠ 0x00#8)) (bufFree t s))
  | .sent hr t =>
    if s.result = 0x00#8 then .next (returnTo (.byte 0x00#8) (freeTransient t s))
    else exec (.recv hr) { s with phase := .received t }
  | .received t => .next (returnTo (.byte s.result) (freeTransient t s))
  | .ready => .next s
  | .opening => .next s
  | .closing => .next s
  | .flushing => .next s

/-- The next call of the host; with none left the world outside makes its next moves and the engine stays idle. -/
def nextCall (s : State) : Host.Outcome State Fault Refusal :=
  match s.host with
  | [] => .next (envStep s)
  | c :: rest => hostCall c { s with host := rest }

/-- What the machine does in one step: it carries on the operation in progress, or else the host procedure in progress,
or else the host makes its next call. -/
def advance (s : State) : Host.Outcome State Fault Refusal :=
  if engineActive s then runEngine s
  else if phaseActive s then runPhase s
  else
    match s.phase with
    | .ready => nextCall s
    | .sent1 _ => afterOperation s
    | .sent _ _ => afterOperation s
    | .received _ => afterOperation s
    | .opening => .next s
    | .closing => .next s
    | .flushing => .next s

/-- The host issues this command word next, having met its duties (60_exceptions.md R146): the engine is idle, no
procedure is in progress, a session is open, and for `SEND` and `CKSUM` the handle is valid; a handle that is not valid
is given a buffer of one byte (log entry 10). -/
def hostIssues (w : CmdWord) (s : State) : State :=
  let t := { s with st := .idle, busy := false, phase := .ready, bound := true, host := .command w :: s.host }
  match decode w with
  | .op (.cksum h) => if bufValid h s then t else { t with bufs := t.bufs.put h [0x00#8] }
  | .op (.send _ h) => if bufValid h s then t else { t with bufs := t.bufs.put h [0x00#8] }
  | .op (.encode _ _) => t
  | .op (.recv _) => t
  | .reservedOpcode _ => t

end Sys2Proof.Machine
end

