-- ==== Sys2Proof/Machine/Step.lean ====
section
/-! DEFINITION. One step of the machine, and the placing of a command word for the next step. -/

namespace Sys2Proof.Machine

/-- One step: what `advance` says. -/
def step (s : State) : Host.Outcome State Fault Refusal := advance s

/-- The state whose next step issues this command word (its 20 bits, as spec/opcode_table.json numbers them). -/
def State.withFetchWord (s : State) (_nbits w : Nat) : State := hostIssues (BitVec.ofNat 20 w) s

end Sys2Proof.Machine
end

