-- ==== Sys2Proof/Machine/Frame.lean ====
section
/-! DEFINITION. The frame on the wire (spec/30_encoding.md R51 to R54). -/

namespace Sys2Proof.Machine

/-- The length byte of a frame: payload size plus one (R52). -/
def frameLength (f : Frame) : Byte := BitVec.ofNat 8 (f.payload.length + 1)

/-- The checksum byte of a frame: the XOR of request, length and payload (R53). -/
def frameChecksum (f : Frame) : Byte := xor8 (f.request :: frameLength f :: f.payload)

/-- The bytes of a frame in wire order (R32, R51). -/
def frameBytes (f : Frame) : List Byte := f.request :: frameLength f :: f.payload ++ [frameChecksum f]

/-- A byte sequence is exactly one correct frame: length byte 1 to 51, `length + 2` bytes in all, and the last byte the
XOR of those before it (R51 to R54). -/
def isFrame (bs : List Byte) : Bool :=
  match bs with
  | _ :: len :: rest =>
    validLength len && decide (rest.length = len.toNat) && decide (bs.getLast? = some (xor8 bs.dropLast))
  | _ => false

end Sys2Proof.Machine
end

