-- ==== Sys2Proof/Machine/Link.lean ====
section
/-! DEFINITION. Two engines on one channel (spec/20_memory.md R45, spec/60_exceptions.md R141): a master and a slave, each
a whole machine, whose outgoing bytes are the other's arrivals. -/

namespace Sys2Proof.Machine

/-- The bytes that have left on the line: everything written less what is not yet flushed. -/
def Chan.onLine (c : Chan) : List Byte := c.wireOut.take (c.wireOut.length - c.txq.length)

/-- Two engines, and how many bytes of each one's line have been delivered to the other. -/
structure Link where
  master : State
  slave : State
  toSlave : Nat
  toMaster : Nat
  deriving DecidableEq, Repr

/-- Bytes that arrive at a machine's receive stream. -/
def State.arriving (bs : List Byte) (s : State) : State :=
  { s with chan := { s.chan with rxq := s.chan.rxq ++ bs } }

/-- The line from master to slave delivers what has left the master, changed in transit by `noise`; a faithful line is
`noise = id` (R45). -/
def Link.deliverToSlave (noise : List Byte → List Byte) (l : Link) : Link :=
  { l with
    slave := l.slave.arriving (noise (l.master.chan.onLine.drop l.toSlave))
    toSlave := l.master.chan.onLine.length }

/-- The line from slave to master, in the same way. -/
def Link.deliverToMaster (noise : List Byte → List Byte) (l : Link) : Link :=
  { l with
    master := l.master.arriving (noise (l.slave.chan.onLine.drop l.toMaster))
    toMaster := l.slave.chan.onLine.length }

/-- The master takes a step; `none` when it is refused. -/
def Link.stepMaster (l : Link) : Option Link :=
  match step l.master with
  | .next t => some { l with master := t }
  | .fault _ => none
  | .refused _ => none

/-- The slave takes a step; `none` when it is refused. -/
def Link.stepSlave (l : Link) : Option Link :=
  match step l.slave with
  | .next t => some { l with slave := t }
  | .fault _ => none
  | .refused _ => none

end Sys2Proof.Machine
end

