-- ==== Sys2Proof/Machine/Ports.lean ====
section
/-! DEFINITION. The output ports (spec/10_state.md R23) as functions of the state: the status outputs, and what the engine
requests of the channel and of the buffer collaborator in the visit it is about to make. A port that carries data only with
its request is an Option. -/

namespace Sys2Proof.Machine

/-- The operations on the port `buf_op` (R23). -/
inductive BufOp where
  | isValid | size | resize | get | set
  deriving DecidableEq, Repr

/-- The code on `buf_op` (R23). -/
def BufOp.code : BufOp → BitVec 3
  | .isValid => 0#3
  | .size => 1#3
  | .resize => 2#3
  | .get => 3#3
  | .set => 4#3

/-- A request on `buf_op`, `buf_h`, `buf_arg` and `buf_wdata`. -/
structure BufRequest where
  op : BufOp
  h : Handle
  arg : Byte
  wdata : Byte
  deriving DecidableEq, Repr

/-- The port `rx_avail`. -/
def rxAvail (s : State) : Byte := BitVec.ofNat 8 (chanAvail s)

/-- The port `rx_data`, meaningful only when `rx_avail` is above 0. -/
def rxData (s : State) : Option Byte := s.chan.queue.head?

/-- The port `rx_pop`: the states in which the engine reads a byte. -/
def rxPop (s : State) : Bool :=
  match s.st with
  | .rReq | .rLen | .rCksum => true
  | .rPayload => decide (s.rx.idx.toNat < payloadSize s.rx.len)
  | .rCleanup => decide (s.rx.res = 0x00#8) && decide (0 < chanAvail s)
  | .idle | .rCheck | .rWaitMin | .rValidate | .rWaitFrame | .rResize => false
  | .sCheck | .sReq | .sLen | .sPayload | .sCksum | .sFlush | .kRun | .eRun | .finish => false

/-- The ports `tx_push` and `tx_data`: the byte the engine writes, held until `tx_ready`. -/
def txPush (s : State) : Option Byte :=
  match s.st with
  | .sReq => some s.tx.req
  | .sLen => some (sendLength s.tx.n)
  | .sPayload => if s.tx.idx.toNat < s.tx.n.toNat then bufGet s.tx.h s.tx.idx.toNat s else none
  | .sCksum => some s.tx.ck
  | .idle | .rCheck | .rWaitMin | .rReq | .rLen | .rValidate | .rWaitFrame | .rResize | .rPayload | .rCksum => none
  | .rCleanup | .sCheck | .sFlush | .kRun | .eRun | .finish => none

/-- The port `tx_flush`, held until `tx_flushed`. -/
def txFlush (s : State) : Bool := decide (s.st = .sFlush)

/-- The ports `buf_req`, `buf_op`, `buf_h`, `buf_arg` and `buf_wdata`. R23 gives `buf_arg` a meaning for `resize`, `get` and
`set` only, and `buf_wdata` for `set` only; that they carry 0x00 with the other requests is the model's choice (log entry 18). -/
def bufRequest (s : State) : Option BufRequest :=
  match s.st with
  | .rCheck => some ⟨.isValid, handleOf s.cmd, 0x00#8, 0x00#8⟩
  | .rResize => some ⟨.resize, s.rx.h, BitVec.ofNat 8 (payloadSize s.rx.len), 0x00#8⟩
  | .rPayload =>
    if s.rx.idx.toNat < payloadSize s.rx.len then
      some ⟨.set, s.rx.h, s.rx.idx.zeroExtend 8, (chanRead s).1⟩
    else none
  | .sCheck => some ⟨.size, handleOf s.cmd, 0x00#8, 0x00#8⟩
  | .sPayload =>
    if s.tx.idx.toNat < s.tx.n.toNat then some ⟨.get, s.tx.h, s.tx.idx.zeroExtend 8, 0x00#8⟩ else none
  | .kRun =>
    if s.kSize then some ⟨.size, handleOf s.cmd, 0x00#8, 0x00#8⟩
    else if s.tx.idx.toNat < s.tx.n.toNat then some ⟨.get, s.tx.h, s.tx.idx.zeroExtend 8, 0x00#8⟩
    else none
  | .idle | .rWaitMin | .rReq | .rLen | .rValidate | .rWaitFrame | .rCksum | .rCleanup => none
  | .sReq | .sLen | .sCksum | .sFlush | .eRun | .finish => none

/-- The output ports together. -/
structure OutPorts where
  cmdReady : Bool
  busy : Bool
  done : Bool
  result : Byte
  cause : BitVec 3
  illegal : Bool
  rxPop : Bool
  txPush : Option Byte
  txFlush : Bool
  buf : Option BufRequest
  deriving DecidableEq, Repr

/-- What the engine drives in a state. -/
def outPorts (s : State) : OutPorts where
  cmdReady := cmdReady s
  busy := s.busy
  done := s.done
  result := s.result
  cause := s.cause.code
  illegal := s.illegal
  rxPop := rxPop s
  txPush := txPush s
  txFlush := txFlush s
  buf := bufRequest s

end Sys2Proof.Machine
end

