-- ==== Sys2Proof/Safety.lean ====
section
/-! DEFINITION. The terms in which claims are stated: what the world outside is assumed to do, the receive stream as a whole,
the registers of the engine, what the host must do (spec/60_exceptions.md R146), and the invariant of the machine
(spec/10_state.md R21 and the rules named at each clause). -/

namespace Sys2Proof.Machine

/-! ## The world outside -/

/-- No reset is asserted in these slots. -/
def NoReset (env : List (List EnvMove)) : Prop := ∀ slot ∈ env, EnvMove.rst ∉ slot

/-- No reset is asserted in these slots, and each of them comes once, so that the world outside does not feed the receive
stream for ever. -/
def Calm (env : List (List EnvMove)) : Prop := ∀ slot ∈ env, EnvMove.rst ∉ slot ∧ EnvMove.again ∉ slot

/-- The slots to come are one that brings a byte and comes again, and so for ever: a peer that keeps sending
(70_reset_and_hazards.md R164, 93 U16). -/
def FedForEver (env : List (List EnvMove)) : Prop :=
  ∃ slot rest b, env = slot :: rest ∧ EnvMove.again ∈ slot ∧ EnvMove.arrive b ∈ slot ∧ EnvMove.rst ∉ slot

/-- The receive queue holds the 51 bytes that the longest wait needs (70_reset_and_hazards.md R160). -/
def Roomy (s : State) : Prop := 51 ≤ s.chan.capacity

/-- The channel never stops taking bytes in these slots, and its line never stops. -/
def Willing (env : List (List EnvMove)) : Prop :=
  ∀ slot ∈ env, EnvMove.ready false ∉ slot ∧ EnvMove.line false ∉ slot

/-- The channel takes bytes and its line carries them away, now and in every slot to come. -/
structure Taking (s : State) : Prop where
  willing : Willing s.env
  ready : s.chan.ready = true
  line : s.chan.lineUp = true

/-- The byte a move delivers, if it delivers one. -/
def EnvMove.byte? : EnvMove → Option Byte
  | .arrive b => some b
  | .carry => none
  | .ready _ => none
  | .line _ => none
  | .rst => none
  | .again => none

/-- The bytes that will arrive, in order. -/
def arrivals (env : List (List EnvMove)) : List Byte := env.flatten.filterMap EnvMove.byte?

/-- The receive stream as a whole: the bytes that are there, then the bytes that will arrive. -/
def stream (s : State) : List Byte := s.chan.rxq ++ arrivals s.env

/-! ## What the host must do (R146) -/

/-- The host's duties for an operation: a session for `RECV` and `SEND`, a valid handle for `SEND` and `CKSUM`, at most
50 bytes for `CKSUM`. -/
def HostDuty (i : Instr) (s : State) : Prop :=
  match i with
  | .encode _ _ => True
  | .cksum h => ∃ d, s.bufs.find h = some d ∧ d.length ≤ Config.maxPayload
  | .recv _ => s.bound = true
  | .send _ h => s.bound = true ∧ bufValid h s = true

/-- The engine can take a command: idle, not busy (10_state.md R24). -/
def Ready (s : State) : Prop := s.st = .idle ∧ s.busy = false

/-- Everything the engine's reset does not reach is the same in both states (70 R152). -/
def SameOutside (s t : State) : Prop :=
  t.chan = s.chan ∧ t.bufs = s.bufs ∧ t.host = s.host ∧ t.answers = s.answers ∧ t.freeCtr = s.freeCtr

/-- The host's side is the same in both states. -/
def SameHost (s t : State) : Prop :=
  t.bound = s.bound ∧ t.host = s.host ∧ t.phase = s.phase ∧ t.ret = s.ret

/-- The engine's registers and outputs are the same in both states (10_state.md R11 to R14, R20). -/
def EngineKept (s t : State) : Prop :=
  t.st = s.st ∧ t.cmd = s.cmd ∧ t.rx = s.rx ∧ t.tx = s.tx ∧ t.pollT = s.pollT ∧ t.busy = s.busy ∧ t.done = s.done ∧
    t.result = s.result ∧ t.cause = s.cause ∧ t.illegal = s.illegal ∧ t.failCause = s.failCause ∧ t.kSize = s.kSize

/-- Every register of the engine, and `bound`, holds its reset value (10_state.md R22). -/
def RegistersReset (t : State) : Prop :=
  t.st = .idle ∧ t.busy = false ∧ t.done = false ∧ t.result = 0x00#8 ∧ t.cause = .none ∧
    t.rx = { h := 0#8, req := 0#8, len := 0#8, ck := 0#8, idx := 0#6, res := 0#8 } ∧
    t.tx = { h := 0#8, req := 0#8, n := 0#8, len := 0#8, ck := 0#8, idx := 0#6, ok := false } ∧
    t.pollT = 0#5 ∧ t.bound = false

/-- The states the sequencer can go to from each state (10_state.md R13, 43 R101, 44 R113). -/
def Seq.successors : Seq → List Seq
  | .idle => [.idle]
  | .rCheck => [.rWaitMin, .finish]
  | .rWaitMin => [.rWaitMin, .rReq]
  | .rReq => [.rLen]
  | .rLen => [.rValidate]
  | .rValidate => [.rWaitFrame, .rCleanup]
  | .rWaitFrame => [.rWaitFrame, .rResize]
  | .rResize => [.rPayload, .rCleanup]
  | .rPayload => [.rPayload, .rCksum]
  | .rCksum => [.rCleanup]
  | .rCleanup => [.rCleanup, .finish]
  | .sCheck => [.sReq, .finish]
  | .sReq => [.sLen]
  | .sLen => [.sPayload]
  | .sPayload => [.sPayload, .sCksum]
  | .sCksum => [.sFlush]
  | .sFlush => [.finish]
  | .kRun => [.kRun, .finish]
  | .eRun => [.finish]
  | .finish => [.idle]

/-- How many bytes differ in bit column `k` (41_checksum.md R79). -/
def columnFlips (bs cs : List Byte) (k : Nat) : Nat :=
  (bs.zip cs).countP fun e => e.1.getLsbD k != e.2.getLsbD k

/-- The final state of a run (70 R172). -/
def Finished (s : State) : Prop := s.st = .idle ∧ s.busy = false ∧ s.phase = .ready ∧ s.host = []

/-! ## What an operation leaves -/

/-- An operation has finished with this result and cause (10_state.md R14, R24). -/
def Completed (r : Byte) (c : Cause) (t : State) : Prop :=
  t.st = .idle ∧ t.busy = false ∧ t.done = true ∧ t.illegal = false ∧ t.result = r ∧ t.cause = c

/-- An operation begun in `s` rests in this state of the sequencer, its outputs not yet written (43 R99, 93 U16). -/
def RestsIn (w : Seq) (s t : State) : Prop :=
  t.st = w ∧ t.busy = true ∧ t.done = false ∧ t.illegal = false ∧ t.result = s.result ∧ t.cause = s.cause ∧ t.env = []

/-- Nothing was written: only the world outside has touched the transmit side. -/
def NothingWritten (s t : State) : Prop := t.chan.wireOut = s.chan.wireOut ∧ t.chan.txq <:+ s.chan.txq

/-- Nothing was read: every byte that was there or will arrive still is or will, in a queue as long as before. -/
def NothingRead (s t : State) : Prop :=
  stream t = stream s ∧ t.env <:+ s.env ∧ t.chan.capacity = s.chan.capacity

/-- The channel was drained (40_session_control.md R72): `e` are the slots that were still to come when the drain saw the channel
empty, at most one of which has passed since, and everything that is there now, or will arrive, is of those slots. -/
def Drained (s t : State) : Prop :=
  ∃ e, e <:+ s.env ∧ t.env <:+ e ∧ e.length ≤ t.env.length + 1 ∧ stream t = arrivals e

/-- The buffer collaborator is untouched, every byte of every buffer among it. -/
def BuffersKept (s t : State) : Prop :=
  t.bufs = s.bufs ∧ t.answers = s.answers ∧ t.freeCtr = s.freeCtr ∧ ∀ j i, t.bufs.byteAt j i = s.bufs.byteAt j i

/-- Every buffer but one is untouched: its validity, its size and every byte of it. -/
def OtherBuffersKept (h : Handle) (s t : State) : Prop :=
  ∀ j, j ≠ h → t.bufs.find j = s.bufs.find j ∧ ∀ i, t.bufs.byteAt j i = s.bufs.byteAt j i

/-- The visit from `s` to `t` takes the answer of this buffer request as its port says (10_state.md R18, R23): the answer of
`is_valid` decides where `R_CHECK` goes (43 R86), a size becomes `tx.n`, a resize that succeeds leaves the size asked for (R93), the
byte read is the byte folded and written (41 R78, 44 R107), and the byte set is the byte on `rx_data`, folded too (43 R94). -/
def BufAnswered (q : BufRequest) (s t : State) : Prop :=
  match q.op with
  | .isValid => t.rx.h = q.h ∧ t.st = if bufValid q.h s = true then .rWaitMin else .finish
  | .size => t.tx.h = q.h ∧ ∃ d, s.bufs.find q.h = some d ∧ t.tx.n = sizeCount d
  | .resize =>
    OtherBuffersKept q.h s t ∧
      ((drawResize s).1 = true → t.st = .rPayload ∧ ∃ d, t.bufs.find q.h = some d ∧ d.length = q.arg.toNat) ∧
      ((drawResize s).1 = false → t.st = .rCleanup)
  | .get =>
    ∃ v, s.bufs.byteAt q.h q.arg.toNat = some v ∧ t.tx.ck = foldByte s.tx.ck v ∧ (s.st = .sPayload → txPush s = some v)
  | .set =>
    t.bufs.byteAt q.h q.arg.toNat = some q.wdata ∧ t.rx.ck = foldByte s.rx.ck q.wdata ∧
      (s.chan.queue ≠ [] → rxData s = some q.wdata) ∧
      (∀ j i, (j, i) ≠ (q.h, q.arg.toNat) → t.bufs.byteAt j i = s.bufs.byteAt j i) ∧
      ∀ j, (t.bufs.find j).map List.length = (s.bufs.find j).map List.length

/-- What `RECV h` leaves alone: the sender's registers, the host's side, the transmit side, every other buffer and the
answers of `allocate`, and the capacity of the receive queue. -/
def ReceiveKeeps (h : Handle) (s t : State) : Prop :=
  t.tx = s.tx ∧ SameHost s t ∧ NothingWritten s t ∧ OtherBuffersKept h s t ∧ t.answers.alloc = s.answers.alloc ∧
    t.env <:+ s.env ∧ t.chan.capacity = s.chan.capacity

/-- What `SEND` leaves alone: the receiver's registers, the poll timer, the host's side, the receive side and every byte of
every buffer. -/
def SendKeeps (s t : State) : Prop :=
  t.rx = s.rx ∧ t.pollT = s.pollT ∧ SameHost s t ∧ NothingRead s t ∧ BuffersKept s t

/-- What `ENCODE` and `CKSUM` leave alone beside that: the transmit side, and with no move of the world outside the whole
channel. -/
def PureKeeps (s t : State) : Prop :=
  SendKeeps s t ∧ NothingWritten s t ∧ (s.env = [] → t.chan = s.chan)

/-! ## The invariant -/

/-- The operation the sequencer state belongs to is the latched one (R13, R24). -/
def opcodeAgrees (s : State) : Prop :=
  match s.st with
  | .idle | .finish => True
  | .rCheck | .rWaitMin | .rReq | .rLen | .rValidate | .rWaitFrame | .rResize | .rPayload | .rCksum | .rCleanup =>
    opField s.cmd = 2#4
  | .sCheck | .sReq | .sLen | .sPayload | .sCksum | .sFlush => opField s.cmd = 3#4
  | .kRun => opField s.cmd = 1#4
  | .eRun => opField s.cmd = 0#4

/-- The channel is in use only inside a session (40 R73). -/
def sessionAgrees (s : State) : Prop :=
  match s.st with
  | .rCheck | .rWaitMin | .rReq | .rLen | .rValidate | .rWaitFrame | .rResize | .rPayload | .rCksum | .rCleanup
  | .sCheck | .sReq | .sLen | .sPayload | .sCksum | .sFlush => s.bound = true
  | .idle | .finish | .kRun | .eRun => s.phase ≠ .ready → s.bound = true

/-- What the working registers, the buffer and the channel hold in each state of an operation: the running checksum is
the XOR of the bytes so far (41 R76), every read the engine will make is covered by bytes that are there
(20 R35), every index is below the size (20 R37), and the buffer's size is `length - 1` once it is resized (10 R21). -/
def registersAgree (s : State) : Prop :=
  match s.st with
  | .idle | .rCheck | .eRun => True
  | .rWaitMin => bufValid s.rx.h s = true ∧ s.rx.ck = 0x00#8 ∧ s.rx.idx = 0#6 ∧ s.rx.res = 0x00#8
  | .rReq =>
    bufValid s.rx.h s = true ∧ s.rx.ck = 0x00#8 ∧ s.rx.idx = 0#6 ∧ s.rx.res = 0x00#8 ∧ 4 ≤ s.chan.queue.length
  | .rLen =>
    bufValid s.rx.h s = true ∧ s.rx.ck = s.rx.req ∧ s.rx.idx = 0#6 ∧ s.rx.res = 0x00#8 ∧ 3 ≤ s.chan.queue.length
  | .rValidate =>
    bufValid s.rx.h s = true ∧ s.rx.ck = xor8 [s.rx.req, s.rx.len] ∧ s.rx.idx = 0#6 ∧ s.rx.res = 0x00#8 ∧
      2 ≤ s.chan.queue.length
  | .rWaitFrame =>
    bufValid s.rx.h s = true ∧ s.rx.ck = xor8 [s.rx.req, s.rx.len] ∧ s.rx.idx = 0#6 ∧ s.rx.res = 0x00#8 ∧
      validLength s.rx.len = true
  | .rResize =>
    bufValid s.rx.h s = true ∧ s.rx.ck = xor8 [s.rx.req, s.rx.len] ∧ s.rx.idx = 0#6 ∧ s.rx.res = 0x00#8 ∧
      validLength s.rx.len = true ∧ s.rx.len.toNat ≤ s.chan.queue.length
  | .rPayload =>
    validLength s.rx.len = true ∧ s.rx.res = 0x00#8 ∧ s.rx.idx.toNat ≤ payloadSize s.rx.len ∧
      s.rx.len.toNat ≤ s.chan.queue.length + s.rx.idx.toNat ∧
      ∃ d, s.bufs.find s.rx.h = some d ∧ d.length = payloadSize s.rx.len ∧
        s.rx.ck = xor8 (s.rx.req :: s.rx.len :: d.take s.rx.idx.toNat)
  | .rCksum =>
    validLength s.rx.len = true ∧ s.rx.res = 0x00#8 ∧ 1 ≤ s.chan.queue.length ∧
      ∃ d, s.bufs.find s.rx.h = some d ∧ d.length = payloadSize s.rx.len ∧
        s.rx.ck = xor8 (s.rx.req :: s.rx.len :: d)
  | .rCleanup =>
    s.rx.res ≠ 0x00#8 → s.failCause = .none ∧ s.rx.res = s.rx.req ∧
      ∃ d, s.bufs.find s.rx.h = some d ∧ d.length = payloadSize s.rx.len ∧
        s.rx.ck = xor8 (s.rx.req :: s.rx.len :: d)
  | .sCheck => bufValid (handleOf s.cmd) s = true
  | .sReq =>
    validSize s.tx.n = true ∧ s.tx.ok = false ∧ s.tx.idx = 0#6 ∧
      ∃ d, s.bufs.find s.tx.h = some d ∧ d.length = s.tx.n.toNat
  | .sLen =>
    validSize s.tx.n = true ∧ s.tx.ok = false ∧ s.tx.idx = 0#6 ∧ s.tx.ck = s.tx.req ∧
      (∃ d, s.bufs.find s.tx.h = some d ∧ d.length = s.tx.n.toNat) ∧ [s.tx.req] <:+ s.chan.wireOut
  | .sPayload =>
    validSize s.tx.n = true ∧ s.tx.ok = false ∧ s.tx.idx.toNat ≤ s.tx.n.toNat ∧ s.tx.len = sendLength s.tx.n ∧
      ∃ d, s.bufs.find s.tx.h = some d ∧ d.length = s.tx.n.toNat ∧
        s.tx.ck = xor8 (s.tx.req :: s.tx.len :: d.take s.tx.idx.toNat) ∧
        s.tx.req :: s.tx.len :: d.take s.tx.idx.toNat <:+ s.chan.wireOut
  | .sCksum =>
    validSize s.tx.n = true ∧ s.tx.ok = false ∧ s.tx.len = sendLength s.tx.n ∧
      ∃ d, s.bufs.find s.tx.h = some d ∧ d.length = s.tx.n.toNat ∧
        s.tx.ck = xor8 (s.tx.req :: s.tx.len :: d) ∧ s.tx.req :: s.tx.len :: d <:+ s.chan.wireOut
  | .sFlush =>
    s.tx.ok = false ∧ ∃ d, s.bufs.find s.tx.h = some d ∧ frameBytes ⟨s.tx.req, d⟩ <:+ s.chan.wireOut
  | .kRun =>
    (s.kSize = true → ∃ d, s.bufs.find (handleOf s.cmd) = some d ∧ d.length ≤ 50) ∧
      (s.kSize = false → s.tx.n.toNat ≤ 50 ∧ s.tx.idx.toNat ≤ s.tx.n.toNat ∧
        ∃ d, s.bufs.find s.tx.h = some d ∧ d.length = s.tx.n.toNat ∧ s.tx.ck = xor8 (d.take s.tx.idx.toNat))
  | .finish => s.failCause ≠ .none → resultOf s = 0x00#8

/-- The invariant of the machine. -/
def Inv (s : State) : Prop :=
  (s.busy = true ↔ s.st ≠ .idle) ∧
  (s.illegal = true → s.st = .finish) ∧
  s.bufs.wf = true ∧
  s.chan.txq <:+ s.chan.wireOut ∧
  s.pollT.toNat ≤ 25 ∧
  (s.pollT ≠ 0#5 → s.st = .rWaitMin ∨ s.st = .rWaitFrame) ∧
  (s.cause ≠ .none → s.result = 0x00#8) ∧
  opcodeAgrees s ∧ sessionAgrees s ∧ registersAgree s

end Sys2Proof.Machine
end

