-- ==== Sys2Proof/Certificates/Slice0/Obligations.lean ====
section
/-! DEFINITION. The statements for the provers. Every statement is about every state that meets its hypotheses, reachable or
not; where a statement needs the invariant of the machine it says so. `Calm` slots are slots in which no reset is asserted and
which come once each; `Roomy` is the 51 bytes that the receive queue must hold (70_reset_and_hazards.md R160). -/

open Sys2Proof Sys2Proof.Machine

/-! ## Encoding -/

/-- The decoder inverts the encoder on every well-formed operation, a word decodes to an operation exactly when the bits
that operation uses are the encoder's, and every other word is refused by name (30_encoding.md R55, R56, R57). -/
def Obligations.DecodeInvertsEncode : Prop :=
  (∀ i : Instr, i.wf = true → decode (encode i) = .op i) ∧
  (∀ (w : CmdWord) (i : Instr), decode w = .op i ↔ w &&& usedBits i = encode i) ∧
  (∀ w : CmdWord, 4 ≤ (opField w).toNat ↔ decode w = .reservedOpcode (opField w))

/-- The opcode map, its match and mask, the operation each word runs, and the ignored bits (30_encoding.md R56). -/
def Obligations.OpcodeMap : Prop :=
  (∀ (a b : Byte) (s : State),
    decode (cmdWord 0#4 a b) = .op (.encode (a.getLsbD 0) b) ∧
    decode (cmdWord 1#4 a b) = .op (.cksum b) ∧
    decode (cmdWord 2#4 a b) = .op (.recv b) ∧
    decode (cmdWord 3#4 a b) = .op (.send a b) ∧
    hostCommand (cmdWord 0#4 a b) s = exec (.encode (a.getLsbD 0) b) s ∧
    hostCommand (cmdWord 1#4 a b) s = exec (.cksum b) s ∧
    hostCommand (cmdWord 2#4 a b) s = exec (.recv b) s ∧
    hostCommand (cmdWord 3#4 a b) s = exec (.send a b) s ∧
    ∀ op : BitVec 4, 4 ≤ op.toNat → decode (cmdWord op a b) = .reservedOpcode op) ∧
  (∀ w : CmdWord,
    (w &&& 0xF0000#20 = 0x00000#20 ↔ ∃ sl act, decode w = .op (.encode sl act)) ∧
    (w &&& 0xF0000#20 = 0x10000#20 ↔ ∃ h, decode w = .op (.cksum h)) ∧
    (w &&& 0xF0000#20 = 0x20000#20 ↔ ∃ h, decode w = .op (.recv h)) ∧
    (w &&& 0xF0000#20 = 0x30000#20 ↔ ∃ req h, decode w = .op (.send req h))) ∧
  (∀ (sl : Bool) (act h : Byte),
    encode (.encode sl act) &&& 0x0FE00#20 = 0#20 ∧ encode (.cksum h) &&& 0x0FF00#20 = 0#20 ∧
      encode (.recv h) &&& 0x0FF00#20 = 0#20)

/-- Words written out from the spec's own programs and vectors (95_test_vectors.md S7, S8, S9, V-E8, P1, P2, V-I1, V-I3). -/
def Obligations.SampleWordsDecode : Prop :=
  decode 0x00105#20 = .op (.encode true 0x05#8) ∧
  decode 0x0000F#20 = .op (.encode false 0x0F#8) ∧
  decode 0x0FE03#20 = .op (.encode false 0x03#8) ∧
  decode 0x10001#20 = .op (.cksum 0x01#8) ∧
  decode 0x20002#20 = .op (.recv 0x02#8) ∧
  decode 0x30101#20 = .op (.send 0x01#8 0x01#8) ∧
  decode 0x3C301#20 = .op (.send 0xC3#8 0x01#8) ∧
  decode 0x40000#20 = .reservedOpcode 0x4#4

/-- How each operand is formed (30_encoding.md R60). -/
def Obligations.OperandAssembly : Prop :=
  (∀ w : CmdWord,
    isSlaveOf w = w.getLsbD 8 ∧ actionOf w = w.extractLsb' 0 8 ∧ requestOf w = w.extractLsb' 8 8 ∧
      handleOf w = w.extractLsb' 0 8) ∧
  (∀ (sl : Bool) (act : Byte), encodeRequest sl act = encodeRequest sl (act &&& 0x0F#8)) ∧
  (∀ n : Byte, 1 ≤ n.toNat → n.toNat ≤ 50 →
    (sendLength n).toNat = n.toNat + 1 ∧ 2 ≤ (sendLength n).toNat ∧ (sendLength n).toNat ≤ 51) ∧
  (∀ len : Byte, 1 ≤ len.toNat → len.toNat ≤ 51 → payloadSize len + 1 = len.toNat ∧ payloadSize len ≤ 50)

/-- A reserved command word starts no operation: it pulses `illegal`, and FINISH, the next step, reports 0x00 and
ILLEGAL_CMD (30_encoding.md R57). That the pulse and FINISH are two steps is the model's choice (log entry 1). -/
def Obligations.ReservedWordIsIllegal : Prop :=
  ∀ (s : State) (w : CmdWord) (rest : List HostCall),
    Ready s → s.phase = .ready → Calm s.env → s.host = .command w :: rest → 4 ≤ (opField w).toNat →
    ∃ t u, step s = .next t ∧ step t = .next u ∧
      t.st = .finish ∧ t.illegal = true ∧ t.busy = true ∧ t.done = false ∧ t.chan = s.chan ∧ BuffersKept s t ∧
      Completed 0x00#8 .illegalCmd u ∧ u.tx = s.tx ∧ PureKeeps { s with host := rest } u

/-! ## The header encoder -/

/-- The fields of an encoded request byte, the 32 values, and when two of them are the same (42_header_encoding.md R82). -/
def Obligations.EncodeRequestFields : Prop :=
  ∀ (sl : Bool) (act : Byte),
    (encodeRequest sl act).extractLsb' 5 3 = 0b110#3 ∧
    (encodeRequest sl act).getLsbD 4 = sl ∧
    encodeRequest sl act &&& 0x0F#8 = act &&& 0x0F#8 ∧
    (encodeRequest sl act).toNat = 0xC0 + 16 * sl.toNat + act.toNat % 16 ∧
    ∀ (sl' : Bool) (act' : Byte),
      encodeRequest sl act = encodeRequest sl' act' ↔ sl = sl' ∧ act &&& 0x0F#8 = act' &&& 0x0F#8

/-- `ENCODE` (42_header_encoding.md R83). -/
def Obligations.EncodeOperation : Prop :=
  ∀ (s : State) (sl : Bool) (act : Byte), Ready s → Calm s.env →
    (∃ t, exec (.encode sl act) s = .next t ∧
      Completed (0xC0#8 ||| ((BitVec.ofBool sl).zeroExtend 8 <<< 4) ||| (act &&& 0x0F#8)) .none t ∧
      t.tx = s.tx ∧ PureKeeps s t) ∧
    ∀ a : Byte, a.getLsbD 0 = sl → hostCommand (cmdWord 0#4 a act) s = exec (.encode sl act) s

/-! ## The checksum unit -/

/-- The checksum as a function: the fold, and the parity of each bit column (41_checksum.md R75). -/
def Obligations.ChecksumParity : Prop :=
  (∀ s : List Byte, xor8 s = s.foldl (fun c b => c ^^^ b) 0x00#8) ∧
  xor8 [] = 0x00#8 ∧ (∀ x : Byte, xor8 [x] = x) ∧ xor8 [0x01#8, 0x02#8, 0xAA#8] = 0xA9#8 ∧
  ∀ (s : List Byte) (k : Nat), (xor8 s).getLsbD k = (s.countP (fun b => b.getLsbD k) % 2 == 1)

/-- The laws of the checksum (41_checksum.md R77). -/
def Obligations.ChecksumLaws : Prop :=
  xor8 [] = 0x00#8 ∧
  (∀ s : List Byte, xor8 s = xor8 s) ∧
  (∀ (s : List Byte) (b : Byte), xor8 (s ++ [b]) = xor8 s ^^^ b) ∧
  (∀ s t : List Byte, xor8 (s ++ t) = xor8 s ^^^ xor8 t) ∧
  (∀ s t : List Byte, s.Perm t → xor8 s = xor8 t) ∧
  (∀ s : List Byte, xor8 (s ++ s) = 0x00#8) ∧
  (∀ (s t u : List Byte) (b : Byte), xor8 (s ++ b :: t ++ b :: u) = xor8 (s ++ t ++ u)) ∧
  (∀ s t : List Byte, xor8 (s ++ 0x00#8 :: t) = xor8 (s ++ t)) ∧
  (∀ f : Frame, f.wf = true → xor8 (frameBytes f) = 0x00#8) ∧
  (∀ (s : List Byte) (i k : Nat) (hi : i < s.length), k < 8 →
    xor8 (s.set i (s[i] ^^^ (1#8 <<< k))) = xor8 s ^^^ (1#8 <<< k) ∧
      xor8 (s.set i (s[i] ^^^ (1#8 <<< k))) ≠ xor8 s) ∧
  (∀ (s : List Byte) (i j k : Nat) (hi : i < s.length) (hj : j < s.length), i ≠ j → k < 8 →
    xor8 ((s.set i (s[i] ^^^ (1#8 <<< k))).set j (s[j] ^^^ (1#8 <<< k))) = xor8 s)

/-- `CKSUM`: its result, its working registers, what it leaves alone, and where it is refused (41_checksum.md R78). -/
def Obligations.CksumOperation : Prop :=
  ∀ (s : State) (h : Handle), Ready s → Calm s.env →
    (∀ d, s.bufs.find h = some d → d.length ≤ 50 →
      ∃ t, exec (.cksum h) s = .next t ∧ Completed (xor8 d) .none t ∧
        t.tx = { s.tx with h := h, n := BitVec.ofNat 8 d.length, ck := xor8 d, idx := BitVec.ofNat 6 d.length } ∧
        PureKeeps s t) ∧
    (s.bufs.find h = none → exec (.cksum h) s = .refused .invalidHandle) ∧
    (∀ d, s.bufs.find h = some d → 50 < d.length → exec (.cksum h) s = .refused .tooLong) ∧
    ∀ a : Byte, hostCommand (cmdWord 1#4 a h) s = exec (.cksum h) s

/-- The byte sequences that are correct frames, their length and their checksum (30_encoding.md R51 to R54). -/
def Obligations.FramesAreFrameBytes : Prop :=
  (∀ bs : List Byte, isFrame bs = true ↔ ∃ f : Frame, f.wf = true ∧ bs = frameBytes f) ∧
  (∀ f : Frame, f.wf = true →
    (frameLength f).toNat = f.payload.length + 1 ∧ 1 ≤ (frameLength f).toNat ∧ (frameLength f).toNat ≤ 51 ∧
      (frameBytes f).length = (frameLength f).toNat + 2 ∧ 3 ≤ (frameBytes f).length ∧ (frameBytes f).length ≤ 53 ∧
      xor8 (frameBytes f) = 0x00#8) ∧
  (∀ f g : Frame, frameBytes f = frameBytes g → f = g)

/-- Every count the engine compares may saturate at 255 without changing an answer (70_reset_and_hazards.md R169). -/
def Obligations.SaturationHarmless : Prop :=
  (∀ s : State,
    (0 < chanAvail s ↔ 0 < s.chan.queue.length) ∧
    (4 ≤ chanAvail s ↔ 4 ≤ s.chan.queue.length) ∧
    (∀ len : Byte, len.toNat ≤ 51 → (len.toNat ≤ chanAvail s ↔ len.toNat ≤ s.chan.queue.length)) ∧
    chanAvail s ≤ 255) ∧
  (∀ d : List Byte,
    (1 ≤ (sizeCount d).toNat ↔ 1 ≤ d.length) ∧ ((sizeCount d).toNat ≤ 50 ↔ d.length ≤ 50) ∧
      (sizeCount d).toNat = min d.length 255)

/-! ## The frame receiver -/

/-- One visit of each wait: the poll timer counts down, and when it is out the count is sampled once; nothing else
changes (43_frame_receiver.md R88, R92, R99; 60_exceptions.md R139). That a visit is one time unit is the model's choice
(log entry 14). -/
def Obligations.PollTimerPacesWaits : Prop :=
  ∀ s : State,
    (s.st = .rWaitMin →
      (s.pollT ≠ 0#5 → visit s = .go { s with pollT := s.pollT - 1#5 }) ∧
      (s.pollT = 0#5 → 4 ≤ s.chan.queue.length → visit s = .go { s with st := .rReq }) ∧
      (s.pollT = 0#5 → s.chan.queue.length < 4 → visit s = .wait { s with pollT := 25#5 })) ∧
    (s.st = .rWaitFrame →
      (s.pollT ≠ 0#5 → visit s = .go { s with pollT := s.pollT - 1#5 }) ∧
      (s.pollT = 0#5 → s.rx.len.toNat ≤ s.chan.queue.length → visit s = .go { s with st := .rResize }) ∧
      (s.pollT = 0#5 → s.chan.queue.length < s.rx.len.toNat → visit s = .wait { s with pollT := 25#5 }))

/-- `RECV` with a handle that is not valid touches neither the channel nor a buffer (43_frame_receiver.md R86). -/
def Obligations.RecvInvalidHandle : Prop :=
  ∀ (s : State) (h : Handle), Ready s → s.bound = true → Calm s.env → bufValid h s = false →
    ∃ t, exec (.recv h) s = .next t ∧ Completed 0x00#8 .invalidHandle t ∧
      NothingRead s t ∧ (s.env = [] → t.chan = s.chan) ∧ BuffersKept s t ∧ ReceiveKeeps h s t ∧ t.pollT = s.pollT ∧
      t.rx = { s.rx with h := h, res := 0x00#8, ck := 0x00#8, idx := 0#6 }

/-- A length byte outside 1 to 51 fails the reception, drains the channel and leaves the buffer alone; any other is
accepted (43_frame_receiver.md R91). -/
def Obligations.RecvBadLength : Prop :=
  (∀ (s : State) (h : Handle) (r l : Byte) (S : List Byte),
    Ready s → s.bound = true → Calm s.env → Roomy s → bufValid h s = true → stream s = r :: l :: S → 2 ≤ S.length →
    (l = 0x00#8 ∨ 0x34 ≤ l.toNat) →
    ∃ t, exec (.recv h) s = .next t ∧ Completed 0x00#8 .badLength t ∧
      Drained s t ∧ BuffersKept s t ∧ ReceiveKeeps h s t ∧ t.pollT = 0#5 ∧
      t.rx = { h := h, req := r, len := l, ck := r ^^^ l, idx := 0#6, res := 0x00#8 }) ∧
  (∀ s : State, s.st = .rValidate → 1 ≤ s.rx.len.toNat → s.rx.len.toNat ≤ 51 →
    visit s = .go { s with st := .rWaitFrame })

/-- A correct frame at the head of the stream is received: the response code is its request byte, whatever its tag bits,
the buffer holds its payload, the working registers hold what they accumulated, and exactly the frame is consumed
(43_frame_receiver.md R85, R87 to R90, R92 to R95, R97, R98). -/
def Obligations.RecvSuccess : Prop :=
  ∀ (s : State) (h : Handle) (f : Frame) (rest : List Byte),
    Ready s → s.bound = true → Calm s.env → Roomy s → bufValid h s = true → (drawResize s).1 = true →
    f.wf = true → f.request ≠ 0x00#8 → stream s = frameBytes f ++ rest → 4 ≤ (stream s).length →
    ∃ t, exec (.recv h) s = .next t ∧ Completed f.request .none t ∧
      t.bufs.find h = some f.payload ∧ stream t = rest ∧
      t.rx = { h := h, req := f.request, len := frameLength f, ck := frameChecksum f
               idx := BitVec.ofNat 6 f.payload.length, res := f.request } ∧
      t.pollT = 0#5 ∧ t.answers.resizeOk = s.answers.resizeOk.tail ∧ ReceiveKeeps h s t

/-- Exactly one frame is consumed: what is behind it stays, and two frames back to back are received by two operations
(43_frame_receiver.md R100). -/
def Obligations.BackToBackFrames : Prop :=
  ∀ (s : State) (h h' : Handle) (f g : Frame) (rest : List Byte) (a : List Bool),
    Ready s → s.bound = true → Calm s.env → Roomy s → bufValid h s = true → bufValid h' s = true →
    s.answers.resizeOk = true :: true :: a → f.wf = true → f.request ≠ 0x00#8 → g.wf = true → g.request ≠ 0x00#8 →
    stream s = frameBytes f ++ frameBytes g ++ rest → 4 ≤ (frameBytes g ++ rest).length →
    ∃ t u, exec (.recv h) s = .next t ∧ exec (.recv h') t = .next u ∧
      Completed f.request .none t ∧ stream t = frameBytes g ++ rest ∧ t.bufs.find h = some f.payload ∧
      Completed g.request .none u ∧ stream u = rest ∧ u.bufs.find h' = some g.payload

/-- A checksum byte that is not the XOR of the bytes before it: the reception fails, the stream is drained, and the buffer
holds the bytes read as payload (43_frame_receiver.md R95, R96, R98). -/
def Obligations.RecvChecksumMismatch : Prop :=
  ∀ (s : State) (h : Handle) (r l c : Byte) (p rest : List Byte),
    Ready s → s.bound = true → Calm s.env → Roomy s → bufValid h s = true → (drawResize s).1 = true →
    stream s = r :: l :: p ++ c :: rest → p.length + 1 = l.toNat → l.toNat ≤ 51 → 4 ≤ (stream s).length →
    c ≠ xor8 (r :: l :: p) →
    ∃ t, exec (.recv h) s = .next t ∧ Completed 0x00#8 .checksum t ∧ Drained s t ∧
      t.bufs.find h = some p ∧ ReceiveKeeps h s t ∧ t.pollT = 0#5 ∧
      t.rx = { h := h, req := r, len := l, ck := xor8 (r :: l :: p), idx := BitVec.ofNat 6 p.length, res := 0x00#8 }

/-- A frame whose checksum matches and whose request byte is 0x00 is reported as a failure, and the stream is drained
(60_exceptions.md R133). -/
def Obligations.RecvZeroRequest : Prop :=
  ∀ (s : State) (h : Handle) (p rest : List Byte),
    Ready s → s.bound = true → Calm s.env → Roomy s → bufValid h s = true → (drawResize s).1 = true →
    p.length ≤ 50 → stream s = frameBytes ⟨0x00#8, p⟩ ++ rest → 4 ≤ (stream s).length →
    ∃ t, exec (.recv h) s = .next t ∧ Completed 0x00#8 .zeroRequest t ∧ Drained s t ∧
      t.bufs.find h = some p ∧ ReceiveKeeps h s t

/-- A resize that is answered false: no payload byte is stored, the reception fails and drains; the record of the buffer is
the free value (43_frame_receiver.md R93, R98; 90_conflicts.md C1; log entries 3 and 17). The statement holds whatever the value
of `Config.failedResize` is. -/
def Obligations.RecvResizeFailure : Prop :=
  ∀ (s : State) (h : Handle) (r l : Byte) (S : List Byte),
    Ready s → s.bound = true → Calm s.env → Roomy s → bufValid h s = true → (drawResize s).1 = false →
    stream s = r :: l :: S → 1 ≤ l.toNat → l.toNat ≤ 51 → l.toNat ≤ S.length → 2 ≤ S.length →
    ∃ t, exec (.recv h) s = .next t ∧ Completed 0x00#8 .resizeFail t ∧ Drained s t ∧
      t.bufs = s.bufs.assign h (Config.failedResize (drawResize s).2.freeCtr) ∧ ReceiveKeeps h s t ∧ t.pollT = 0#5 ∧
      t.rx = { h := h, req := r, len := l, ck := r ^^^ l, idx := 0#6, res := 0x00#8 }

/-- With fewer than four bytes, or a queue too short for four, the reception reads nothing and waits for ever: it is stuck in
R_WAIT_MIN, busy (43_frame_receiver.md R88, R99; 70_reset_and_hazards.md R156, R160). -/
def Obligations.RecvWaitsForFour : Prop :=
  ∀ (s : State) (h : Handle),
    Ready s → s.bound = true → Calm s.env → bufValid h s = true →
    (stream s).length < 4 ∨ s.chan.capacity < 4 →
    ∃ t, exec (.recv h) s = .next t ∧ RestsIn .rWaitMin s t ∧ NothingRead s t ∧ BuffersKept s t ∧
      ReceiveKeeps h s t ∧ step t = .next t

/-- With a good header and too few bytes behind it, or a queue too short for them all, the reception has read the two header
bytes and waits for ever in R_WAIT_FRAME (43_frame_receiver.md R92, R98, R99; 70_reset_and_hazards.md R156, R160). -/
def Obligations.RecvWaitsForFrame : Prop :=
  ∀ (s : State) (h : Handle) (r l : Byte) (S : List Byte),
    Ready s → s.bound = true → Calm s.env → bufValid h s = true → stream s = r :: l :: S → 2 ≤ S.length →
    l.toNat ≤ 51 → 4 ≤ s.chan.capacity → S.length < l.toNat ∨ s.chan.capacity < l.toNat →
    ∃ t, exec (.recv h) s = .next t ∧ RestsIn .rWaitFrame s t ∧ stream t = S ∧ BuffersKept s t ∧
      ReceiveKeeps h s t ∧ step t = .next t

/-- The three-byte frame: alone it leaves the reception waiting; with a fourth byte it is received and that byte is left
(70_reset_and_hazards.md R155, 90_conflicts.md C2). -/
def Obligations.ThreeByteFrame : Prop :=
  ∀ (s : State) (h : Handle) (r : Byte) (rest : List Byte),
    Ready s → s.bound = true → Calm s.env → Roomy s → bufValid h s = true → (drawResize s).1 = true → r ≠ 0x00#8 →
    stream s = r :: 0x01#8 :: (r ^^^ 0x01#8) :: rest →
    ∃ t, exec (.recv h) s = .next t ∧
      (rest = [] → RestsIn .rWaitMin s t ∧ NothingRead s t) ∧
      (rest ≠ [] → Completed r .none t ∧ t.bufs.find h = some [] ∧ stream t = rest)

/-- A reception that rests in a wait goes on when the bytes it waits for arrive, and ends as it would have done had they
been there from the start (43_frame_receiver.md R99). That the very next step ends it is the model's choice (log entry 1). -/
def Obligations.RecvResumes : Prop :=
  ∀ (s t : State) (h : Handle) (f : Frame) (more rest : List Byte),
    Ready s → s.bound = true → Calm s.env → Roomy s → bufValid h s = true → (drawResize s).1 = true →
    f.wf = true → f.request ≠ 0x00#8 → stream s ++ more = frameBytes f ++ rest → 4 ≤ (stream s ++ more).length →
    exec (.recv h) s = .next t → t.busy = true →
    ∃ u, step (t.arriving more) = .next u ∧ Completed f.request .none u ∧ u.bufs.find h = some f.payload ∧
      stream u = rest ∧ OtherBuffersKept h s u ∧ NothingWritten s u

/-- A reception reports success only for a correct frame: whatever the stream holds and whatever the buffer answers, a
non-zero response code is the request byte of a frame at the head of the stream, whose payload is in the buffer and
which alone was consumed (10_state.md R21, 43_frame_receiver.md R95, R100). -/
def Obligations.RecvSoundness : Prop :=
  ∀ (s t : State) (h : Handle),
    Ready s → Calm s.env → exec (.recv h) s = .next t → t.st = .idle → t.result ≠ 0x00#8 →
    ∃ p : List Byte, p.length ≤ 50 ∧ stream s = frameBytes ⟨t.result, p⟩ ++ stream t ∧
      t.bufs.find h = some p ∧ t.cause = .none ∧ t.rx.len.toNat = p.length + 1

/-- What `RECV` leaves unchanged in every next state it answers, whatever the world outside does but assert a reset: the
sender's registers, the host's side, the transmit side, every byte of every other buffer (20_memory.md R30, 10_state.md R19,
43_frame_receiver.md R85). -/
def Obligations.RecvFrame : Prop :=
  ∀ (s t : State) (h : Handle), Ready s → NoReset s.env → exec (.recv h) s = .next t → ReceiveKeeps h s t

/-- A frame altered in transit with its length byte unchanged fails when an odd number of bits was altered in some bit
column, and is not told from a correct frame otherwise (41_checksum.md R79). -/
def Obligations.AlteredFrameDetected : Prop :=
  ∀ (s : State) (h : Handle) (f : Frame) (bs rest : List Byte),
    Ready s → s.bound = true → Calm s.env → Roomy s → bufValid h s = true → (drawResize s).1 = true → f.wf = true →
    bs.length = (frameBytes f).length → bs[1]? = some (frameLength f) → stream s = bs ++ rest →
    4 ≤ (stream s).length →
    ((∃ k, k < 8 ∧ columnFlips bs (frameBytes f) k % 2 = 1) →
      ∃ t, exec (.recv h) s = .next t ∧ Completed 0x00#8 .checksum t ∧ Drained s t) ∧
    ((∀ k, k < 8 → columnFlips bs (frameBytes f) k % 2 = 0) →
      ∀ r, bs[0]? = some r → r ≠ 0x00#8 →
        ∃ t, exec (.recv h) s = .next t ∧ Completed r .none t ∧ stream t = rest)

/-- One bit flipped in the request byte, a payload byte or the checksum byte is always detected
(43_frame_receiver.md R104, 90_conflicts.md C3). -/
def Obligations.SingleBitFlipDetected : Prop :=
  ∀ (s : State) (h : Handle) (f : Frame) (i k : Nat) (b : Byte) (rest : List Byte),
    Ready s → s.bound = true → Calm s.env → Roomy s → bufValid h s = true → (drawResize s).1 = true → f.wf = true →
    (frameBytes f)[i]? = some b → i ≠ 1 → k < 8 →
    stream s = (frameBytes f).set i (b ^^^ (1#8 <<< k)) ++ rest → 4 ≤ (stream s).length →
    ∃ t, exec (.recv h) s = .next t ∧ Completed 0x00#8 .checksum t ∧ Drained s t

/-- A frame whose length byte was changed in transit and that is alone in the stream: an invalid length fails, a longer one
hangs, and a shorter one succeeds, with a truncated payload, exactly when the byte taken as the checksum matches
(43_frame_receiver.md R102). -/
def Obligations.CorruptedLength : Prop :=
  ∀ (s : State) (h : Handle) (f : Frame) (l : Byte),
    Ready s → s.bound = true → Calm s.env → Roomy s → bufValid h s = true → (drawResize s).1 = true → f.wf = true →
    f.payload ≠ [] → f.request ≠ 0x00#8 → stream s = f.request :: l :: f.payload ++ [frameChecksum f] →
    (validLength l = false →
      ∃ t, exec (.recv h) s = .next t ∧ Completed 0x00#8 .badLength t ∧ Drained s t) ∧
    (validLength l = true → f.payload.length + 1 < l.toNat →
      ∃ t, exec (.recv h) s = .next t ∧ RestsIn .rWaitFrame s t ∧ step t = .next t) ∧
    (∀ b, validLength l = true → f.payload[l.toNat - 1]? = some b →
      (b = xor8 (f.request :: l :: f.payload.take (l.toNat - 1)) →
        ∃ t, exec (.recv h) s = .next t ∧ Completed f.request .none t ∧
          t.bufs.find h = some (f.payload.take (l.toNat - 1)) ∧
          (stream t).length = f.payload.length + 1 - l.toNat) ∧
      (b ≠ xor8 (f.request :: l :: f.payload.take (l.toNat - 1)) →
        ∃ t, exec (.recv h) s = .next t ∧ Completed 0x00#8 .checksum t ∧ Drained s t))

/-- With 53 bytes there or to come a reception always ends, whatever they are and whatever the buffer answers
(43_frame_receiver.md R101, 70_reset_and_hazards.md R171). -/
def Obligations.RecvFinishes : Prop :=
  ∀ (s : State) (h : Handle), Ready s → s.bound = true → Calm s.env → Roomy s → 53 ≤ (stream s).length →
    ∃ t r c, exec (.recv h) s = .next t ∧ Completed r c t

/-! ## The frame sender -/

/-- `SEND` of 1 to 50 bytes through a channel that takes them: the bytes written are exactly the frame, everything is flushed,
and the result is true (44_frame_sender.md R105, R107, R108). -/
def Obligations.SendSuccess : Prop :=
  ∀ (s : State) (req : Byte) (h : Handle) (d : List Byte),
    Ready s → s.bound = true → Calm s.env → Taking s → s.bufs.find h = some d → 1 ≤ d.length → d.length ≤ 50 →
    ∃ t, exec (.send req h) s = .next t ∧ Completed 0x01#8 .none t ∧
      t.chan.wireOut = s.chan.wireOut ++
        (req :: BitVec.ofNat 8 (d.length + 1) :: d ++ [xor8 (req :: BitVec.ofNat 8 (d.length + 1) :: d)]) ∧
      t.chan.txq = [] ∧
      t.tx = { h := h, req := req, n := BitVec.ofNat 8 d.length, len := BitVec.ofNat 8 (d.length + 1)
               ck := xor8 (req :: BitVec.ofNat 8 (d.length + 1) :: d), idx := BitVec.ofNat 6 d.length, ok := true } ∧
      SendKeeps s t

/-- `SEND` of no byte or of more than 50: the result is false and nothing is written, flushed or read
(44_frame_sender.md R106). -/
def Obligations.SendBadSize : Prop :=
  ∀ (s : State) (req : Byte) (h : Handle) (d : List Byte),
    Ready s → s.bound = true → Calm s.env → s.bufs.find h = some d → (d.length = 0 ∨ 51 ≤ d.length) →
    ∃ t, exec (.send req h) s = .next t ∧ Completed 0x00#8 .badSize t ∧ NothingWritten s t ∧
      (s.env = [] → t.chan = s.chan) ∧
      t.tx = { s.tx with h := h, req := req, n := BitVec.ofNat 8 (min d.length 255), idx := 0#6, ok := false } ∧
      SendKeeps s t

/-- Whatever the channel does, `SEND` has written a beginning of its frame and nothing else, and it never reports false
after writing part of it; everything but the sender's registers and the transmit side is unchanged
(44_frame_sender.md R106, R109; 70_reset_and_hazards.md R166). -/
def Obligations.SendNeverPartial : Prop :=
  ∀ (s t : State) (req : Byte) (h : Handle) (d : List Byte),
    Ready s → Calm s.env → s.bufs.find h = some d → exec (.send req h) s = .next t →
    SendKeeps s t ∧
    ∃ q, q <+: frameBytes ⟨req, d⟩ ∧ t.chan.wireOut = s.chan.wireOut ++ q ∧
      (t.st = .idle →
        (Completed 0x01#8 .none t ∧ q = frameBytes ⟨req, d⟩ ∧ 1 ≤ d.length ∧ d.length ≤ 50) ∨
        (Completed 0x00#8 .badSize t ∧ q = [] ∧ ¬ (1 ≤ d.length ∧ d.length ≤ 50))) ∧
      (t.st ≠ .idle → t.busy = true ∧ t.done = false ∧ t.result = s.result ∧ t.cause = s.cause)

/-- A channel that stops taking bytes, or never confirms the flush, hangs `SEND`: it stays where it is for ever
(70_reset_and_hazards.md R157). -/
def Obligations.SendHangs : Prop :=
  (∀ (s : State) (req : Byte) (h : Handle) (d : List Byte),
    Ready s → s.bound = true → s.env = [] → s.chan.ready = false → s.bufs.find h = some d → 1 ≤ d.length →
    d.length ≤ 50 →
    ∃ t, exec (.send req h) s = .next t ∧ RestsIn .sReq s t ∧ t.chan = s.chan ∧ SendKeeps s t ∧ step t = .next t) ∧
  (∀ (s : State) (b : Byte), s.env = [] → txPush s = some b → s.chan.ready = false → step s = .next s) ∧
  (∀ s : State, s.env = [] → s.st = .sFlush → canFlush s = false → step s = .next s)

/-- A `SEND` in any of its states ends with true, the whole frame on the wire and everything flushed, as soon as the channel
takes bytes again (44_frame_sender.md R109, R113; 70_reset_and_hazards.md R171). That one step ends it is the model's choice
(log entry 1). -/
def Obligations.SendFinishesOnceTaken : Prop :=
  ∀ s : State, Machine.Inv s → Calm s.env → Taking s →
    (s.st = .sReq ∨ s.st = .sLen ∨ s.st = .sPayload ∨ s.st = .sCksum ∨ s.st = .sFlush) →
    ∃ t d, step s = .next t ∧ Completed 0x01#8 .none t ∧ s.bufs.find s.tx.h = some d ∧
      frameBytes ⟨s.tx.req, d⟩ <:+ t.chan.wireOut ∧ s.chan.wireOut <+: t.chan.wireOut ∧ t.chan.txq = [] ∧
      SendKeeps s t

/-- A frame sent by one engine and delivered unchanged and alone to another is received there as it was sent
(43_frame_receiver.md R104, 20_memory.md R45; 95_test_vectors.md S1). The link, with its delivery between two steps, and that
each end takes one step, are the model's choices (log entries 19 and 1). -/
def Obligations.RoundTrip : Prop :=
  ∀ (l : Link) (req : Byte) (hp hr : Handle) (d : List Byte) (mh sh : List HostCall),
    Ready l.master → l.master.phase = .ready → l.master.bound = true → Calm l.master.env → Taking l.master →
    l.master.host = .command (encode (.send req hp)) :: mh → l.master.bufs.find hp = some d → 1 ≤ d.length →
    d.length ≤ 50 → req ≠ 0x00#8 → l.toSlave = l.master.chan.wireOut.length →
    Ready l.slave → l.slave.phase = .ready → l.slave.bound = true → Calm l.slave.env → Roomy l.slave → stream l.slave = [] →
    l.slave.host = .command (encode (.recv hr)) :: sh → bufValid hr l.slave = true →
    (drawResize l.slave).1 = true →
    ∃ m e, l.stepMaster = some m ∧ (m.deliverToSlave id).stepSlave = some e ∧
      Completed 0x01#8 .none m.master ∧ Completed req .none e.slave ∧ e.slave.bufs.find hr = some d ∧
      stream e.slave = []

/-! ## The session and the host's procedures -/

/-- `OPEN`: the session is open and everything that had come by the end of the drain is gone (40_session_control.md R70,
R72). That it is over in one step, with `phase` ready and `ret` unit, is the model's choice (log entry 13). -/
def Obligations.OpenDrains : Prop :=
  ∀ (s : State) (rest : List HostCall),
    Ready s → s.phase = .ready → s.bound = false → Calm s.env → 0 < s.chan.capacity →
    s.host = .openSession :: rest →
    ∃ t, step s = .next t ∧ t.bound = true ∧ t.phase = .ready ∧ t.ret = .unit ∧ t.host = rest ∧ Drained s t ∧
      t.chan.rxq = [] ∧ NothingWritten s t ∧ (s.env = [] → t.chan = { s.chan with rxq := [] }) ∧ EngineKept s t ∧
      BuffersKept s t

/-- `CLOSE`: the drain, then the flush, then the end of the session; while the flush is not confirmed the session stays open
(40_session_control.md R71). How many steps the procedure takes is the model's choice (log entry 13). -/
def Obligations.CloseDrainsAndFlushes : Prop :=
  ∀ (s : State) (rest : List HostCall),
    Ready s → s.phase = .ready → s.bound = true → Calm s.env → 0 < s.chan.capacity →
    s.host = .closeSession :: rest →
    ((Taking s ∨ s.env = [] ∧ canFlush s = true) →
      ∃ t, step s = .next t ∧ t.bound = false ∧ t.phase = .ready ∧ t.ret = .unit ∧ t.host = rest ∧ Drained s t ∧
        t.chan.txq = [] ∧ t.chan.wireOut = s.chan.wireOut ∧ EngineKept s t ∧ BuffersKept s t) ∧
    (s.env = [] → canFlush s = false →
      ∃ t, step s = .next t ∧ t.phase = .flushing ∧ t.bound = true ∧ t.chan = { s.chan with rxq := [] } ∧
        EngineKept s t ∧ BuffersKept s t ∧ step t = .next t)

/-- What is refused outside a session, and that a session is not opened twice (40_session_control.md R73;
93_implementation_defined.md U1, U2). -/
def Obligations.RefusedOutsideSession : Prop :=
  ∀ s : State, Ready s →
    (s.bound = false →
      (∀ h, exec (.recv h) s = .refused .noSession) ∧ (∀ req h, exec (.send req h) s = .refused .noSession) ∧
      hostClose s = .refused .noSession ∧ (∀ req val, hostSend1 req val s = .refused .noSession) ∧
      (∀ req hp hr, hostSendRecv req hp hr s = .refused .noSession) ∧
      (∀ req val hr, hostSend1Recv req val hr s = .refused .noSession)) ∧
    (s.bound = true → hostOpen s = .refused .sessionOpen ∧
      ∀ req h, bufValid h s = false → exec (.send req h) s = .refused .invalidHandle)

/-- `SEND1`: the allocation, the four bytes on the wire, the answer and the release of the transient buffer
(45_composite_operations.md R120). The handle that `allocate` grants is a free value; how many steps the procedure takes is
the model's choice (log entry 13), and that it names no buffer yet is the model's too (log entry 4). -/
def Obligations.Send1 : Prop :=
  ∀ (s : State) (req val : Byte) (rest : List HostCall),
    Ready s → s.phase = .ready → s.bound = true → Calm s.env → s.host = .send1 req val :: rest →
    ((bufAlloc 1 s).1 = none →
      ∃ t, step s = .next t ∧ t.ret = .bool false ∧ t.phase = .ready ∧ t.chan = s.chan ∧ t.bufs = s.bufs ∧
        t.host = rest ∧ EngineKept s t) ∧
    (∀ k, (bufAlloc 1 s).1 = some k →
      s.bufs.find k = none ∧
      (Taking s → ∃ t u, step s = .next t ∧ t.phase = .sent1 k ∧ step t = .next u ∧ u.ret = .bool true ∧ u.phase = .ready ∧
        u.chan.wireOut = s.chan.wireOut ++ [req, 0x02#8, val, req ^^^ 0x02#8 ^^^ val] ∧ u.chan.txq = [] ∧
        (∀ j, u.bufs.find j = s.bufs.find j) ∧ NothingRead s u ∧ u.bound = true ∧ u.host = rest))

/-- `SENDRECV`: the validity test before anything is written, the send, and the receive only if the send succeeds
(45_composite_operations.md R121). How many steps the procedure takes is the model's choice (log entry 13). -/
def Obligations.SendRecv : Prop :=
  ∀ (s : State) (req : Byte) (hp hr : Handle) (rest : List HostCall),
    Ready s → s.phase = .ready → s.bound = true → Calm s.env → s.host = .sendRecv req hp hr :: rest →
    (bufValid hr s = false →
      ∃ t, step s = .next t ∧ t.ret = .byte 0x00#8 ∧ t.phase = .ready ∧ t.chan = s.chan ∧ t.bufs = s.bufs ∧
        t.host = rest ∧ EngineKept s t) ∧
    (∀ d, bufValid hr s = true → s.bufs.find hp = some d → (d.length = 0 ∨ 51 ≤ d.length) →
      ∃ t u, step s = .next t ∧ step t = .next u ∧ u.ret = .byte 0x00#8 ∧ u.phase = .ready ∧ NothingRead s u ∧
        NothingWritten s u ∧ BuffersKept s u ∧ u.host = rest) ∧
    (∀ d, bufValid hr s = true → s.bufs.find hp = some d → 1 ≤ d.length → d.length ≤ 50 → Taking s →
      (∀ (f : Frame) (S : List Byte), f.wf = true → f.request ≠ 0x00#8 → stream s = frameBytes f ++ S →
        4 ≤ (stream s).length → (drawResize s).1 = true → Roomy s →
        ∃ t u v, step s = .next t ∧ step t = .next u ∧ step u = .next v ∧
          v.ret = .byte f.request ∧ v.phase = .ready ∧ v.chan.wireOut = s.chan.wireOut ++ frameBytes ⟨req, d⟩ ∧
          v.bufs.find hr = some f.payload ∧ OtherBuffersKept hr s v ∧ stream v = S ∧ v.host = rest) ∧
      ((stream s).length < 4 →
        ∃ t u, step s = .next t ∧ step t = .next u ∧ u.st = .rWaitMin ∧ u.phase = .received none ∧
          u.chan.wireOut = s.chan.wireOut ++ frameBytes ⟨req, d⟩ ∧ step u = .next u))

/-- `SEND1RECV`: the allocation first, then `SENDRECV`, and the transient buffer released whatever came of it: the response
handle is not valid, the receive fails, or it succeeds; the response handle may be the one that was just granted
(45_composite_operations.md R122). How many steps the procedure takes is the model's choice (log entry 13), and so is that
the handle granted named no buffer (log entry 4), and that the release of a handle that a failed resize has made not valid
changes nothing (log entry 22). -/
def Obligations.Send1Recv : Prop :=
  ∀ (s : State) (req val : Byte) (hr : Handle) (rest : List HostCall),
    Ready s → s.phase = .ready → s.bound = true → Calm s.env → s.host = .send1Recv req val hr :: rest →
    ((bufAlloc 1 s).1 = none →
      ∃ t, step s = .next t ∧ t.ret = .byte 0x00#8 ∧ t.phase = .ready ∧ t.chan = s.chan ∧ t.bufs = s.bufs ∧
        t.host = rest ∧ EngineKept s t) ∧
    (∀ k, (bufAlloc 1 s).1 = some k → s.bufs.find k = none ∧
      (bufValid hr s = false → hr ≠ k →
        ∃ t, step s = .next t ∧ t.ret = .byte 0x00#8 ∧ t.phase = .ready ∧ t.chan = s.chan ∧
          (∀ j, t.bufs.find j = s.bufs.find j) ∧ t.host = rest ∧ EngineKept s t) ∧
      (bufValid hr s = true ∨ hr = k → Taking s →
        ∃ t, step s = .next t ∧ t.st = .idle ∧ t.phase = .sent hr (some k) ∧ NothingRead s t ∧
          t.chan.wireOut = s.chan.wireOut ++ [req, 0x02#8, val, req ^^^ 0x02#8 ^^^ val] ∧
          t.bufs.find k = some [val] ∧ (∀ j, j ≠ k → t.bufs.find j = s.bufs.find j) ∧
          step t = exec (.recv hr) { t with phase := .received (some k) } ∧
          (∀ u, step t = .next u → u.st = .idle →
            ∃ v, step u = .next v ∧ v.ret = .byte u.result ∧ v.phase = .ready ∧ v.host = rest ∧
              v.bufs.find k = none ∧ (hr ≠ k → v.bufs.find hr = u.bufs.find hr) ∧
              (∀ j, j ≠ k → j ≠ hr → v.bufs.find j = s.bufs.find j) ∧ v.chan.wireOut = t.chan.wireOut) ∧
          ∀ (f : Frame) (S : List Byte) (a : List Bool), f.wf = true → f.request ≠ 0x00#8 → Roomy s →
            stream s = frameBytes f ++ S → 4 ≤ (stream s).length → s.answers.resizeOk = true :: a →
            ∃ u v, step t = .next u ∧ step u = .next v ∧ v.ret = .byte f.request ∧ v.phase = .ready ∧
              v.bufs.find k = none ∧ (hr ≠ k → v.bufs.find hr = some f.payload) ∧
              (∀ j, j ≠ k → j ≠ hr → v.bufs.find j = s.bufs.find j) ∧ stream v = S ∧ v.host = rest))

/-- A composite returns only with its transient buffer released, and frees no other; what it returns is what its last
operation reported (45_composite_operations.md R123; log entry 13). That the release of a handle which is not valid any more
changes nothing is the model's choice (log entry 22). -/
def Obligations.TransientReleased : Prop :=
  ∀ s : State, s.st = .idle →
    (∀ k, s.phase = .sent1 k →
      ∃ t, step s = .next t ∧ t.phase = .ready ∧ t.ret = .bool (decide (s.result ≠ 0x00#8)) ∧
        t.bufs.find k = none ∧ ∀ j, j ≠ k → t.bufs.find j = s.bufs.find j) ∧
    (∀ k, s.phase = .received (some k) →
      ∃ t, step s = .next t ∧ t.phase = .ready ∧ t.ret = .byte s.result ∧
        t.bufs.find k = none ∧ ∀ j, j ≠ k → t.bufs.find j = s.bufs.find j) ∧
    (∀ hr k, s.phase = .sent hr (some k) → s.result = 0x00#8 →
      ∃ t, step s = .next t ∧ t.phase = .ready ∧ t.ret = .byte 0x00#8 ∧
        t.bufs.find k = none ∧ ∀ j, j ≠ k → t.bufs.find j = s.bufs.find j) ∧
    (s.phase = .received none →
      ∃ t, step s = .next t ∧ t.phase = .ready ∧ t.ret = .byte s.result ∧ t.bufs = s.bufs) ∧
    (∀ hr, s.phase = .sent hr none → s.result = 0x00#8 →
      ∃ t, step s = .next t ∧ t.phase = .ready ∧ t.ret = .byte 0x00#8 ∧ t.bufs = s.bufs)

/-- The session bit changes only by `OPEN` and `CLOSE`, when no reset is asserted (10_state.md R16,
40_session_control.md R74). -/
def Obligations.BoundOnlyBySession : Prop :=
  ∀ s t : State, NoReset s.env → step s = .next t → t.bound ≠ s.bound →
    s.st = .idle ∧
    ((s.bound = false ∧ s.phase = .ready ∧ ∃ rest, s.host = .openSession :: rest) ∨
      (s.bound = true ∧ ((s.phase = .ready ∧ ∃ rest, s.host = .closeSession :: rest) ∨ s.phase = .closing ∨
        s.phase = .flushing)))

/-! ## The collaborators -/

/-- A byte written to a buffer is the byte read back, and no other byte changes (10_state.md R18, 20_memory.md R31). -/
def Obligations.BufferReadAfterWrite : Prop :=
  ∀ (s : State) (h : Handle) (i : Nat) (v : Byte),
    ((∃ t, bufSet h i v s = some t) ↔ ∃ d, s.bufs.find h = some d ∧ i < d.length) ∧
    ∀ t, bufSet h i v s = some t →
      bufGet h i t = some v ∧ (∀ j k, (j, k) ≠ (h, i) → t.bufs.byteAt j k = s.bufs.byteAt j k) ∧
        (∀ j, (t.bufs.find j).map List.length = (s.bufs.find j).map List.length) ∧
        (s.bufs.wf = true → t.bufs.wf = true)

/-- `allocate`, `resize` of a valid handle and `deallocate`: sizes afterwards, and that no other buffer changes (10_state.md
R18). That a granted handle named no buffer before is the model's choice, which R18 does not state (log entry 4), and so is
what `deallocate` does for a handle that is not valid (log entry 22). The contents after an allocation or a resize are free values
(log entry 3); the statement holds whatever they are. -/
def Obligations.AllocateResizeFree : Prop :=
  ∀ (s : State) (h : Handle) (n : Nat),
    ((bufAlloc n s).1 = none → (bufAlloc n s).2.bufs = s.bufs) ∧
    (∀ k, (bufAlloc n s).1 = some k →
      s.bufs.find k = none ∧ (∃ d, (bufAlloc n s).2.bufs.find k = some d ∧ d.length = n) ∧
        OtherBuffersKept k s (bufAlloc n s).2) ∧
    (bufValid h s = true →
      (bufResize h n s).1 = (drawResize s).1 ∧
      ((bufResize h n s).1 = true → ∃ d, (bufResize h n s).2.bufs.find h = some d ∧ d.length = n) ∧
      OtherBuffersKept h s (bufResize h n s).2) ∧
    bufValid h (bufFree h s) = false ∧ OtherBuffersKept h s (bufFree h s)

/-- The world outside only appends to the receive stream and only takes from the transmit queue, so a count of available
bytes does not fall while nothing is read (20_memory.md R44); in slots that come once each the stream as a whole stays the
same. -/
def Obligations.EnvironmentOnlyAppends : Prop :=
  ∀ s : State, NoReset s.env →
    s.chan.rxq <+: (envStep s).chan.rxq ∧ chanAvail s ≤ chanAvail (envStep s) ∧
      (Calm s.env → stream (envStep s) = stream s) ∧ (envStep s).chan.capacity = s.chan.capacity ∧
      NothingWritten s (envStep s) ∧ EngineKept s (envStep s) ∧ SameHost s (envStep s) ∧ BuffersKept s (envStep s)

/-- The ports say what the visit does: a byte is consumed exactly when `rx_pop` is driven, `tx_data` is what is appended to the
transmit stream, every buffer request is answered with what its handle, its argument and its byte name, and a buffer changes only
by a `resize` or a `set` on the port; the status ports are the status outputs, `cause` and `buf_op` with their codes (10_state.md
R23, 60_exceptions.md R132; log entry 18). -/
def Obligations.PortsMatchVisit : Prop :=
  (∀ s t : State, visit s = .go t →
    t.chan.rxq = (if rxPop s = true ∧ s.chan.queue ≠ [] then s.chan.rxq.tail else s.chan.rxq) ∧
    t.chan.wireOut = s.chan.wireOut ++ (txPush s).toList ∧
    (txPush s ≠ none → s.chan.ready = true) ∧
    (txFlush s = true → canFlush s = true ∧ t.chan.txq = []) ∧
    (txFlush s = false → t.chan.txq = s.chan.txq ++ (txPush s).toList) ∧
    (∀ q, bufRequest s = some q → BufAnswered q s t) ∧
    ((∀ q, bufRequest s = some q → q.op ≠ .set ∧ q.op ≠ .resize) → t.bufs = s.bufs)) ∧
  (∀ s : State,
    (outPorts s).cmdReady = (!s.busy) ∧ (outPorts s).busy = s.busy ∧ (outPorts s).done = s.done ∧
      (outPorts s).result = s.result ∧ (outPorts s).illegal = s.illegal ∧ (outPorts s).cause = s.cause.code) ∧
  [Cause.none, .invalidHandle, .badLength, .resizeFail, .checksum, .badSize, .zeroRequest, .illegalCmd].map Cause.code =
    [0#3, 1#3, 2#3, 3#3, 4#3, 5#3, 6#3, 7#3] ∧
  [BufOp.isValid, .size, .resize, .get, .set].map BufOp.code = [0#3, 1#3, 2#3, 3#3, 4#3]

/-! ## The machine as a whole -/

/-- The sequencer goes only where the table says, from every state (10_state.md R13, 43_frame_receiver.md R101,
44_frame_sender.md R113). -/
def Obligations.SequencerFollowsTable : Prop :=
  (∀ s t : State, visit s = .go t → t.st ∈ s.st.successors) ∧
  (∀ s t : State, visit s = .wait t → t.st = s.st) ∧
  (∀ a b : Seq, a.code = b.code → a = b) ∧ ∀ a : Seq, a.code.toNat < 20

/-- A command presented while the engine is busy is ignored (10_state.md R24). -/
def Obligations.BusyIgnoresCommand : Prop :=
  ∀ (i : Instr) (s : State), s.busy = true → exec i s = .next s

/-- When the host presents a command word that decodes to an operation, the step is that operation; in the middle of an
operation the step carries it on; and the word placed by `withFetchWord` is run by the very next step
(10_state.md R24; log entries 1 and 10). -/
def Obligations.StepRunsDecoded : Prop :=
  (∀ (s : State) (w : CmdWord) (i : Instr) (rest : List HostCall),
    s.st = .idle → s.phase = .ready → s.host = .command w :: rest → decode w = .op i →
    step s = exec i { s with host := rest }) ∧
  (∀ s : State, s.st ≠ .idle → step s = runEngine s) ∧
  (∀ (s : State) (nbits w : Nat) (i : Instr), decode (BitVec.ofNat 20 w) = .op i →
    step (s.withFetchWord nbits w) = exec i { s.withFetchWord nbits w with host := s.host } ∧
      Ready (s.withFetchWord nbits w) ∧ (s.withFetchWord nbits w).bound = true)

/-- The final state of a run: with nothing left for the host to ask, only the world outside moves; the engine rests and no
further operation starts (70_reset_and_hazards.md R172). -/
def Obligations.FinishedRests : Prop :=
  ∀ s : State, Finished s → Calm s.env →
    ∃ t, step s = .next t ∧ Finished t ∧ EngineKept s t ∧ SameHost s t ∧ BuffersKept s t ∧ stream t = stream s ∧
      NothingWritten s t ∧ (s.env = [] → t = s)

/-- The reset values (10_state.md R22) and the hardwired constants (R15). -/
def Obligations.ResetValues : Prop :=
  RegistersReset State.reset ∧ Ready State.reset ∧ cmdReady State.reset = true ∧
  Config.headerTag = 0b110#3 ∧ Config.roleBit = 4 ∧ Config.actionMask = 0x0F#8 ∧ Config.maxPayload = 50 ∧
  Config.minAvail = 4 ∧ Config.pollInterval = 25#5

/-- Reset at any time, in the middle of an operation or of a procedure too: every register of the engine takes its reset
value, `bound` is 0, and the collaborators keep what they held (70_reset_and_hazards.md R150, R152). That `illegal` is 0 is
the model's choice (log entry 9), and so is that the host's calls still to come and its scripted answers are kept (log entry
13); the slots are log entry 2. -/
def Obligations.ResetAtAnyTime : Prop :=
  (∀ s : State, RegistersReset (applyMove s .rst) ∧ SameOutside s (applyMove s .rst) ∧ (applyMove s .rst).illegal = false) ∧
  ∀ (s : State) (rest : List (List EnvMove)), s.env = [.rst] :: rest →
    (s.st ≠ .idle ∨ phaseActive s = true ∨ (s.phase = .ready ∧ s.host = [])) →
    ∃ t, step s = .next t ∧ RegistersReset t ∧ SameOutside s t ∧ t.env = rest

/-- Every step keeps the invariant, whatever the world outside does, resets among it. -/
def Obligations.InvKept : Prop :=
  ∀ s t : State, Machine.Inv s → step s = .next t → Machine.Inv t

/-- The invariant holds after reset. -/
def Obligations.InvReset : Prop := Machine.Inv State.reset

/-- From a state that meets the invariant an operation in progress is never refused: no index reaches the size and no handle
the operation uses has lost its buffer (20_memory.md R37). -/
def Obligations.ActiveNeverRefused : Prop :=
  ∀ s : State, Machine.Inv s → s.st ≠ .idle → ∃ t, step s = .next t

/-- Every byte the engine reads is there when it reads it, and every index it uses is below the size and at most 49
(20_memory.md R35, R37), in every state that meets the invariant. -/
def Obligations.AccessesCovered : Prop :=
  ∀ s : State, Machine.Inv s →
    (rxPop s = true → 0 < (rxAvail s).toNat ∧ ∃ b, rxData s = some b) ∧
    ∀ q, bufRequest s = some q → q.op = .get ∨ q.op = .set →
      ∃ d, s.bufs.find q.h = some d ∧ q.arg.toNat < d.length ∧ q.arg.toNat ≤ 49

/-- A host that meets its duties is never refused: the operation answers a next state, whatever the world outside does,
resets among it (60_exceptions.md R146). -/
def Obligations.DutiesSuffice : Prop :=
  ∀ (i : Instr) (s : State), Machine.Inv s → s.st = .idle → HostDuty i s →
    ∃ t, exec i s = .next t ∧ Machine.Inv t

/-- A drain that a peer keeps feeding does not end: a failed `RECV`, `OPEN` and `CLOSE` stay in it, and since what is
supposed holds again afterwards, for ever (40_session_control.md R72, 70_reset_and_hazards.md R164, 93 U16). That a step
makes a number of its rounds and the next step more is the model's choice (log entries 2 and 20). -/
def Obligations.FedDrainNeverEnds : Prop :=
  ∀ s : State, FedForEver s.env → 0 < s.chan.capacity →
    (s.st = .rCleanup → s.rx.res = 0x00#8 →
      ∃ t, step s = .next t ∧ t.st = .rCleanup ∧ EngineKept s t ∧ SameHost s t ∧
        t.env = s.env ∧ t.chan.capacity = s.chan.capacity ∧ NothingWritten s t ∧ BuffersKept s t) ∧
    (s.st = .idle → s.phase = .opening ∨ s.phase = .closing →
      ∃ t, step s = .next t ∧ SameHost s t ∧ EngineKept s t ∧ t.env = s.env ∧ t.chan.capacity = s.chan.capacity ∧
        NothingWritten s t ∧ BuffersKept s t) ∧
    (∀ rest, Ready s → s.phase = .ready →
      (s.bound = false → s.host = .openSession :: rest →
        ∃ t, step s = .next t ∧ t.phase = .opening ∧ t.bound = true ∧ t.host = rest ∧ t.ret = s.ret ∧ EngineKept s t ∧
          t.env = s.env ∧ t.chan.capacity = s.chan.capacity ∧ NothingWritten s t ∧ BuffersKept s t) ∧
      (s.bound = true → s.host = .closeSession :: rest →
        ∃ t, step s = .next t ∧ t.phase = .closing ∧ t.bound = true ∧ t.host = rest ∧ t.ret = s.ret ∧ EngineKept s t ∧
          t.env = s.env ∧ t.chan.capacity = s.chan.capacity ∧ NothingWritten s t ∧ BuffersKept s t))
end

