-- ==== Sys2Proof/Laws/Checksum.lean ====
section
/-! SUPPORT. The checksum as an XOR reduction: how the running form and the function agree (spec/41_checksum.md R75, R76). -/

namespace Sys2Proof.Machine

/-- A fold from any start value is the start value XOR the checksum (R76). -/
theorem foldl_foldByte (c : Byte) (s : List Byte) : s.foldl foldByte c = c ^^^ xor8 s := by
  unfold xor8
  induction s generalizing c with
  | nil => simp
  | cons b s ih =>
    rw [List.foldl_cons, List.foldl_cons, ih, ih (foldByte 0x00#8 b)]
    simp [foldByte, BitVec.xor_assoc]

@[simp] theorem xor8_nil : xor8 [] = 0x00#8 := rfl

theorem xor8_cons (b : Byte) (s : List Byte) : xor8 (b :: s) = b ^^^ xor8 s := by
  have h := foldl_foldByte (foldByte 0x00#8 b) s
  rwa [show foldByte 0x00#8 b ^^^ xor8 s = b ^^^ xor8 s by simp [foldByte]] at h

/-- Folding one more byte (R76). -/
theorem xor8_snoc (s : List Byte) (b : Byte) : xor8 (s ++ [b]) = foldByte (xor8 s) b := by
  simp [xor8]

/-- The checksum of a byte sequence that goes on (R76). -/
theorem xor8_split (s t : List Byte) : xor8 (s ++ t) = t.foldl foldByte (xor8 s) := by
  simp [xor8]

theorem take_succ_set {d : List Byte} {i : Nat} (h : i < d.length) (v : Byte) :
    (d.set i v).take (i + 1) = d.take i ++ [v] := by
  rw [List.take_add_one, List.take_set_of_le (Nat.le_refl i)]
  simp [h]

theorem frameBytes_length (f : Frame) : (frameBytes f).length = f.payload.length + 3 := by
  simp [frameBytes]

end Sys2Proof.Machine
end

