-- ==== Sys2Proof/Laws/Words.lean ====
section
/-! SUPPORT. The fields of a command word, the operands of an encoded operation, and small facts about the words the
machine computes with. -/

namespace Sys2Proof

theorem opField_cmdWord (op : BitVec 4) (a b : Byte) : opField (cmdWord op a b) = op := by
  ext i hi
  simp only [opField, cmdWord, BitVec.getElem_extractLsb']
  rw [BitVec.getLsbD_append, BitVec.getLsbD_append]
  have h8 : ¬ 16 + i < 8 := by omega
  have h16 : ¬ 16 + i - 8 < 8 := by omega
  simp [h8, h16, show 16 + i - 8 - 8 = i by omega, BitVec.getLsbD_eq_getElem hi]

theorem aField_cmdWord (op : BitVec 4) (a b : Byte) : aField (cmdWord op a b) = a := by
  ext i hi
  simp only [aField, cmdWord, BitVec.getElem_extractLsb']
  rw [BitVec.getLsbD_append, BitVec.getLsbD_append]
  have h8 : ¬ 8 + i < 8 := by omega
  simp [h8, hi]

theorem bField_cmdWord (op : BitVec 4) (a b : Byte) : bField (cmdWord op a b) = b := by
  ext i hi
  simp only [bField, cmdWord, BitVec.getElem_extractLsb']
  rw [BitVec.getLsbD_append, BitVec.getLsbD_append]
  simp [hi]

/-- A command word is its three fields. -/
theorem cmdWord_fields (w : CmdWord) : cmdWord (opField w) (aField w) (bField w) = w := by
  apply BitVec.eq_of_getLsbD_eq
  intro i hi
  unfold cmdWord opField aField bField
  rw [BitVec.getLsbD_append, BitVec.getLsbD_append]
  by_cases h8 : i < 8
  · simp [h8]
  · by_cases h16 : i - 8 < 8
    · simp [h8, h16, show 8 + (i - 8) = i by omega]
    · simp [h8, h16, show i - 8 - 8 < 4 by omega, show 16 + (i - 8 - 8) = i by omega]

@[simp] theorem opField_encode (i : Instr) : opField (encode i) = opcode i := opField_cmdWord ..

@[simp] theorem aField_encode (i : Instr) : aField (encode i) = operandA i := aField_cmdWord ..

@[simp] theorem bField_encode (i : Instr) : bField (encode i) = operandB i := bField_cmdWord ..

/-- The bits of field `a` that an operation uses. -/
def usedA : Instr → Byte
  | .encode _ _ => 1#8
  | .cksum _ => 0#8
  | .recv _ => 0#8
  | .send _ _ => 0xFF#8

/-- Masking a word with the bits an operation uses masks its field `a`. -/
theorem usedBits_word (w : CmdWord) (i : Instr) :
    w &&& usedBits i = cmdWord (opField w) (aField w &&& usedA i) (bField w) := by
  have key : ∀ (o : BitVec 4) (a b m : Byte), cmdWord o a b &&& cmdWord 0xF#4 m 0xFF#8 = cmdWord o (a &&& m) b := by
    intro o a b m
    unfold cmdWord
    rw [BitVec.and_append, BitVec.and_append]
    congr 1
    · congr 1
      simpa using BitVec.and_allOnes (x := o)
    · simpa using BitVec.and_allOnes (x := b)
  have hw := cmdWord_fields w
  cases i
  all_goals
    conv => lhs; rw [← hw]
    simp only [usedBits]
  · rw [show (0xF01FF#20) = cmdWord 0xF#4 1#8 0xFF#8 by decide]; exact key ..
  · rw [show (0xF00FF#20) = cmdWord 0xF#4 0#8 0xFF#8 by decide]; exact key ..
  · rw [show (0xF00FF#20) = cmdWord 0xF#4 0#8 0xFF#8 by decide]; exact key ..
  · rw [show (0xFFFFF#20) = cmdWord 0xF#4 0xFF#8 0xFF#8 by decide]; exact key ..

theorem cmdWord_inj {o o' : BitVec 4} {a a' b b' : Byte} (h : cmdWord o a b = cmdWord o' a' b') :
    o = o' ∧ a = a' ∧ b = b' := by
  have h1 := congrArg opField h
  have h2 := congrArg aField h
  have h3 := congrArg bField h
  rw [opField_cmdWord, opField_cmdWord] at h1
  rw [aField_cmdWord, aField_cmdWord] at h2
  rw [bField_cmdWord, bField_cmdWord] at h3
  exact ⟨h1, h2, h3⟩

/-- Bit 0 of field `a` alone is the role bit's field. -/
theorem and_one (a : Byte) : a &&& 1#8 = (0#7 ++ BitVec.ofBool (a.getLsbD 0) : BitVec 8) := by
  revert a; decide

theorem roleBit_operandA (s : Bool) : ((0#7 ++ BitVec.ofBool s : BitVec 8)).getLsbD 0 = s := by
  cases s <;> decide

end Sys2Proof

namespace Sys2Proof.Machine

@[simp] theorem handleOf_encode (i : Instr) : handleOf (encode i) = operandB i := bField_encode i

@[simp] theorem requestOf_encode (i : Instr) : requestOf (encode i) = operandA i := aField_encode i

@[simp] theorem actionOf_encode (i : Instr) : actionOf (encode i) = operandB i := bField_encode i

@[simp] theorem isSlaveOf_encode (s : Bool) (act : Byte) : isSlaveOf (encode (.encode s act)) = s := by
  unfold isSlaveOf
  rw [aField_encode]
  exact roleBit_operandA s

/-- A payload index counts up without wrapping (10_state.md R13). -/
theorem idx_succ {i : BitVec 6} (h : i.toNat < 50) : (i + 1#6).toNat = i.toNat + 1 := by
  rw [BitVec.toNat_add]
  simp
  omega

/-- The length byte on send has no carry (30_encoding.md R60). -/
theorem sendLength_toNat {n : Byte} (h : n.toNat ≤ 50) : (sendLength n).toNat = n.toNat + 1 := by
  unfold sendLength
  rw [BitVec.toNat_add]
  simp
  omega

/-- A buffer of at most 50 bytes reports its size exactly (70_reset_and_hazards.md R169). -/
theorem sizeCount_toNat {d : List Byte} (h : d.length ≤ 255) : (sizeCount d).toNat = d.length := by
  unfold sizeCount Config.countMax
  rw [BitVec.toNat_ofNat, Nat.min_eq_left h]
  omega

/-- A longer buffer reports at least 51, so the sender rejects it (R169). -/
theorem sizeCount_large {d : List Byte} (h : 50 < d.length) : 50 < (sizeCount d).toNat := by
  unfold sizeCount Config.countMax
  rw [BitVec.toNat_ofNat]
  omega

theorem validSize_iff (n : Byte) : validSize n = true ↔ 1 ≤ n.toNat ∧ n.toNat ≤ 50 := by
  unfold validSize
  rw [Bool.and_eq_true, decide_eq_true_iff, decide_eq_true_iff]
  rfl

theorem validLength_iff (n : Byte) : validLength n = true ↔ 1 ≤ n.toNat ∧ n.toNat ≤ 51 := by
  unfold validLength
  rw [Bool.and_eq_true, decide_eq_true_iff, decide_eq_true_iff]
  rfl

theorem frameLength_toNat {d : List Byte} (h : d.length ≤ 254) :
    (BitVec.ofNat 8 (d.length + 1)).toNat = d.length + 1 := by
  rw [BitVec.toNat_ofNat]
  omega

/-- The count the channel reports and the number of bytes that are there answer every test of the engine alike
(R169). -/
theorem le_chanAvail {n : Nat} (h : n ≤ 255) (s : State) : n ≤ chanAvail s ↔ n ≤ s.chan.queue.length := by
  unfold chanAvail Config.countMax
  omega

theorem queue_length (c : Chan) : c.queue.length = min c.capacity c.rxq.length := List.length_take

/-- A read that a byte in the queue covers takes the first byte of the receive stream (R35). -/
theorem chanRead_covered {s : State} (h : 1 ≤ s.chan.queue.length) :
    ∃ b q, s.chan.rxq = b :: q ∧ s.chan.queue.head? = some b ∧
      chanRead s = (b, { s with chan := { s.chan with rxq := q } }) ∧
      s.chan.queue.length ≤ ({ s.chan with rxq := q } : Chan).queue.length + 1 := by
  have hq := queue_length s.chan
  cases hr : s.chan.rxq with
  | nil => rw [hr] at hq; simp at hq; rw [hq] at h; simp at h
  | cons b q =>
    obtain ⟨n, hn⟩ : ∃ n, s.chan.capacity = n + 1 := ⟨s.chan.capacity - 1, by rw [hq] at h; omega⟩
    have hc : s.chan.queue = b :: q.take n := by unfold Chan.queue; rw [hr, hn, List.take_succ_cons]
    refine ⟨b, q, rfl, by rw [hc]; rfl, ?_, ?_⟩
    · unfold chanRead
      rw [hc]
      simp [hr]
    · rw [queue_length, queue_length, hr]
      simp only [List.length_cons]
      omega

/-- With room in the queue, an empty queue is an empty receive stream. -/
theorem rxq_nil_of_queue {c : Chan} (hc : 0 < c.capacity) (h : ¬ 1 ≤ c.queue.length) : c.rxq = [] := by
  rw [queue_length] at h
  exact List.eq_nil_of_length_eq_zero (by omega)

end Sys2Proof.Machine
end

