-- ==== Sys2Proof/Laws/Env.lean ====
section
/-! SUPPORT. What the moves of the world outside can do: in calm slots only the channel changes, nothing is taken from the
receive stream, and nothing is written to the wire. -/

namespace Sys2Proof.Machine

/-- The channel after the moves of the next slot. -/
def slotChan (s : State) : Chan := (s.env.headD []).foldl (fun c m => m.onChan c) s.chan

theorem foldl_applyMove_calm (slot : List EnvMove) (h : EnvMove.rst ∉ slot) (s : State) :
    slot.foldl applyMove s = { s with chan := slot.foldl (fun c m => m.onChan c) s.chan } := by
  induction slot generalizing s with
  | nil => rfl
  | cons m slot ih =>
    have hm : m ≠ .rst := fun hm => h (hm ▸ List.mem_cons_self)
    have hs : EnvMove.rst ∉ slot := fun hs => h (List.mem_cons_of_mem _ hs)
    rw [List.foldl_cons, ih hs]
    cases m <;> first | rfl | exact absurd rfl hm

theorem laterSlots_suffix (env : List (List EnvMove)) : laterSlots env <:+ env := by
  unfold laterSlots
  split
  · exact List.suffix_rfl
  · split
    · exact List.suffix_rfl
    · exact List.suffix_cons _ _

theorem laterSlots_calm {env : List (List EnvMove)} (h : Calm env) : laterSlots env = env.tail := by
  unfold laterSlots
  split
  · rfl
  · rename_i slot rest
    rw [if_neg (h slot List.mem_cons_self).2]
    rfl

/-- With no slot to come the world outside does nothing. -/
theorem envStep_of_env_nil {s : State} (h : s.env = []) : envStep s = s := by
  unfold envStep
  rw [h]
  show ({ s with env := [] } : State) = s
  rw [← h]

/-- The one induction over the moves of a slot: what each move keeps, the slot keeps. -/
theorem envStep_keeps {P : State → Prop} {s : State} (h0 : P { s with env := laterSlots s.env })
    (hm : ∀ u m, P u → P (applyMove u m)) : P (envStep s) := by
  unfold envStep
  generalize ({ s with env := laterSlots s.env } : State) = u at h0
  induction s.env.headD [] generalizing u with
  | nil => exact h0
  | cons m slot ih => rw [List.foldl_cons]; exact ih _ (hm u m h0)

/-- Everything a slot without a reset can do. -/
theorem envStep_noReset {s : State} (h : NoReset s.env) :
    envStep s = { s with env := laterSlots s.env, chan := slotChan s } := by
  unfold envStep slotChan
  refine foldl_applyMove_calm _ ?_ _
  cases hs : s.env with
  | nil => simp
  | cons slot rest => exact h slot (by rw [hs]; exact List.mem_cons_self)

theorem Calm.noReset {env : List (List EnvMove)} (h : Calm env) : NoReset env := fun slot hs => (h slot hs).1

theorem NoReset.later {env : List (List EnvMove)} (h : NoReset env) : NoReset (laterSlots env) :=
  fun slot hs => h slot ((laterSlots_suffix env).subset hs)

/-- Everything a calm slot can do. -/
theorem envStep_calm {s : State} (h : Calm s.env) : envStep s = { s with env := s.env.tail, chan := slotChan s } := by
  rw [envStep_noReset h.noReset, laterSlots_calm h]

theorem Calm.tail {env : List (List EnvMove)} (h : Calm env) : Calm env.tail :=
  fun slot hs => h slot (List.mem_of_mem_tail hs)

theorem Calm.nil : Calm [] := by simp [Calm]

theorem Willing.tail {env : List (List EnvMove)} (h : Willing env) : Willing env.tail :=
  fun slot hs => h slot (List.mem_of_mem_tail hs)

theorem Willing.nil : Willing [] := by simp [Willing]

@[simp] theorem arrivals_nil : arrivals [] = [] := rfl

theorem arrivals_cons (slot : List EnvMove) (rest : List (List EnvMove)) :
    arrivals (slot :: rest) = slot.filterMap EnvMove.byte? ++ arrivals rest := by
  simp [arrivals, List.filterMap_append]

/-- A move of the world outside adds the byte it delivers and nothing else to the receive stream. -/
theorem onChan_rxq (m : EnvMove) (c : Chan) : (m.onChan c).rxq = c.rxq ++ (m.byte?).toList := by
  cases m <;> simp [EnvMove.onChan, EnvMove.byte?]

theorem foldl_onChan_rxq (slot : List EnvMove) (c : Chan) :
    (slot.foldl (fun c m => m.onChan c) c).rxq = c.rxq ++ slot.filterMap EnvMove.byte? := by
  induction slot generalizing c with
  | nil => simp
  | cons m slot ih =>
    rw [List.foldl_cons, ih, onChan_rxq, List.append_assoc, List.filterMap_cons]
    cases m.byte? <;> rfl

theorem onChan_wireOut (m : EnvMove) (c : Chan) : (m.onChan c).wireOut = c.wireOut := by
  cases m <;> rfl

theorem foldl_onChan_wireOut (slot : List EnvMove) (c : Chan) :
    (slot.foldl (fun c m => m.onChan c) c).wireOut = c.wireOut := by
  induction slot generalizing c with
  | nil => rfl
  | cons m slot ih => rw [List.foldl_cons, ih, onChan_wireOut]

theorem onChan_txq (m : EnvMove) (c : Chan) : (m.onChan c).txq <:+ c.txq := by
  cases m <;> simp [EnvMove.onChan, List.tail_suffix]

theorem foldl_onChan_txq (slot : List EnvMove) (c : Chan) :
    (slot.foldl (fun c m => m.onChan c) c).txq <:+ c.txq := by
  induction slot generalizing c with
  | nil => exact List.suffix_rfl
  | cons m slot ih => exact (ih _).trans (onChan_txq m c)

/-- The receive queue only grows by a move of the world outside (20_memory.md R44). -/
theorem onChan_queue (m : EnvMove) (c : Chan) : c.queue.length ≤ (m.onChan c).queue.length := by
  have hc : (m.onChan c).capacity = c.capacity := by cases m <;> rfl
  have hl := congrArg List.length (onChan_rxq m c)
  rw [List.length_append] at hl
  rw [queue_length, queue_length, hc]
  omega

theorem foldl_onChan_capacity (slot : List EnvMove) (c : Chan) :
    (slot.foldl (fun c m => m.onChan c) c).capacity = c.capacity := by
  induction slot generalizing c with
  | nil => rfl
  | cons m slot ih => rw [List.foldl_cons, ih]; cases m <;> rfl

@[simp] theorem slotChan_capacity (s : State) : (slotChan s).capacity = s.chan.capacity := foldl_onChan_capacity _ _

@[simp] theorem slotChan_wireOut (s : State) : (slotChan s).wireOut = s.chan.wireOut := foldl_onChan_wireOut _ _

theorem slotChan_txq (s : State) : (slotChan s).txq <:+ s.chan.txq := foldl_onChan_txq _ _

/-- The bytes that are there and the bytes that will arrive are the same before and after a slot. -/
theorem slotChan_stream (s : State) : (slotChan s).rxq ++ arrivals s.env.tail = stream s := by
  unfold slotChan stream
  rw [foldl_onChan_rxq]
  cases s.env with
  | nil => simp
  | cons slot rest => simp [arrivals_cons]

/-- Nothing is taken from the receive stream by the world outside (20_memory.md R44). -/
theorem slotChan_rxq_prefix (s : State) : s.chan.rxq <+: (slotChan s).rxq := by
  unfold slotChan
  rw [foldl_onChan_rxq]
  exact List.prefix_append _ _

theorem slotChan_queue_length (s : State) : s.chan.queue.length ≤ (slotChan s).queue.length := by
  have := (slotChan_rxq_prefix s).length_le
  rw [queue_length, queue_length, slotChan_capacity]
  omega

theorem slotChan_of_env_nil {s : State} (h : s.env = []) : slotChan s = s.chan := by simp [slotChan, h]

theorem slotChan_willing {s : State} (hw : Willing s.env) (hr : s.chan.ready = true) (hl : s.chan.lineUp = true) :
    (slotChan s).ready = true ∧ (slotChan s).lineUp = true := by
  unfold slotChan
  cases hs : s.env with
  | nil => exact ⟨hr, hl⟩
  | cons slot rest =>
    have := hw slot (by rw [hs]; exact List.mem_cons_self)
    rw [List.headD_cons]
    clear hs hw
    generalize s.chan = c at hr hl
    induction slot generalizing c with
    | nil => exact ⟨hr, hl⟩
    | cons m slot ih =>
      simp only [List.mem_cons, not_or] at this
      refine ih ⟨this.1.2, this.2.2⟩ _ ?_ ?_
      · cases m with
        | ready v => cases v with
          | false => exact absurd rfl this.1.1
          | true => rfl
        | arrive b => exact hr
        | carry => exact hr
        | line v => exact hr
        | rst => exact hr
        | again => exact hr
      · cases m with
        | line v => cases v with
          | false => exact absurd rfl this.2.1
          | true => rfl
        | arrive b => exact hl
        | carry => exact hl
        | ready v => exact hl
        | rst => exact hl
        | again => exact hl

theorem visitBudget_ge (s : State) : s.env.length + (stream s).length + 200 ≤ visitBudget s := by
  unfold visitBudget stream arrivals
  have := List.length_filterMap_le EnvMove.byte? s.env.flatten
  rw [List.length_append]
  omega

end Sys2Proof.Machine
end

