-- ==== Sys2Proof/Laws/Memory.lean ====
section
/-! SUPPORT. The laws of the buffer map: a read after a write, every other buffer unchanged, and that every operation
keeps the canonical form. -/

namespace Sys2Proof.Machine

theorem Memory.find_put (m : Memory) (h k : Handle) (d : List Byte) :
    (m.put h d).find k = if h = k then some d else m.find k := by
  induction m with
  | nil => simp [Memory.put, Memory.find]
  | cons e m ih =>
    obtain ⟨j, e⟩ := e
    unfold Memory.put
    split
    · simp [Memory.find]
    · split
      · rename_i h1 h2
        subst h2
        by_cases hk : h = k <;> simp [Memory.find, hk]
      · rename_i h1 h2
        by_cases hj : j = k
        · subst hj; simp [Memory.find, h2]
        · simp [Memory.find, hj, ih]

@[simp] theorem Memory.find_put_same (m : Memory) (h : Handle) (d : List Byte) :
    (m.put h d).find h = some d := by simp [Memory.find_put]

theorem Memory.find_put_of_ne (m : Memory) {h k : Handle} (d : List Byte) (hk : h ≠ k) :
    (m.put h d).find k = m.find k := by simp [Memory.find_put, hk]

theorem Memory.find_erase (m : Memory) (h k : Handle) :
    (m.erase h).find k = if h = k then none else m.find k := by
  induction m with
  | nil => simp [Memory.erase, Memory.find]
  | cons e m ih =>
    obtain ⟨j, e⟩ := e
    unfold Memory.erase at *
    rw [List.filter_cons]
    by_cases hj : j = h
    · subst hj
      by_cases hk : j = k
      · simpa [hk] using ih
      · simpa [Memory.find, hk] using ih
    · have hne : decide (j ≠ h) = true := by simpa using hj
      rw [if_pos hne]
      by_cases hjk : j = k
      · subst hjk
        simp [Memory.find, Ne.symm hj]
      · simpa [Memory.find, hjk] using ih

theorem Memory.mem_put {m : Memory} {h : Handle} {d : List Byte} {e : Handle × List Byte}
    (he : e ∈ m.put h d) : e.1 = h ∨ e ∈ m := by
  induction m with
  | nil => simp [Memory.put] at he; simp [he]
  | cons x m ih =>
    obtain ⟨j, x⟩ := x
    unfold Memory.put at he
    split at he
    · rcases List.mem_cons.1 he with rfl | he
      · simp
      · exact .inr he
    · split at he
      · rcases List.mem_cons.1 he with rfl | he
        · simp
        · exact .inr (List.mem_cons_of_mem _ he)
      · rcases List.mem_cons.1 he with rfl | he
        · simp
        · exact (ih he).imp id (List.mem_cons_of_mem _)

theorem Memory.wf_cons {k : Handle} {d : List Byte} {m : Memory} :
    Memory.wf ((k, d) :: m) = true ↔ (∀ e ∈ m, k < e.1) ∧ Memory.wf m = true := by
  simp [Memory.wf]

/-- Writing a buffer keeps the canonical form. -/
theorem Memory.wf_put {m : Memory} (hm : m.wf = true) (h : Handle) (d : List Byte) : (m.put h d).wf = true := by
  induction m with
  | nil => simp [Memory.put, Memory.wf]
  | cons e m ih =>
    obtain ⟨j, e⟩ := e
    obtain ⟨hlt, hwf⟩ := Memory.wf_cons.1 hm
    unfold Memory.put
    split
    · rename_i hj
      refine Memory.wf_cons.2 ⟨fun x hx => ?_, hm⟩
      rcases List.mem_cons.1 hx with rfl | hx
      · exact hj
      · exact BitVec.lt_trans hj (hlt x hx)
    · split
      · rename_i hj
        subst hj
        exact Memory.wf_cons.2 ⟨hlt, hwf⟩
      · rename_i h1 h2
        refine Memory.wf_cons.2 ⟨fun x hx => ?_, ih hwf⟩
        rcases Memory.mem_put hx with hx | hx
        · rw [hx]
          rw [BitVec.lt_def] at *
          have : h.toNat ≠ j.toNat := fun hh => h2 (BitVec.eq_of_toNat_eq hh)
          omega
        · exact hlt x hx

/-- Releasing a buffer keeps the canonical form. -/
theorem Memory.wf_erase {m : Memory} (hm : m.wf = true) (h : Handle) : (m.erase h).wf = true := by
  induction m with
  | nil => simp [Memory.erase, Memory.wf]
  | cons e m ih =>
    obtain ⟨j, e⟩ := e
    obtain ⟨hlt, hwf⟩ := Memory.wf_cons.1 hm
    have ih := ih hwf
    unfold Memory.erase at *
    rw [List.filter_cons]
    split
    · exact Memory.wf_cons.2 ⟨fun x hx => hlt x (List.mem_of_mem_filter hx), ih⟩
    · exact ih

theorem Memory.wf_assign {m : Memory} (hm : m.wf = true) (h : Handle) (o : Option (List Byte)) :
    (m.assign h o).wf = true := by
  cases o with
  | none => exact Memory.wf_erase hm h
  | some d => exact Memory.wf_put hm h d

theorem Memory.find_assign_of_ne (m : Memory) {h k : Handle} (o : Option (List Byte)) (hk : h ≠ k) :
    (m.assign h o).find k = m.find k := by
  cases o with
  | none => simp [Memory.assign, Memory.find_erase, hk]
  | some d => exact Memory.find_put_of_ne m d hk

/-- A buffer written twice holds the second write. -/
theorem Memory.put_put (m : Memory) (hm : m.wf = true) (h : Handle) (d e : List Byte) :
    (m.put h d).put h e = m.put h e := by
  induction m with
  | nil => simp [Memory.put]
  | cons x m ih =>
    obtain ⟨j, x⟩ := x
    obtain ⟨hlt, hwf⟩ := Memory.wf_cons.1 hm
    by_cases h1 : h < j
    · simp [Memory.put, h1]
    · by_cases h2 : h = j
      · subst h2; simp [Memory.put]
      · simp [Memory.put, h1, h2, ih hwf]

theorem bufValid_iff (h : Handle) (s : State) : bufValid h s = true ↔ ∃ d, s.bufs.find h = some d :=
  Option.isSome_iff_exists

@[simp] theorem length_freeBytes (k n : Nat) : (freeBytes k n).length = n := by simp [freeBytes]

/-- Everything `set` can do. -/
theorem bufSet_eq_some {h : Handle} {i : Nat} {v : Byte} {s t : State} :
    bufSet h i v s = some t ↔
      ∃ d, s.bufs.find h = some d ∧ i < d.length ∧ t = { s with bufs := s.bufs.put h (d.set i v) } := by
  unfold bufSet
  split
  · rename_i d hd
    simp [hd]
    exact fun _ => eq_comm
  · rename_i hd
    simp [hd]

/-- Everything `resize` can do: the answer drawn, and the buffer it names with its new size and free bytes, or with a
free record. -/
theorem bufResize_cases (h : Handle) (n : Nat) (s : State) :
    ∃ a c, (bufResize h n s = (true, { s with
        bufs := s.bufs.put h (freeBytes c n), answers := a, freeCtr := c + n }) ∧ (drawResize s).1 = true) ∨
      (bufResize h n s = (false, { s with
        bufs := s.bufs.assign h (Config.failedResize c), answers := a, freeCtr := c + 1 }) ∧
        (drawResize s).1 = false) := by
  unfold bufResize drawResize
  cases ha : s.answers.resizeOk with
  | nil => cases hb : Config.resizeAnswer s.freeCtr <;> exact ⟨s.answers, s.freeCtr + 1, by simp⟩
  | cons b rest =>
    cases b <;> exact ⟨{ s.answers with resizeOk := rest }, s.freeCtr, by simp⟩

/-- A handle that `allocate` grants named no buffer before. -/
theorem freshFrom_find {m : Memory} {h k : Handle} {fuel : Nat} (hk : freshFrom m h fuel = some k) :
    m.find k = none := by
  induction fuel generalizing h with
  | zero => simp [freshFrom] at hk
  | succ n ih =>
    unfold freshFrom at hk
    split at hk
    · exact ih hk
    · rename_i hn
      obtain rfl := Option.some.inj hk
      simpa using hn

/-- Everything `allocate` can do: it fails and changes no buffer, or it grants a handle that named no buffer, with a
buffer of the size asked for and free bytes. -/
theorem bufAlloc_cases (n : Nat) (s : State) :
    ∃ a c, bufAlloc n s = (none, { s with answers := a, freeCtr := c }) ∨
      ∃ k, s.bufs.find k = none ∧
        bufAlloc n s = (some k, { s with
          bufs := s.bufs.put k (freeBytes c n), answers := a, freeCtr := c + n }) := by
  unfold bufAlloc drawAlloc
  cases ha : s.answers.alloc with
  | nil =>
    refine ⟨s.answers, s.freeCtr + 1, ?_⟩
    cases hb : Config.allocAnswer s.freeCtr with
    | none => simp
    | some h =>
      cases hf : freshFrom s.bufs h 256 with
      | none => simp [hf]
      | some k => exact .inr ⟨k, freshFrom_find hf, by simp [hf]⟩
  | cons b rest =>
    refine ⟨{ s.answers with alloc := rest }, s.freeCtr, ?_⟩
    cases b with
    | none => simp
    | some h =>
      cases hf : freshFrom s.bufs h 256 with
      | none => simp [hf]
      | some k => exact .inr ⟨k, freshFrom_find hf, by simp [hf]⟩

/-- Every operation of the buffer collaborator keeps the canonical form. -/
theorem bufSet_keeps_wf {h : Handle} {i : Nat} {v : Byte} {s t : State} (hs : s.bufs.wf = true)
    (ht : bufSet h i v s = some t) : t.bufs.wf = true := by
  obtain ⟨d, -, -, rfl⟩ := bufSet_eq_some.1 ht
  exact Memory.wf_put hs _ _

theorem bufResize_keeps_wf (h : Handle) (n : Nat) {s : State} (hs : s.bufs.wf = true) :
    (bufResize h n s).2.bufs.wf = true := by
  obtain ⟨a, c, ⟨hr, -⟩ | ⟨hr, -⟩⟩ := bufResize_cases h n s <;> rw [hr]
  · exact Memory.wf_put hs _ _
  · exact Memory.wf_assign hs _ _

theorem bufAlloc_keeps_wf (n : Nat) {s : State} (hs : s.bufs.wf = true) : (bufAlloc n s).2.bufs.wf = true := by
  obtain ⟨a, c, hr | ⟨k, -, hr⟩⟩ := bufAlloc_cases n s <;> rw [hr]
  · exact hs
  · exact Memory.wf_put hs _ _

theorem bufFree_keeps_wf (h : Handle) {s : State} (hs : s.bufs.wf = true) : (bufFree h s).bufs.wf = true :=
  Memory.wf_erase hs h

theorem reset_memory_wf : State.reset.bufs.wf = true := rfl

end Sys2Proof.Machine
end

