-- ==== Sys2Proof/Laws/State.lean ====
section
/-! SUPPORT. One lemma for each field after each update of the state, true by rfl, so that no later proof unfolds a record
update. -/

namespace Sys2Proof.Machine

@[simp] theorem accept_st (w : CmdWord) (f : Seq) (s : State) : (accept w f s).st = f := rfl
@[simp] theorem accept_cmd (w : CmdWord) (f : Seq) (s : State) : (accept w f s).cmd = w := rfl
@[simp] theorem accept_rx (w : CmdWord) (f : Seq) (s : State) : (accept w f s).rx = s.rx := rfl
@[simp] theorem accept_tx (w : CmdWord) (f : Seq) (s : State) : (accept w f s).tx = s.tx := rfl
@[simp] theorem accept_pollT (w : CmdWord) (f : Seq) (s : State) : (accept w f s).pollT = s.pollT := rfl
@[simp] theorem accept_busy (w : CmdWord) (f : Seq) (s : State) : (accept w f s).busy = true := rfl
@[simp] theorem accept_done (w : CmdWord) (f : Seq) (s : State) : (accept w f s).done = false := rfl
@[simp] theorem accept_result (w : CmdWord) (f : Seq) (s : State) : (accept w f s).result = s.result := rfl
@[simp] theorem accept_cause (w : CmdWord) (f : Seq) (s : State) : (accept w f s).cause = s.cause := rfl
@[simp] theorem accept_illegal (w : CmdWord) (f : Seq) (s : State) : (accept w f s).illegal = false := rfl
@[simp] theorem accept_failCause (w : CmdWord) (f : Seq) (s : State) : (accept w f s).failCause = s.failCause := rfl
@[simp] theorem accept_kSize (w : CmdWord) (f : Seq) (s : State) : (accept w f s).kSize = s.kSize := rfl
@[simp] theorem accept_bound (w : CmdWord) (f : Seq) (s : State) : (accept w f s).bound = s.bound := rfl
@[simp] theorem accept_chan (w : CmdWord) (f : Seq) (s : State) : (accept w f s).chan = s.chan := rfl
@[simp] theorem accept_bufs (w : CmdWord) (f : Seq) (s : State) : (accept w f s).bufs = s.bufs := rfl
@[simp] theorem accept_host (w : CmdWord) (f : Seq) (s : State) : (accept w f s).host = s.host := rfl
@[simp] theorem accept_phase (w : CmdWord) (f : Seq) (s : State) : (accept w f s).phase = s.phase := rfl
@[simp] theorem accept_ret (w : CmdWord) (f : Seq) (s : State) : (accept w f s).ret = s.ret := rfl
@[simp] theorem accept_env (w : CmdWord) (f : Seq) (s : State) : (accept w f s).env = s.env := rfl
@[simp] theorem accept_answers (w : CmdWord) (f : Seq) (s : State) : (accept w f s).answers = s.answers := rfl
@[simp] theorem accept_freeCtr (w : CmdWord) (f : Seq) (s : State) : (accept w f s).freeCtr = s.freeCtr := rfl

@[simp] theorem acceptIllegal_st (w : CmdWord) (s : State) : (acceptIllegal w s).st = .finish := rfl
@[simp] theorem acceptIllegal_cmd (w : CmdWord) (s : State) : (acceptIllegal w s).cmd = w := rfl
@[simp] theorem acceptIllegal_rx (w : CmdWord) (s : State) : (acceptIllegal w s).rx = s.rx := rfl
@[simp] theorem acceptIllegal_tx (w : CmdWord) (s : State) : (acceptIllegal w s).tx = s.tx := rfl
@[simp] theorem acceptIllegal_pollT (w : CmdWord) (s : State) : (acceptIllegal w s).pollT = s.pollT := rfl
@[simp] theorem acceptIllegal_busy (w : CmdWord) (s : State) : (acceptIllegal w s).busy = true := rfl
@[simp] theorem acceptIllegal_done (w : CmdWord) (s : State) : (acceptIllegal w s).done = false := rfl
@[simp] theorem acceptIllegal_result (w : CmdWord) (s : State) : (acceptIllegal w s).result = s.result := rfl
@[simp] theorem acceptIllegal_cause (w : CmdWord) (s : State) : (acceptIllegal w s).cause = s.cause := rfl
@[simp] theorem acceptIllegal_illegal (w : CmdWord) (s : State) : (acceptIllegal w s).illegal = true := rfl
@[simp] theorem acceptIllegal_failCause (w : CmdWord) (s : State) : (acceptIllegal w s).failCause = .illegalCmd := rfl
@[simp] theorem acceptIllegal_kSize (w : CmdWord) (s : State) : (acceptIllegal w s).kSize = s.kSize := rfl
@[simp] theorem acceptIllegal_bound (w : CmdWord) (s : State) : (acceptIllegal w s).bound = s.bound := rfl
@[simp] theorem acceptIllegal_chan (w : CmdWord) (s : State) : (acceptIllegal w s).chan = s.chan := rfl
@[simp] theorem acceptIllegal_bufs (w : CmdWord) (s : State) : (acceptIllegal w s).bufs = s.bufs := rfl
@[simp] theorem acceptIllegal_host (w : CmdWord) (s : State) : (acceptIllegal w s).host = s.host := rfl
@[simp] theorem acceptIllegal_phase (w : CmdWord) (s : State) : (acceptIllegal w s).phase = s.phase := rfl
@[simp] theorem acceptIllegal_ret (w : CmdWord) (s : State) : (acceptIllegal w s).ret = s.ret := rfl
@[simp] theorem acceptIllegal_env (w : CmdWord) (s : State) : (acceptIllegal w s).env = s.env := rfl
@[simp] theorem acceptIllegal_answers (w : CmdWord) (s : State) : (acceptIllegal w s).answers = s.answers := rfl
@[simp] theorem acceptIllegal_freeCtr (w : CmdWord) (s : State) : (acceptIllegal w s).freeCtr = s.freeCtr := rfl

@[simp] theorem startCksum_st (h : Handle) (s : State) : (startCksum h s).st = .kRun := rfl
@[simp] theorem startCksum_cmd (h : Handle) (s : State) : (startCksum h s).cmd = encode (.cksum h) := rfl
@[simp] theorem startCksum_rx (h : Handle) (s : State) : (startCksum h s).rx = s.rx := rfl
@[simp] theorem startCksum_tx (h : Handle) (s : State) : (startCksum h s).tx = s.tx := rfl
@[simp] theorem startCksum_pollT (h : Handle) (s : State) : (startCksum h s).pollT = s.pollT := rfl
@[simp] theorem startCksum_busy (h : Handle) (s : State) : (startCksum h s).busy = true := rfl
@[simp] theorem startCksum_done (h : Handle) (s : State) : (startCksum h s).done = false := rfl
@[simp] theorem startCksum_result (h : Handle) (s : State) : (startCksum h s).result = s.result := rfl
@[simp] theorem startCksum_cause (h : Handle) (s : State) : (startCksum h s).cause = s.cause := rfl
@[simp] theorem startCksum_illegal (h : Handle) (s : State) : (startCksum h s).illegal = false := rfl
@[simp] theorem startCksum_failCause (h : Handle) (s : State) : (startCksum h s).failCause = s.failCause := rfl
@[simp] theorem startCksum_kSize (h : Handle) (s : State) : (startCksum h s).kSize = true := rfl
@[simp] theorem startCksum_bound (h : Handle) (s : State) : (startCksum h s).bound = s.bound := rfl
@[simp] theorem startCksum_chan (h : Handle) (s : State) : (startCksum h s).chan = s.chan := rfl
@[simp] theorem startCksum_bufs (h : Handle) (s : State) : (startCksum h s).bufs = s.bufs := rfl
@[simp] theorem startCksum_host (h : Handle) (s : State) : (startCksum h s).host = s.host := rfl
@[simp] theorem startCksum_phase (h : Handle) (s : State) : (startCksum h s).phase = s.phase := rfl
@[simp] theorem startCksum_ret (h : Handle) (s : State) : (startCksum h s).ret = s.ret := rfl
@[simp] theorem startCksum_env (h : Handle) (s : State) : (startCksum h s).env = s.env := rfl
@[simp] theorem startCksum_answers (h : Handle) (s : State) : (startCksum h s).answers = s.answers := rfl
@[simp] theorem startCksum_freeCtr (h : Handle) (s : State) : (startCksum h s).freeCtr = s.freeCtr := rfl

@[simp] theorem fail_st (c : Cause) (n : Seq) (s : State) : (fail c n s).st = n := rfl
@[simp] theorem fail_cmd (c : Cause) (n : Seq) (s : State) : (fail c n s).cmd = s.cmd := rfl
@[simp] theorem fail_rx (c : Cause) (n : Seq) (s : State) : (fail c n s).rx = s.rx := rfl
@[simp] theorem fail_tx (c : Cause) (n : Seq) (s : State) : (fail c n s).tx = s.tx := rfl
@[simp] theorem fail_pollT (c : Cause) (n : Seq) (s : State) : (fail c n s).pollT = s.pollT := rfl
@[simp] theorem fail_busy (c : Cause) (n : Seq) (s : State) : (fail c n s).busy = s.busy := rfl
@[simp] theorem fail_done (c : Cause) (n : Seq) (s : State) : (fail c n s).done = s.done := rfl
@[simp] theorem fail_result (c : Cause) (n : Seq) (s : State) : (fail c n s).result = s.result := rfl
@[simp] theorem fail_cause (c : Cause) (n : Seq) (s : State) : (fail c n s).cause = s.cause := rfl
@[simp] theorem fail_illegal (c : Cause) (n : Seq) (s : State) : (fail c n s).illegal = s.illegal := rfl
@[simp] theorem fail_failCause (c : Cause) (n : Seq) (s : State) : (fail c n s).failCause = c := rfl
@[simp] theorem fail_kSize (c : Cause) (n : Seq) (s : State) : (fail c n s).kSize = s.kSize := rfl
@[simp] theorem fail_bound (c : Cause) (n : Seq) (s : State) : (fail c n s).bound = s.bound := rfl
@[simp] theorem fail_chan (c : Cause) (n : Seq) (s : State) : (fail c n s).chan = s.chan := rfl
@[simp] theorem fail_bufs (c : Cause) (n : Seq) (s : State) : (fail c n s).bufs = s.bufs := rfl
@[simp] theorem fail_host (c : Cause) (n : Seq) (s : State) : (fail c n s).host = s.host := rfl
@[simp] theorem fail_phase (c : Cause) (n : Seq) (s : State) : (fail c n s).phase = s.phase := rfl
@[simp] theorem fail_ret (c : Cause) (n : Seq) (s : State) : (fail c n s).ret = s.ret := rfl
@[simp] theorem fail_env (c : Cause) (n : Seq) (s : State) : (fail c n s).env = s.env := rfl
@[simp] theorem fail_answers (c : Cause) (n : Seq) (s : State) : (fail c n s).answers = s.answers := rfl
@[simp] theorem fail_freeCtr (c : Cause) (n : Seq) (s : State) : (fail c n s).freeCtr = s.freeCtr := rfl

@[simp] theorem chanWrite_st (b : Byte) (s : State) : (chanWrite b s).st = s.st := rfl
@[simp] theorem chanWrite_cmd (b : Byte) (s : State) : (chanWrite b s).cmd = s.cmd := rfl
@[simp] theorem chanWrite_rx (b : Byte) (s : State) : (chanWrite b s).rx = s.rx := rfl
@[simp] theorem chanWrite_tx (b : Byte) (s : State) : (chanWrite b s).tx = s.tx := rfl
@[simp] theorem chanWrite_pollT (b : Byte) (s : State) : (chanWrite b s).pollT = s.pollT := rfl
@[simp] theorem chanWrite_busy (b : Byte) (s : State) : (chanWrite b s).busy = s.busy := rfl
@[simp] theorem chanWrite_done (b : Byte) (s : State) : (chanWrite b s).done = s.done := rfl
@[simp] theorem chanWrite_result (b : Byte) (s : State) : (chanWrite b s).result = s.result := rfl
@[simp] theorem chanWrite_cause (b : Byte) (s : State) : (chanWrite b s).cause = s.cause := rfl
@[simp] theorem chanWrite_illegal (b : Byte) (s : State) : (chanWrite b s).illegal = s.illegal := rfl
@[simp] theorem chanWrite_failCause (b : Byte) (s : State) : (chanWrite b s).failCause = s.failCause := rfl
@[simp] theorem chanWrite_kSize (b : Byte) (s : State) : (chanWrite b s).kSize = s.kSize := rfl
@[simp] theorem chanWrite_bound (b : Byte) (s : State) : (chanWrite b s).bound = s.bound := rfl
@[simp] theorem chanWrite_chan (b : Byte) (s : State) : (chanWrite b s).chan = { s.chan with txq := s.chan.txq ++ [b], wireOut := s.chan.wireOut ++ [b] } := rfl
@[simp] theorem chanWrite_bufs (b : Byte) (s : State) : (chanWrite b s).bufs = s.bufs := rfl
@[simp] theorem chanWrite_host (b : Byte) (s : State) : (chanWrite b s).host = s.host := rfl
@[simp] theorem chanWrite_phase (b : Byte) (s : State) : (chanWrite b s).phase = s.phase := rfl
@[simp] theorem chanWrite_ret (b : Byte) (s : State) : (chanWrite b s).ret = s.ret := rfl
@[simp] theorem chanWrite_env (b : Byte) (s : State) : (chanWrite b s).env = s.env := rfl
@[simp] theorem chanWrite_answers (b : Byte) (s : State) : (chanWrite b s).answers = s.answers := rfl
@[simp] theorem chanWrite_freeCtr (b : Byte) (s : State) : (chanWrite b s).freeCtr = s.freeCtr := rfl

@[simp] theorem chanFlush_st (s : State) : (chanFlush s).st = s.st := rfl
@[simp] theorem chanFlush_cmd (s : State) : (chanFlush s).cmd = s.cmd := rfl
@[simp] theorem chanFlush_rx (s : State) : (chanFlush s).rx = s.rx := rfl
@[simp] theorem chanFlush_tx (s : State) : (chanFlush s).tx = s.tx := rfl
@[simp] theorem chanFlush_pollT (s : State) : (chanFlush s).pollT = s.pollT := rfl
@[simp] theorem chanFlush_busy (s : State) : (chanFlush s).busy = s.busy := rfl
@[simp] theorem chanFlush_done (s : State) : (chanFlush s).done = s.done := rfl
@[simp] theorem chanFlush_result (s : State) : (chanFlush s).result = s.result := rfl
@[simp] theorem chanFlush_cause (s : State) : (chanFlush s).cause = s.cause := rfl
@[simp] theorem chanFlush_illegal (s : State) : (chanFlush s).illegal = s.illegal := rfl
@[simp] theorem chanFlush_failCause (s : State) : (chanFlush s).failCause = s.failCause := rfl
@[simp] theorem chanFlush_kSize (s : State) : (chanFlush s).kSize = s.kSize := rfl
@[simp] theorem chanFlush_bound (s : State) : (chanFlush s).bound = s.bound := rfl
@[simp] theorem chanFlush_chan (s : State) : (chanFlush s).chan = { s.chan with txq := [] } := rfl
@[simp] theorem chanFlush_bufs (s : State) : (chanFlush s).bufs = s.bufs := rfl
@[simp] theorem chanFlush_host (s : State) : (chanFlush s).host = s.host := rfl
@[simp] theorem chanFlush_phase (s : State) : (chanFlush s).phase = s.phase := rfl
@[simp] theorem chanFlush_ret (s : State) : (chanFlush s).ret = s.ret := rfl
@[simp] theorem chanFlush_env (s : State) : (chanFlush s).env = s.env := rfl
@[simp] theorem chanFlush_answers (s : State) : (chanFlush s).answers = s.answers := rfl
@[simp] theorem chanFlush_freeCtr (s : State) : (chanFlush s).freeCtr = s.freeCtr := rfl

@[simp] theorem bufFree_st (h : Handle) (s : State) : (bufFree h s).st = s.st := rfl
@[simp] theorem bufFree_cmd (h : Handle) (s : State) : (bufFree h s).cmd = s.cmd := rfl
@[simp] theorem bufFree_rx (h : Handle) (s : State) : (bufFree h s).rx = s.rx := rfl
@[simp] theorem bufFree_tx (h : Handle) (s : State) : (bufFree h s).tx = s.tx := rfl
@[simp] theorem bufFree_pollT (h : Handle) (s : State) : (bufFree h s).pollT = s.pollT := rfl
@[simp] theorem bufFree_busy (h : Handle) (s : State) : (bufFree h s).busy = s.busy := rfl
@[simp] theorem bufFree_done (h : Handle) (s : State) : (bufFree h s).done = s.done := rfl
@[simp] theorem bufFree_result (h : Handle) (s : State) : (bufFree h s).result = s.result := rfl
@[simp] theorem bufFree_cause (h : Handle) (s : State) : (bufFree h s).cause = s.cause := rfl
@[simp] theorem bufFree_illegal (h : Handle) (s : State) : (bufFree h s).illegal = s.illegal := rfl
@[simp] theorem bufFree_failCause (h : Handle) (s : State) : (bufFree h s).failCause = s.failCause := rfl
@[simp] theorem bufFree_kSize (h : Handle) (s : State) : (bufFree h s).kSize = s.kSize := rfl
@[simp] theorem bufFree_bound (h : Handle) (s : State) : (bufFree h s).bound = s.bound := rfl
@[simp] theorem bufFree_chan (h : Handle) (s : State) : (bufFree h s).chan = s.chan := rfl
@[simp] theorem bufFree_bufs (h : Handle) (s : State) : (bufFree h s).bufs = s.bufs.erase h := rfl
@[simp] theorem bufFree_host (h : Handle) (s : State) : (bufFree h s).host = s.host := rfl
@[simp] theorem bufFree_phase (h : Handle) (s : State) : (bufFree h s).phase = s.phase := rfl
@[simp] theorem bufFree_ret (h : Handle) (s : State) : (bufFree h s).ret = s.ret := rfl
@[simp] theorem bufFree_env (h : Handle) (s : State) : (bufFree h s).env = s.env := rfl
@[simp] theorem bufFree_answers (h : Handle) (s : State) : (bufFree h s).answers = s.answers := rfl
@[simp] theorem bufFree_freeCtr (h : Handle) (s : State) : (bufFree h s).freeCtr = s.freeCtr := rfl

@[simp] theorem returnTo_st (r : HostRet) (s : State) : (returnTo r s).st = s.st := rfl
@[simp] theorem returnTo_cmd (r : HostRet) (s : State) : (returnTo r s).cmd = s.cmd := rfl
@[simp] theorem returnTo_rx (r : HostRet) (s : State) : (returnTo r s).rx = s.rx := rfl
@[simp] theorem returnTo_tx (r : HostRet) (s : State) : (returnTo r s).tx = s.tx := rfl
@[simp] theorem returnTo_pollT (r : HostRet) (s : State) : (returnTo r s).pollT = s.pollT := rfl
@[simp] theorem returnTo_busy (r : HostRet) (s : State) : (returnTo r s).busy = s.busy := rfl
@[simp] theorem returnTo_done (r : HostRet) (s : State) : (returnTo r s).done = s.done := rfl
@[simp] theorem returnTo_result (r : HostRet) (s : State) : (returnTo r s).result = s.result := rfl
@[simp] theorem returnTo_cause (r : HostRet) (s : State) : (returnTo r s).cause = s.cause := rfl
@[simp] theorem returnTo_illegal (r : HostRet) (s : State) : (returnTo r s).illegal = s.illegal := rfl
@[simp] theorem returnTo_failCause (r : HostRet) (s : State) : (returnTo r s).failCause = s.failCause := rfl
@[simp] theorem returnTo_kSize (r : HostRet) (s : State) : (returnTo r s).kSize = s.kSize := rfl
@[simp] theorem returnTo_bound (r : HostRet) (s : State) : (returnTo r s).bound = s.bound := rfl
@[simp] theorem returnTo_chan (r : HostRet) (s : State) : (returnTo r s).chan = s.chan := rfl
@[simp] theorem returnTo_bufs (r : HostRet) (s : State) : (returnTo r s).bufs = s.bufs := rfl
@[simp] theorem returnTo_host (r : HostRet) (s : State) : (returnTo r s).host = s.host := rfl
@[simp] theorem returnTo_phase (r : HostRet) (s : State) : (returnTo r s).phase = .ready := rfl
@[simp] theorem returnTo_ret (r : HostRet) (s : State) : (returnTo r s).ret = r := rfl
@[simp] theorem returnTo_env (r : HostRet) (s : State) : (returnTo r s).env = s.env := rfl
@[simp] theorem returnTo_answers (r : HostRet) (s : State) : (returnTo r s).answers = s.answers := rfl
@[simp] theorem returnTo_freeCtr (r : HostRet) (s : State) : (returnTo r s).freeCtr = s.freeCtr := rfl

@[simp] theorem resetEngine_st (s : State) : (resetEngine s).st = State.reset.st := rfl
@[simp] theorem resetEngine_cmd (s : State) : (resetEngine s).cmd = State.reset.cmd := rfl
@[simp] theorem resetEngine_rx (s : State) : (resetEngine s).rx = State.reset.rx := rfl
@[simp] theorem resetEngine_tx (s : State) : (resetEngine s).tx = State.reset.tx := rfl
@[simp] theorem resetEngine_pollT (s : State) : (resetEngine s).pollT = State.reset.pollT := rfl
@[simp] theorem resetEngine_busy (s : State) : (resetEngine s).busy = State.reset.busy := rfl
@[simp] theorem resetEngine_done (s : State) : (resetEngine s).done = State.reset.done := rfl
@[simp] theorem resetEngine_result (s : State) : (resetEngine s).result = State.reset.result := rfl
@[simp] theorem resetEngine_cause (s : State) : (resetEngine s).cause = State.reset.cause := rfl
@[simp] theorem resetEngine_illegal (s : State) : (resetEngine s).illegal = State.reset.illegal := rfl
@[simp] theorem resetEngine_failCause (s : State) : (resetEngine s).failCause = State.reset.failCause := rfl
@[simp] theorem resetEngine_kSize (s : State) : (resetEngine s).kSize = State.reset.kSize := rfl
@[simp] theorem resetEngine_bound (s : State) : (resetEngine s).bound = State.reset.bound := rfl
@[simp] theorem resetEngine_chan (s : State) : (resetEngine s).chan = s.chan := rfl
@[simp] theorem resetEngine_bufs (s : State) : (resetEngine s).bufs = s.bufs := rfl
@[simp] theorem resetEngine_host (s : State) : (resetEngine s).host = s.host := rfl
@[simp] theorem resetEngine_phase (s : State) : (resetEngine s).phase = State.reset.phase := rfl
@[simp] theorem resetEngine_ret (s : State) : (resetEngine s).ret = State.reset.ret := rfl
@[simp] theorem resetEngine_env (s : State) : (resetEngine s).env = s.env := rfl
@[simp] theorem resetEngine_answers (s : State) : (resetEngine s).answers = s.answers := rfl
@[simp] theorem resetEngine_freeCtr (s : State) : (resetEngine s).freeCtr = s.freeCtr := rfl

@[simp] theorem arriving_st (bs : List Byte) (s : State) : (s.arriving bs).st = s.st := rfl
@[simp] theorem arriving_cmd (bs : List Byte) (s : State) : (s.arriving bs).cmd = s.cmd := rfl
@[simp] theorem arriving_rx (bs : List Byte) (s : State) : (s.arriving bs).rx = s.rx := rfl
@[simp] theorem arriving_tx (bs : List Byte) (s : State) : (s.arriving bs).tx = s.tx := rfl
@[simp] theorem arriving_pollT (bs : List Byte) (s : State) : (s.arriving bs).pollT = s.pollT := rfl
@[simp] theorem arriving_busy (bs : List Byte) (s : State) : (s.arriving bs).busy = s.busy := rfl
@[simp] theorem arriving_done (bs : List Byte) (s : State) : (s.arriving bs).done = s.done := rfl
@[simp] theorem arriving_result (bs : List Byte) (s : State) : (s.arriving bs).result = s.result := rfl
@[simp] theorem arriving_cause (bs : List Byte) (s : State) : (s.arriving bs).cause = s.cause := rfl
@[simp] theorem arriving_illegal (bs : List Byte) (s : State) : (s.arriving bs).illegal = s.illegal := rfl
@[simp] theorem arriving_failCause (bs : List Byte) (s : State) : (s.arriving bs).failCause = s.failCause := rfl
@[simp] theorem arriving_kSize (bs : List Byte) (s : State) : (s.arriving bs).kSize = s.kSize := rfl
@[simp] theorem arriving_bound (bs : List Byte) (s : State) : (s.arriving bs).bound = s.bound := rfl
@[simp] theorem arriving_chan (bs : List Byte) (s : State) : (s.arriving bs).chan = { s.chan with rxq := s.chan.rxq ++ bs } := rfl
@[simp] theorem arriving_bufs (bs : List Byte) (s : State) : (s.arriving bs).bufs = s.bufs := rfl
@[simp] theorem arriving_host (bs : List Byte) (s : State) : (s.arriving bs).host = s.host := rfl
@[simp] theorem arriving_phase (bs : List Byte) (s : State) : (s.arriving bs).phase = s.phase := rfl
@[simp] theorem arriving_ret (bs : List Byte) (s : State) : (s.arriving bs).ret = s.ret := rfl
@[simp] theorem arriving_env (bs : List Byte) (s : State) : (s.arriving bs).env = s.env := rfl
@[simp] theorem arriving_answers (bs : List Byte) (s : State) : (s.arriving bs).answers = s.answers := rfl
@[simp] theorem arriving_freeCtr (bs : List Byte) (s : State) : (s.arriving bs).freeCtr = s.freeCtr := rfl

/-- One arm of `exec` each, so that no later proof unfolds `exec`. -/
theorem exec_encode (b : Bool) (act : Byte) (s : State) : exec (.encode b act) s = execEncode b act s := rfl

theorem exec_cksum (h : Handle) (s : State) : exec (.cksum h) s = execCksum h s := rfl

theorem exec_recv (h : Handle) (s : State) : exec (.recv h) s = execRecv h s := rfl

theorem exec_send (req : Byte) (h : Handle) (s : State) : exec (.send req h) s = execSend req h s := rfl

end Sys2Proof.Machine
end

