-- ==== Sys2Proof/Laws/Run.lean ====
section
/-! SUPPORT. The loop of visits: one lemma for each thing it can do, the rule for an invariant, and the wait. -/

namespace Sys2Proof.Machine

theorem runVisits_rest {act : State → Bool} {v : State → Visit} {k : Nat} {s : State} (h : act s = false) :
    runVisits act v k s = .next s := by
  cases k with
  | zero => rfl
  | succ k => simp [runVisits, h]

theorem runVisits_go {act : State → Bool} {v : State → Visit} {k : Nat} {s t : State} (h : act s = true)
    (hv : v (envStep s) = .go t) : runVisits act v (k + 1) s = runVisits act v k t := by
  simp [runVisits, h, hv]

theorem runVisits_wait_on {act : State → Bool} {v : State → Visit} {k : Nat} {s t : State} (h : act s = true)
    (hv : v (envStep s) = .wait t) (ht : t.env ≠ []) : runVisits act v (k + 1) s = runVisits act v k t := by
  simp [runVisits, h, hv, ht]

theorem runVisits_wait_rest {act : State → Bool} {v : State → Visit} {k : Nat} {s t : State} (h : act s = true)
    (hv : v (envStep s) = .wait t) (ht : t.env = []) : runVisits act v (k + 1) s = .next t := by
  simp [runVisits, h, hv, ht]

/-- The one induction over visits: what every visit keeps, and whatever is refused by no visit, the loop keeps. -/
theorem runVisits_keeps {act : State → Bool} {v : State → Visit} {P : State → Prop}
    (hP : ∀ s, P s → act s = true → ∃ t, (v (envStep s) = .go t ∨ v (envStep s) = .wait t) ∧ P t) (k : Nat) (s : State)
    (hs : P s) : ∃ t, runVisits act v k s = .next t ∧ P t := by
  induction k generalizing s with
  | zero => exact ⟨s, rfl, hs⟩
  | succ k ih =>
    cases ha : act s with
    | false => exact ⟨s, runVisits_rest ha, hs⟩
    | true =>
      obtain ⟨t, ht | ht, hPt⟩ := hP s hs ha
      · rw [runVisits_go ha ht]; exact ih t hPt
      · by_cases he : t.env = []
        · exact ⟨t, runVisits_wait_rest ha ht he, hPt⟩
        · rw [runVisits_wait_on ha ht he]; exact ih t hPt

/-- The same for a property that is asked only of the states the loop answers. -/
theorem runVisits_next_keeps {act : State → Bool} {v : State → Visit} {P : State → Prop}
    (hP : ∀ s t, P s → act s = true → v (envStep s) = .go t ∨ v (envStep s) = .wait t → P t) (k : Nat) (s t : State)
    (hs : P s) (h : runVisits act v k s = .next t) : P t := by
  induction k generalizing s with
  | zero => cases h; exact hs
  | succ k ih =>
    unfold runVisits at h
    split at h
    · rename_i ha
      split at h
      · rename_i u hu; exact ih u (hP s u hs ha (.inl hu)) h
      · rename_i u hu
        split at h
        · cases h; exact hP s _ hs ha (.inr hu)
        · exact ih u (hP s u hs ha (.inr hu)) h
      · cases h
    · cases h; exact hs

theorem engineActive_of {s : State} (h : s.st ≠ .idle) : engineActive s = true := by simp [engineActive, h]

theorem runEngineFor_idle {k : Nat} {s : State} (h : s.st = .idle) : runEngineFor k s = .next s :=
  runVisits_rest (by simp [engineActive, h])

/-- The state after the moves of a calm slot. -/
def moved (s : State) : State := { s with env := s.env.tail, chan := slotChan s }

theorem envStep_moved {s : State} (h : Calm s.env) : envStep s = moved s := envStep_calm h

theorem engine_go {k : Nat} {s t : State} (hc : Calm s.env) (h : s.st ≠ .idle) (hv : visit (moved s) = .go t) :
    runEngineFor (k + 1) s = runEngineFor k t :=
  runVisits_go (engineActive_of h) (by rw [envStep_moved hc, hv])

theorem engine_wait_on {k : Nat} {s t : State} (hc : Calm s.env) (h : s.st ≠ .idle)
    (hv : visit (moved s) = .wait t) (ht : t.env ≠ []) : runEngineFor (k + 1) s = runEngineFor k t :=
  runVisits_wait_on (engineActive_of h) (by rw [envStep_moved hc, hv]) ht

theorem engine_wait_rest {k : Nat} {s t : State} (hc : Calm s.env) (h : s.st ≠ .idle)
    (hv : visit (moved s) = .wait t) (ht : t.env = []) : runEngineFor (k + 1) s = .next t :=
  runVisits_wait_rest (engineActive_of h) (by rw [envStep_moved hc, hv]) ht

/-- How the channel and the slots to come stand after some visits of `s`, when the receive stream as a whole is `S`:
nothing but the world outside has touched the transmit side. -/
structure Drift (s : State) (e : List (List EnvMove)) (c : Chan) (S : List Byte) : Prop where
  env : e <:+ s.env
  str : c.rxq ++ arrivals e = S
  wire : c.wireOut = s.chan.wireOut
  txq : c.txq <:+ s.chan.txq
  cap : c.capacity = s.chan.capacity

theorem Calm.of_suffix {e f : List (List EnvMove)} (hf : Calm f) (h : e <:+ f) : Calm e :=
  fun slot hs => hf slot (h.subset hs)

theorem Drift.calm {s : State} {e : List (List EnvMove)} {c : Chan} {S : List Byte} (h : Drift s e c S)
    (hs : Calm s.env) : Calm e := hs.of_suffix h.env

theorem Drift.moved (s : State) : Drift s s.env.tail (slotChan s) (stream s) :=
  ⟨List.tail_suffix _, slotChan_stream s, slotChan_wireOut s, slotChan_txq s, slotChan_capacity s⟩

theorem Drift.refl (s : State) : Drift s s.env s.chan (stream s) := ⟨List.suffix_rfl, rfl, rfl, List.suffix_rfl, rfl⟩

theorem Drift.trans {s t : State} {e : List (List EnvMove)} {c : Chan} {S T : List Byte}
    (h : Drift s t.env t.chan T) (g : Drift t e c S) : Drift s e c S :=
  ⟨g.env.trans h.env, g.str, g.wire.trans h.wire, g.txq.trans h.txq, g.cap.trans h.cap⟩

/-- The bytes of the whole stream that have not arrived are in the slots to come. -/
theorem stream_length (s : State) : (stream s).length = s.chan.rxq.length + (arrivals s.env).length := by
  simp [stream]

/-- The visits a wait can take when so many slots are to come and the poll timer stands so high. -/
def waitCost (slots timer : Nat) : Nat := if slots ≤ timer then timer + 1 else slots + 32

theorem waitCost_le (slots timer : Nat) (h : timer < 32) : waitCost slots timer ≤ slots + 32 := by
  unfold waitCost
  split <;> omega

theorem wait_ends_aux {n : Nat} {w next : Seq} (hn : n ≤ 255) (hw : w ≠ .idle) (m : Nat) (k : Nat) (s : State)
    (hst : s.st = w) (hv : ∀ u : State, u.rx = s.rx → u.st = w → visit u = waitVisit n next u)
    (hc : Calm s.env) (hS : n ≤ (stream s).length) (hq : n ≤ s.chan.capacity)
    (hk : waitCost s.env.length s.pollT.toNat + m ≤ k) :
    ∃ e c k', runEngineFor k s = runEngineFor k' { s with st := next, pollT := 0#5, env := e, chan := c } ∧
      Drift s e c (stream s) ∧ n ≤ c.queue.length ∧ e.length + m ≤ k' := by
  induction k generalizing s with
  | zero => unfold waitCost at hk; split at hk <;> omega
  | succ k ih =>
    have hvm : visit (moved s) = waitVisit n next (moved s) := hv _ rfl hst
    have htl : s.env.tail.length = s.env.length - 1 := by simp
    unfold waitVisit at hvm
    split at hvm
    · rename_i hp
      have hp' : s.pollT ≠ 0#5 := hp
      have hpos : (s.pollT - 1#5).toNat + 1 = s.pollT.toNat := by
        have h0 : s.pollT.toNat ≠ 0 := fun h => hp' (BitVec.eq_of_toNat_eq (by simpa using h))
        rw [BitVec.toNat_sub]
        have := s.pollT.isLt
        simp
        omega
      have hs : stream { moved s with pollT := (moved s).pollT - 1#5 } = stream s := slotChan_stream s
      obtain ⟨e, c, k', hr, hd, hle, hkk⟩ := ih { moved s with pollT := (moved s).pollT - 1#5 } hst hv hc.tail
        (by rw [hs]; exact hS) (by show n ≤ (slotChan s).capacity; rw [slotChan_capacity]; exact hq) (by
          show waitCost s.env.tail.length (s.pollT - 1#5).toNat + m ≤ k
          unfold waitCost at hk ⊢
          split at hk <;> split <;> omega)
      refine ⟨e, c, k', (engine_go hc (hst ▸ hw) hvm).trans hr, ?_, hle, hkk⟩
      rw [hs] at hd
      exact (Drift.moved s).trans hd
    · rename_i hp
      have hp' : s.pollT = 0#5 := by
        have : ¬ (s.pollT ≠ 0#5) := hp
        simpa using this
      have hp0 : s.pollT.toNat = 0 := by simp [hp']
      split at hvm
      · rename_i ha
        refine ⟨s.env.tail, slotChan s, k, ?_, Drift.moved s, (le_chanAvail hn _).1 ha, by
          unfold waitCost at hk; split at hk <;> omega⟩
        rw [engine_go hc (hst ▸ hw) hvm]
        congr 1
        simp [moved, hp']
      · rename_i ha
        have ha' : ¬ n ≤ (slotChan s).rxq.length := fun h => ha ((le_chanAvail hn (moved s)).2 (by
          show n ≤ (slotChan s).queue.length
          rw [queue_length, slotChan_capacity]
          omega))
        have hne : s.env.tail ≠ [] := by
          intro hnil
          have := slotChan_stream s
          rw [hnil, arrivals_nil, List.append_nil] at this
          rw [this] at ha'
          exact ha' hS
        have hpos : 0 < s.env.tail.length := List.length_pos_of_ne_nil hne
        have hs : stream { moved s with pollT := Config.pollInterval } = stream s := slotChan_stream s
        obtain ⟨e, c, k', hr, hd, hle, hkk⟩ := ih { moved s with pollT := Config.pollInterval } hst hv hc.tail
          (by rw [hs]; exact hS) (by show n ≤ (slotChan s).capacity; rw [slotChan_capacity]; exact hq) (by
            show waitCost s.env.tail.length Config.pollInterval.toNat + m ≤ k
            have h25 : Config.pollInterval.toNat = 25 := rfl
            rw [h25]
            unfold waitCost at hk ⊢
            split at hk <;> split <;> omega)
        refine ⟨e, c, k', (engine_wait_on hc (hst ▸ hw) hvm hne).trans hr, ?_, hle, hkk⟩
        rw [hs] at hd
        exact (Drift.moved s).trans hd

/-- A wait for at most 255 bytes that the stream as a whole satisfies and the queue can hold ends, and nothing but the channel, the slots, the poll
timer and the sequencer state has changed (43_frame_receiver.md R99). -/
theorem wait_ends {n : Nat} {w next : Seq} (hn : n ≤ 255) (hw : w ≠ .idle) {m k : Nat} {s : State}
    (hst : s.st = w) (hv : ∀ u : State, u.rx = s.rx → u.st = w → visit u = waitVisit n next u)
    (hc : Calm s.env) (hS : n ≤ (stream s).length) (hq : n ≤ s.chan.capacity) (hk : s.env.length + (m + 32) ≤ k) :
    ∃ e c k', runEngineFor k s = runEngineFor k' { s with st := next, pollT := 0#5, env := e, chan := c } ∧
      Drift s e c (stream s) ∧ n ≤ c.queue.length ∧ e.length + m ≤ k' :=
  wait_ends_aux hn hw m k s hst hv hc hS hq (by have := waitCost_le s.env.length s.pollT.toNat s.pollT.isLt; omega)

theorem wait_rests_aux {n : Nat} {w next : Seq} (hn : n ≤ 255) (hw : w ≠ .idle) (k : Nat) (s : State)
    (hst : s.st = w) (hv : ∀ u : State, u.rx = s.rx → u.st = w → visit u = waitVisit n next u)
    (hc : Calm s.env) (hS : (stream s).length < n ∨ s.chan.capacity < n) (hk : waitCost s.env.length s.pollT.toNat ≤ k) :
    ∃ c, runEngineFor k s = .next { s with pollT := Config.pollInterval, env := [], chan := c } ∧
      Drift s [] c (stream s) ∧ (s.env = [] → c = s.chan) := by
  induction k generalizing s with
  | zero => unfold waitCost at hk; split at hk <;> omega
  | succ k ih =>
    have hvm : visit (moved s) = waitVisit n next (moved s) := hv _ rfl hst
    have htl : s.env.tail.length = s.env.length - 1 := by simp
    unfold waitVisit at hvm
    split at hvm
    · rename_i hp
      have hp' : s.pollT ≠ 0#5 := hp
      have hpos : (s.pollT - 1#5).toNat + 1 = s.pollT.toNat := by
        have h0 : s.pollT.toNat ≠ 0 := fun h => hp' (BitVec.eq_of_toNat_eq (by simpa using h))
        rw [BitVec.toNat_sub]
        have := s.pollT.isLt
        simp
        omega
      have hs : stream { moved s with pollT := (moved s).pollT - 1#5 } = stream s := slotChan_stream s
      obtain ⟨c, hr, hd, hch⟩ := ih { moved s with pollT := (moved s).pollT - 1#5 } hst hv hc.tail
        (by
          show (stream _).length < n ∨ (slotChan s).capacity < n
          rw [hs, slotChan_capacity]; exact hS) (by
          show waitCost s.env.tail.length (s.pollT - 1#5).toNat ≤ k
          unfold waitCost at hk ⊢
          split at hk <;> split <;> omega)
      refine ⟨c, (engine_go hc (hst ▸ hw) hvm).trans hr, ?_, fun he =>
        (hch (by show s.env.tail = []; rw [he]; rfl)).trans (slotChan_of_env_nil he)⟩
      rw [hs] at hd
      exact (Drift.moved s).trans hd
    · rename_i hp
      have hp' : s.pollT = 0#5 := by
        have : ¬ (s.pollT ≠ 0#5) := hp
        simpa using this
      have hp0 : s.pollT.toNat = 0 := by simp [hp']
      split at hvm
      · rename_i ha
        have h1 := (le_chanAvail hn (moved s)).1 ha
        have h2 := congrArg List.length (slotChan_stream s)
        rw [List.length_append] at h2
        have h3 : n ≤ (slotChan s).queue.length := h1
        rw [queue_length, slotChan_capacity] at h3
        omega
      · rename_i ha
        have hs : stream { moved s with pollT := Config.pollInterval } = stream s := slotChan_stream s
        by_cases hnil : s.env.tail = []
        · refine ⟨slotChan s, ?_, ?_, slotChan_of_env_nil⟩
          · rw [engine_wait_rest hc (hst ▸ hw) hvm hnil]
            simp [moved, hnil]
          · rw [← hnil]; exact Drift.moved s
        · have hpos : 0 < s.env.tail.length := List.length_pos_of_ne_nil hnil
          obtain ⟨c, hr, hd, hch⟩ := ih { moved s with pollT := Config.pollInterval } hst hv hc.tail
            (by
          show (stream _).length < n ∨ (slotChan s).capacity < n
          rw [hs, slotChan_capacity]; exact hS) (by
              show waitCost s.env.tail.length Config.pollInterval.toNat ≤ k
              have h25 : Config.pollInterval.toNat = 25 := rfl
              rw [h25]
              unfold waitCost at hk ⊢
              split at hk <;> split <;> omega)
          refine ⟨c, (engine_wait_on hc (hst ▸ hw) hvm hnil).trans hr, ?_, fun he =>
            absurd (by rw [he]; rfl) hnil⟩
          rw [hs] at hd
          exact (Drift.moved s).trans hd

/-- A wait that the stream as a whole does not satisfy, or for more bytes than the queue holds (70_reset_and_hazards.md R160),
rests: nothing but the channel, the slots and the poll timer has changed, every byte that was to arrive has arrived, and none
is read (43_frame_receiver.md R99, 93 U16). -/
theorem wait_rests {n : Nat} {w next : Seq} (hn : n ≤ 255) (hw : w ≠ .idle) {k : Nat} {s : State}
    (hst : s.st = w) (hv : ∀ u : State, u.rx = s.rx → u.st = w → visit u = waitVisit n next u)
    (hc : Calm s.env) (hS : (stream s).length < n ∨ s.chan.capacity < n) (hk : s.env.length + 32 ≤ k) :
    ∃ c, runEngineFor k s = .next { s with pollT := Config.pollInterval, env := [], chan := c } ∧
      Drift s [] c (stream s) ∧ (s.env = [] → c = s.chan) :=
  wait_rests_aux hn hw k s hst hv hc hS (by have := waitCost_le s.env.length s.pollT.toNat s.pollT.isLt; omega)

end Sys2Proof.Machine
end

