-- ==== Sys2Proof/Laws/Receive.lean ====
section
/-! SUPPORT. What each state of the receiver comes to in calm slots, one lemma a state (spec/43_frame_receiver.md R86 to
R96): the visits it takes, the bytes it consumes from the receive stream as a whole, and the state it leaves. -/

namespace Sys2Proof.Machine

/-- A read that a byte in the queue covers takes the first byte of the receive stream as a whole. -/
theorem moved_read {s : State} {b : Byte} {S : List Byte} (hS : stream s = b :: S) (h1 : 1 ≤ s.chan.queue.length) :
    ∃ c, chanRead (moved s) = (b, { moved s with chan := c }) ∧ Drift s s.env.tail c S ∧
      s.chan.queue.length ≤ c.queue.length + 1 := by
  have hlen := slotChan_queue_length s
  have hstr := slotChan_stream s
  obtain ⟨x, q, hq, -, hr, hl⟩ := chanRead_covered (s := moved s) (h1.trans hlen)
  rw [hS, show (slotChan s).rxq = x :: q from hq, List.cons_append] at hstr
  obtain ⟨rfl, hqS⟩ := List.cons.inj hstr
  exact ⟨{ slotChan s with rxq := q }, hr,
    ⟨List.tail_suffix _, hqS, slotChan_wireOut s, slotChan_txq s, slotChan_capacity s⟩, hlen.trans hl⟩

/-- One round of a drain in a calm slot (40_session_control.md R72): a byte of the stream is discarded, or nothing is there. -/
theorem moved_drain {s : State} (hq : 0 < s.chan.capacity) :
    (0 < chanAvail (moved s) ∧ ∃ c, drainOne (moved s) = { moved s with chan := c } ∧
      (stream s).length = (c.rxq ++ arrivals s.env.tail).length + 1 ∧ c = { slotChan s with rxq := c.rxq }) ∨
    (¬ 0 < chanAvail (moved s) ∧ (slotChan s).rxq = []) := by
  by_cases ha : 0 < chanAvail (moved s)
  · obtain ⟨x, q, hx, -, hr, -⟩ := chanRead_covered (s := moved s) ((le_chanAvail (n := 1) (by omega) _).1 ha)
    refine .inl ⟨ha, { slotChan s with rxq := q }, by unfold drainOne; rw [hr]; rfl, ?_, rfl⟩
    rw [← slotChan_stream s, show (slotChan s).rxq = x :: q from hx]
    rfl
  · exact .inr ⟨ha, rxq_nil_of_queue (by rw [slotChan_capacity]; exact hq)
      fun h => ha ((le_chanAvail (n := 1) (by omega) (moved s)).2 h)⟩

/-- The receiver's registers at the start of a reception into `h` (R86, R87). -/
def Rx.started (r : Rx) (h : Handle) : Rx := { r with h := h, res := 0x00#8, ck := 0x00#8, idx := 0#6 }

theorem rCheck_valid {k : Nat} {s : State} (hst : s.st = .rCheck) (hc : Calm s.env)
    (hv : bufValid (handleOf s.cmd) s = true) :
    runEngineFor (k + 1) s =
      runEngineFor k { moved s with rx := s.rx.started (handleOf s.cmd), st := .rWaitMin } := by
  refine engine_go hc (by simp [hst]) ?_
  have : bufValid (handleOf s.cmd) { moved s with rx := s.rx.started (handleOf s.cmd) } = true := hv
  unfold visit
  rw [show (moved s).st = .rCheck from hst]
  show visitRCheck (moved s) = _
  unfold visitRCheck
  exact if_pos this

theorem rCheck_invalid {k : Nat} {s : State} (hst : s.st = .rCheck) (hc : Calm s.env)
    (hv : bufValid (handleOf s.cmd) s = false) :
    runEngineFor (k + 1) s =
      runEngineFor k { moved s with
        rx := s.rx.started (handleOf s.cmd), failCause := .invalidHandle, st := .finish } := by
  refine engine_go hc (by simp [hst]) ?_
  have : ¬ bufValid (handleOf s.cmd) { moved s with rx := s.rx.started (handleOf s.cmd) } = true := by
    intro h
    have h' : bufValid (handleOf s.cmd) s = true := h
    simp [hv] at h'
  unfold visit
  rw [show (moved s).st = .rCheck from hst]
  show visitRCheck (moved s) = _
  unfold visitRCheck
  exact if_neg this

theorem rReq_go {k : Nat} {s : State} {b : Byte} {S : List Byte} (hst : s.st = .rReq) (hc : Calm s.env)
    (hS : stream s = b :: S) (h1 : 1 ≤ s.chan.queue.length) :
    ∃ c, runEngineFor (k + 1) s = runEngineFor k { s with
        env := s.env.tail, chan := c, rx := { s.rx with req := b, ck := foldByte s.rx.ck b }, st := .rLen } ∧
      Drift s s.env.tail c S ∧ s.chan.queue.length ≤ c.queue.length + 1 := by
  obtain ⟨c, hr, hd, hl⟩ := moved_read hS h1
  refine ⟨c, engine_go hc (by simp [hst]) ?_, hd, hl⟩
  unfold visit
  rw [show (moved s).st = .rReq from hst]
  show visitRReq (moved s) = _
  unfold visitRReq
  rw [hr]
  rfl

theorem rLen_go {k : Nat} {s : State} {b : Byte} {S : List Byte} (hst : s.st = .rLen) (hc : Calm s.env)
    (hS : stream s = b :: S) (h1 : 1 ≤ s.chan.queue.length) :
    ∃ c, runEngineFor (k + 1) s = runEngineFor k { s with
        env := s.env.tail, chan := c, rx := { s.rx with len := b, ck := foldByte s.rx.ck b }, st := .rValidate } ∧
      Drift s s.env.tail c S ∧ s.chan.queue.length ≤ c.queue.length + 1 := by
  obtain ⟨c, hr, hd, hl⟩ := moved_read hS h1
  refine ⟨c, engine_go hc (by simp [hst]) ?_, hd, hl⟩
  unfold visit
  rw [show (moved s).st = .rLen from hst]
  show visitRLen (moved s) = _
  unfold visitRLen
  rw [hr]
  rfl

theorem rValidate_ok {k : Nat} {s : State} (hst : s.st = .rValidate) (hc : Calm s.env)
    (hv : validLength s.rx.len = true) :
    runEngineFor (k + 1) s = runEngineFor k { moved s with st := .rWaitFrame } := by
  refine engine_go hc (by simp [hst]) ?_
  unfold visit
  rw [show (moved s).st = .rValidate from hst]
  exact if_pos hv

theorem rValidate_bad {k : Nat} {s : State} (hst : s.st = .rValidate) (hc : Calm s.env)
    (hv : validLength s.rx.len = false) :
    runEngineFor (k + 1) s = runEngineFor k { moved s with failCause := .badLength, st := .rCleanup } := by
  refine engine_go hc (by simp [hst]) ?_
  unfold visit
  rw [show (moved s).st = .rValidate from hst]
  refine if_neg ?_
  rw [show (moved s).rx.len = s.rx.len from rfl, hv]
  simp

/-- The wait of step 1 in calm slots (R88). -/
theorem rWaitMin_ends {m k : Nat} {s : State} (hst : s.st = .rWaitMin) (hc : Calm s.env)
    (hS : 4 ≤ (stream s).length) (hq : 4 ≤ s.chan.capacity) (hk : s.env.length + (m + 32) ≤ k) :
    ∃ e c k', runEngineFor k s = runEngineFor k' { s with st := .rReq, pollT := 0#5, env := e, chan := c } ∧
      Drift s e c (stream s) ∧ 4 ≤ c.queue.length ∧ e.length + m ≤ k' :=
  wait_ends (by omega) (by simp) hst (fun u _ hu => by unfold visit; rw [hu]; rfl) hc hS hq hk

theorem rWaitMin_rests {k : Nat} {s : State} (hst : s.st = .rWaitMin) (hc : Calm s.env)
    (hS : (stream s).length < 4 ∨ s.chan.capacity < 4) (hk : s.env.length + 32 ≤ k) :
    ∃ c, runEngineFor k s = .next { s with pollT := Config.pollInterval, env := [], chan := c } ∧
      Drift s [] c (stream s) ∧ (s.env = [] → c = s.chan) :=
  wait_rests (next := .rReq) (by omega) (by simp) hst (fun u _ hu => by unfold visit; rw [hu]; rfl) hc hS hk

/-- The wait of step 5 in calm slots (R92). -/
theorem rWaitFrame_ends {m k : Nat} {s : State} (hst : s.st = .rWaitFrame) (hc : Calm s.env)
    (hS : s.rx.len.toNat ≤ (stream s).length) (hq : s.rx.len.toNat ≤ s.chan.capacity)
    (hk : s.env.length + (m + 32) ≤ k) :
    ∃ e c k', runEngineFor k s = runEngineFor k' { s with st := .rResize, pollT := 0#5, env := e, chan := c } ∧
      Drift s e c (stream s) ∧ s.rx.len.toNat ≤ c.queue.length ∧ e.length + m ≤ k' :=
  wait_ends (by have := s.rx.len.isLt; omega) (by simp) hst
    (fun u hr hu => by unfold visit; rw [hu]; show waitVisit _ _ _ = _; rw [hr]) hc hS hq hk

theorem rWaitFrame_rests {k : Nat} {s : State} (hst : s.st = .rWaitFrame) (hc : Calm s.env)
    (hS : (stream s).length < s.rx.len.toNat ∨ s.chan.capacity < s.rx.len.toNat) (hk : s.env.length + 32 ≤ k) :
    ∃ c, runEngineFor k s = .next { s with pollT := Config.pollInterval, env := [], chan := c } ∧
      Drift s [] c (stream s) ∧ (s.env = [] → c = s.chan) :=
  wait_rests (next := .rResize) (by have := s.rx.len.isLt; omega) (by simp) hst
    (fun u hr hu => by unfold visit; rw [hu]; show waitVisit _ _ _ = _; rw [hr]) hc hS hk

/-- The state after a `resize` that is answered true: a buffer of the new size, no other buffer changed (R93). -/
def resized (h : Handle) (n : Nat) (s : State) : State :=
  { s with
    bufs := s.bufs.put h (freeBytes (drawResize s).2.freeCtr n)
    answers := (drawResize s).2.answers, freeCtr := (drawResize s).2.freeCtr + n }

/-- The state after a `resize` that is answered false: a free record for its handle, no other buffer changed (93 U6). -/
def notResized (h : Handle) (s : State) : State :=
  { s with
    bufs := s.bufs.assign h (Config.failedResize (drawResize s).2.freeCtr)
    answers := (drawResize s).2.answers, freeCtr := (drawResize s).2.freeCtr + 1 }

theorem drawResize_eq (s : State) : drawResize s = ((drawResize s).1, { s with
    answers := (drawResize s).2.answers, freeCtr := (drawResize s).2.freeCtr }) := by
  unfold drawResize
  cases s.answers.resizeOk <;> rfl

theorem bufResize_true (h : Handle) (n : Nat) {s : State} (ha : (drawResize s).1 = true) :
    bufResize h n s = (true, resized h n s) := by
  unfold bufResize resized
  rw [drawResize_eq s, ha]

theorem bufResize_false (h : Handle) (n : Nat) {s : State} (ha : (drawResize s).1 = false) :
    bufResize h n s = (false, notResized h s) := by
  unfold bufResize notResized
  rw [drawResize_eq s, ha]

/-- The draw depends on nothing but the scripted answers and the counter. -/
theorem drawResize_congr {s t : State} (ha : t.answers = s.answers) (hf : t.freeCtr = s.freeCtr) :
    (drawResize t).1 = (drawResize s).1 ∧ (drawResize t).2.answers = (drawResize s).2.answers ∧
      (drawResize t).2.freeCtr = (drawResize s).2.freeCtr := by
  unfold drawResize
  rw [ha]
  cases s.answers.resizeOk <;> simp [hf]

theorem resized_moved (h : Handle) (n : Nat) (s : State) :
    resized h n (moved s) = { resized h n s with env := s.env.tail, chan := slotChan s } := by
  obtain ⟨-, hans, hctr⟩ := drawResize_congr (s := s) (t := moved s) rfl rfl
  unfold resized
  rw [hans, hctr]
  rfl

theorem notResized_moved (h : Handle) (s : State) :
    notResized h (moved s) = { notResized h s with env := s.env.tail, chan := slotChan s } := by
  obtain ⟨-, hans, hctr⟩ := drawResize_congr (s := s) (t := moved s) rfl rfl
  unfold notResized
  rw [hans, hctr]
  rfl

theorem rResize_true {k : Nat} {s : State} (hst : s.st = .rResize) (hc : Calm s.env)
    (hv : bufValid s.rx.h s = true) (ha : (drawResize s).1 = true) :
    runEngineFor (k + 1) s = runEngineFor k { resized s.rx.h (payloadSize s.rx.len) s with
      env := s.env.tail, chan := slotChan s, st := .rPayload } := by
  refine engine_go hc (by simp [hst]) ?_
  unfold visit
  rw [show (moved s).st = .rResize from hst]
  show visitRResize (moved s) = _
  unfold visitRResize
  rw [if_pos (show bufValid (moved s).rx.h (moved s) = true from hv),
    bufResize_true _ _ ((drawResize_congr (s := s) (t := moved s) rfl rfl).1.trans ha), resized_moved]
  rfl

theorem rResize_false {k : Nat} {s : State} (hst : s.st = .rResize) (hc : Calm s.env)
    (hv : bufValid s.rx.h s = true) (ha : (drawResize s).1 = false) :
    runEngineFor (k + 1) s = runEngineFor k { notResized s.rx.h s with
      env := s.env.tail, chan := slotChan s, failCause := .resizeFail, st := .rCleanup } := by
  refine engine_go hc (by simp [hst]) ?_
  unfold visit
  rw [show (moved s).st = .rResize from hst]
  show visitRResize (moved s) = _
  unfold visitRResize
  rw [if_pos (show bufValid (moved s).rx.h (moved s) = true from hv),
    bufResize_false _ _ ((drawResize_congr (s := s) (t := moved s) rfl rfl).1.trans ha), notResized_moved]
  rfl

/-- The payload loop (R94): the bytes `p` that come next in the stream land at their indices and are folded. -/
theorem rPayload_loop (p : List Byte) {m : Nat} (k : Nat) (s : State) {S d : List Byte} (hst : s.st = .rPayload)
    (hc : Calm s.env) (hS : stream s = p ++ S) (hn : s.rx.idx.toNat + p.length = payloadSize s.rx.len)
    (h50 : payloadSize s.rx.len ≤ 50) (hq : p.length + 1 ≤ s.chan.queue.length) (hd : s.bufs.find s.rx.h = some d)
    (hdl : d.length = payloadSize s.rx.len) (hk : s.env.length + (p.length + 1 + m) ≤ k) :
    ∃ e c k' i B, runEngineFor k s = runEngineFor k' { s with
        env := e, chan := c, bufs := B, rx := { s.rx with ck := p.foldl foldByte s.rx.ck, idx := i }, st := .rCksum } ∧
      Drift s e c S ∧ 1 ≤ c.queue.length ∧ i.toNat = payloadSize s.rx.len ∧ e.length + m ≤ k' ∧
      B.find s.rx.h = some (d.take s.rx.idx.toNat ++ p) ∧ (∀ j, j ≠ s.rx.h → B.find j = s.bufs.find j) ∧
      (s.bufs.wf = true → B.wf = true) := by
  have htl : s.env.tail.length = s.env.length - 1 := by simp
  induction p generalizing k s d with
  | nil =>
    obtain ⟨k, rfl⟩ : ∃ j, k = j + 1 := ⟨k - 1, by simp at hk; omega⟩
    have hend : ¬ (moved s).rx.idx.toNat < payloadSize (moved s).rx.len := by
      show ¬ s.rx.idx.toNat < payloadSize s.rx.len
      simp at hn; omega
    refine ⟨s.env.tail, slotChan s, k, s.rx.idx, s.bufs, ?_, ?_, ?_, by simpa using hn, by simp at hk; omega, ?_,
      fun j _ => rfl, id⟩
    · refine engine_go hc (by simp [hst]) ?_
      unfold visit
      rw [show (moved s).st = .rPayload from hst]
      show visitRPayload (moved s) = _
      unfold visitRPayload
      rw [if_neg hend]
      rfl
    · have := Drift.moved s
      rw [hS, List.nil_append] at this
      exact this
    · have := slotChan_queue_length s
      simp at hq; omega
    · rw [hd, List.append_nil, List.take_of_length_le]
      simp at hn; omega
  | cons b p ih =>
    obtain ⟨k, rfl⟩ : ∃ j, k = j + 1 := ⟨k - 1, by simp at hk; omega⟩
    simp only [List.length_cons] at hn hq hk
    obtain ⟨c, hr, hdr, hl⟩ := moved_read (S := p ++ S) (by rw [hS]; rfl) (by omega)
    have hgo : (moved s).rx.idx.toNat < payloadSize (moved s).rx.len := by
      show s.rx.idx.toNat < payloadSize s.rx.len
      omega
    have hidx : (s.rx.idx + 1#6).toNat = s.rx.idx.toNat + 1 := idx_succ (by omega)
    let t : State := { s with
      env := s.env.tail, chan := c, bufs := s.bufs.put s.rx.h (d.set s.rx.idx.toNat b)
      rx := { s.rx with ck := foldByte s.rx.ck b, idx := s.rx.idx + 1#6 } }
    have hstep : runEngineFor (k + 1) s = runEngineFor k t := by
      refine engine_go hc (by simp [hst]) ?_
      unfold visit
      rw [show (moved s).st = .rPayload from hst]
      show visitRPayload (moved s) = _
      unfold visitRPayload
      rw [if_pos hgo, hr]
      have hb : bufSet (moved s).rx.h (moved s).rx.idx.toNat b { moved s with chan := c } = some { moved s with
          chan := c, bufs := s.bufs.put s.rx.h (d.set s.rx.idx.toNat b) } :=
        bufSet_eq_some.2 ⟨d, hd, by show s.rx.idx.toNat < d.length; omega, rfl⟩
      simp only
      split
      · rename_i u hu
        obtain rfl := Option.some.inj (hb.symm.trans hu)
        rfl
      · rename_i hu
        exact absurd (hb.symm.trans hu) (by simp)
    obtain ⟨e, c', k', i, B, hrun, hd', hq', hi, hk', hB, hB', hwf⟩ := ih k t (d := d.set s.rx.idx.toNat b) hst hc.tail
      hdr.str (by show (s.rx.idx + 1#6).toNat + p.length = _; rw [hidx]; show _ = payloadSize s.rx.len; omega) h50
      (by show p.length + 1 ≤ c.queue.length; omega) (Memory.find_put_same _ _ _)
      (by rw [List.length_set]; exact hdl) (by show s.env.tail.length + _ ≤ k; omega) (by simp [t])
    refine ⟨e, c', k', i, B, hstep.trans hrun, ?_, hq', hi, hk', ?_, ?_, fun h => hwf (Memory.wf_put h _ _)⟩
    · have h1 : Drift s t.env t.chan (stream t) := by
        show Drift s s.env.tail c (c.rxq ++ arrivals s.env.tail)
        rw [hdr.str]; exact hdr
      exact h1.trans hd'
    · rw [show B.find s.rx.h = some ((d.set s.rx.idx.toNat b).take (s.rx.idx + 1#6).toNat ++ p) from hB, hidx,
        take_succ_set (by omega)]
      simp
    · intro j hj
      rw [hB' j hj]
      exact Memory.find_put_of_ne _ _ hj.symm

/-- The checksum byte is read and compared (R95). -/
theorem rCksum_go {k : Nat} {s : State} {b : Byte} {S : List Byte} (hst : s.st = .rCksum) (hc : Calm s.env)
    (hS : stream s = b :: S) (h1 : 1 ≤ s.chan.queue.length) :
    ∃ c, runEngineFor (k + 1) s = runEngineFor k (if b = s.rx.ck then { s with
          env := s.env.tail, chan := c, rx := { s.rx with res := s.rx.req }
          failCause := if s.rx.req = 0x00#8 then .zeroRequest else .none, st := .rCleanup }
        else { s with env := s.env.tail, chan := c, failCause := .checksum, st := .rCleanup }) ∧
      Drift s s.env.tail c S := by
  obtain ⟨c, hr, hd, hl⟩ := moved_read hS h1
  refine ⟨c, engine_go hc (by simp [hst]) ?_, hd⟩
  unfold visit
  rw [show (moved s).st = .rCksum from hst]
  show visitRCksum (moved s) = _
  unfold visitRCksum
  rw [hr]
  show (if b = s.rx.ck then _ else _) = _
  split <;> rfl

/-- A result that is not the failure value drains nothing (R96). -/
theorem rCleanup_success {k : Nat} {s : State} (hst : s.st = .rCleanup) (hc : Calm s.env) (hr : s.rx.res ≠ 0x00#8) :
    runEngineFor (k + 1) s = runEngineFor k { moved s with st := .finish } := by
  refine engine_go hc (by simp [hst]) ?_
  unfold visit
  rw [show (moved s).st = .rCleanup from hst]
  exact if_neg (fun h => hr h.1)

/-- A failed result drains the channel until it reports nothing (R96, 40 R72). -/
theorem rCleanup_drains {m : Nat} (k : Nat) (s : State) (hst : s.st = .rCleanup) (hc : Calm s.env)
    (hr : s.rx.res = 0x00#8) (hq : 0 < s.chan.capacity) (hk : s.env.length + ((stream s).length + 1 + m) ≤ k) :
    ∃ e c k', runEngineFor k s = runEngineFor k' { s with env := e, chan := c, st := .finish } ∧
      Drift s e c (arrivals e) ∧ c.rxq = [] ∧ e.length + m ≤ k' := by
  have htl : s.env.tail.length = s.env.length - 1 := by simp
  have hv : visit (moved s) = visitRCleanup (moved s) := by
    unfold visit
    rw [show (moved s).st = .rCleanup from hst]
  induction k generalizing s with
  | zero => omega
  | succ k ih =>
    obtain ⟨ha, c, hdr, hlen, hcc⟩ | ⟨ha, hnil⟩ := moved_drain hq
    · let t : State := { moved s with chan := c }
      have hcap : c.capacity = s.chan.capacity := by rw [hcc]; exact slotChan_capacity s
      have hstep : runEngineFor (k + 1) s = runEngineFor k t := by
        refine engine_go hc (by simp [hst]) (hv.trans ?_)
        unfold visitRCleanup
        rw [if_pos ⟨hr, ha⟩, hdr]
      have hst' : (stream s).length = (stream t).length + 1 := hlen
      obtain ⟨e, c', k', hrun, hd, hnil, hk'⟩ := ih t hst hc.tail hr (by show 0 < c.capacity; omega)
        (by show s.env.tail.length + _ ≤ k; omega) (by simp [t, moved])
        (by unfold visit; rw [show (moved t).st = .rCleanup from hst])
      exact ⟨e, c', k', hstep.trans hrun, ⟨hd.env.trans (List.tail_suffix _), hd.str,
        hd.wire.trans (by show c.wireOut = _; rw [hcc]; exact slotChan_wireOut s),
        hd.txq.trans (by show c.txq <:+ _; rw [hcc]; exact slotChan_txq s), hd.cap.trans hcap⟩, hnil, hk'⟩
    · refine ⟨s.env.tail, slotChan s, k, ?_, ⟨List.tail_suffix _, by simp [hnil], slotChan_wireOut s, slotChan_txq s,
        slotChan_capacity s⟩, hnil, by omega⟩
      refine engine_go hc (by simp [hst]) (hv.trans ?_)
      exact if_neg (fun h => ha h.2)

/-- FINISH (10_state.md R24). -/
theorem finish_go {k : Nat} {s : State} (hst : s.st = .finish) (hc : Calm s.env) :
    runEngineFor (k + 1) s = .next { moved s with
      result := resultOf s, cause := s.failCause, done := true, busy := false, illegal := false, st := .idle } := by
  rw [engine_go (t := { moved s with
      result := resultOf s, cause := s.failCause, done := true, busy := false, illegal := false, st := .idle }) hc
    (by simp [hst])]
  · exact runEngineFor_idle rfl
  · unfold visit
    rw [show (moved s).st = .finish from hst]
    rfl

end Sys2Proof.Machine
end

