-- ==== Sys2Proof/Laws/RecvOutcome.lean ====
section
/-! SUPPORT. What a reception comes to in calm slots, from each of its two waits to its end, by the bytes of the receive
stream as a whole (spec/43_frame_receiver.md R98, R101). -/

namespace Sys2Proof.Machine

/-- FINISH of a reception: the state of the outputs (10_state.md R24). -/
def finished (r : Byte) (c : Cause) (s : State) : State :=
  { s with
    result := r, cause := c, failCause := c, done := true, busy := false, illegal := false, st := .idle }

theorem finished_completed (r : Byte) (c : Cause) (s : State) : Completed r c (finished r c s) :=
  ⟨rfl, rfl, rfl, rfl, rfl, rfl⟩

/-- From FINISH to the end, for the latched opcode 2. -/
theorem recv_finish {k : Nat} {s : State} (hst : s.st = .finish) (hc : Calm s.env) (hop : opField s.cmd = 2#4)
    (hk : 1 ≤ k) : runEngineFor k s = .next (finished s.rx.res s.failCause (moved s)) := by
  obtain ⟨k, rfl⟩ : ∃ j, k = j + 1 := ⟨k - 1, by omega⟩
  rw [finish_go hst hc]
  have : resultOf s = s.rx.res := by unfold resultOf; rw [hop]; rfl
  rw [this]
  rfl

/-- The slots `e` at the end of an operation that began with the slots `f` and whose drain saw the channel empty with the slots
`e'` to come: at most one has passed since (40_session_control.md R72). -/
structure DrainEnd (f e e' : List (List EnvMove)) : Prop where
  since : e' <:+ f
  left : e <:+ e'
  one : e'.length ≤ e.length + 1

theorem DrainEnd.mono {f g e e' : List (List EnvMove)} (h : DrainEnd f e e') (hf : f <:+ g) : DrainEnd g e e' :=
  ⟨h.since.trans hf, h.left, h.one⟩

/-- From a failed cleanup to the end: the channel is drained and the result is 0x00. -/
theorem recv_fails {k : Nat} {s : State} (hst : s.st = .rCleanup) (hc : Calm s.env) (hop : opField s.cmd = 2#4)
    (hr : s.rx.res = 0x00#8) (hq : 0 < s.chan.capacity) (hk : s.env.length + ((stream s).length + 2) ≤ k) :
    ∃ e c e', runEngineFor k s = .next (finished 0x00#8 s.failCause { s with env := e, chan := c }) ∧
      Drift s e c (arrivals e') ∧ DrainEnd s.env e e' := by
  obtain ⟨e, c, k', hrun, hd, hnil, hk'⟩ := rCleanup_drains (m := 1) k s hst hc hr hq (by omega)
  let t : State := { s with env := e, chan := c, st := .finish }
  have hfin := recv_finish (k := k') (s := t) rfl (hd.calm hc) hop (by omega)
  refine ⟨e.tail, slotChan t, e, hrun.trans (hfin.trans ?_), ⟨(List.tail_suffix _).trans hd.env, ?_,
    (slotChan_wireOut t).trans hd.wire, (slotChan_txq t).trans hd.txq, (slotChan_capacity t).trans hd.cap⟩,
    hd.env, List.tail_suffix _, by simp; omega⟩
  · show Host.Outcome.next (finished s.rx.res _ _) = _
    rw [hr]
    rfl
  · rw [show (slotChan t).rxq ++ arrivals e.tail = stream t from slotChan_stream t]
    show c.rxq ++ arrivals e = arrivals e
    rw [hnil, List.nil_append]

/-- From a cleanup that has a result to the end: nothing more is read. -/
theorem recv_succeeds {k : Nat} {s : State} (hst : s.st = .rCleanup) (hc : Calm s.env) (hop : opField s.cmd = 2#4)
    (hr : s.rx.res ≠ 0x00#8) (hk : 2 ≤ k) :
    ∃ e c, runEngineFor k s = .next (finished s.rx.res s.failCause { s with env := e, chan := c }) ∧
      Drift s e c (stream s) := by
  obtain ⟨k, rfl⟩ : ∃ j, k = j + 1 := ⟨k - 1, by omega⟩
  let t : State := { moved s with st := .finish }
  have hfin := recv_finish (k := k) (s := t) rfl hc.tail hop (by omega)
  refine ⟨t.env.tail, slotChan t, (rCleanup_success hst hc hr).trans (hfin.trans rfl), ?_⟩
  have h1 : Drift s t.env t.chan (stream t) := by
    have := Drift.moved s
    rwa [show stream s = stream t from (slotChan_stream s).symm] at this
  have := h1.trans (Drift.moved t)
  rwa [show stream t = stream s from slotChan_stream s] at this

/-- The receiver's registers after a whole frame has been read. -/
def Rx.readFrame (r : Rx) (p : List Byte) (i : BitVec 6) (b : Byte) : Rx :=
  { r with
    ck := p.foldl foldByte r.ck, idx := i
    res := if b = p.foldl foldByte r.ck then r.req else r.res }

/-- The cause a whole frame leaves. -/
def frameCause (req ck b : Byte) : Cause :=
  if b = ck then (if req = 0x00#8 then .zeroRequest else .none) else .checksum

/-- From R_RESIZE, answered true, to the end, when the payload `p` and the byte `b` taken as the checksum come next in the
stream (R93 to R97). -/
theorem resize_then_frame {k : Nat} {s : State} {p S : List Byte} {b : Byte} (hst : s.st = .rResize) (hc : Calm s.env)
    (hop : opField s.cmd = 2#4) (hv : bufValid s.rx.h s = true) (ha : (drawResize s).1 = true)
    (hS : stream s = p ++ b :: S) (hp : p.length = payloadSize s.rx.len) (h50 : p.length ≤ 50)
    (hq : p.length + 1 ≤ s.chan.queue.length) (hi : s.rx.idx = 0#6) (hr : s.rx.res = 0x00#8)
    (hk : s.env.length + ((stream s).length + 10) ≤ k) :
    ∃ e c i B R, runEngineFor k s = .next (finished (s.rx.readFrame p i b).res
          (frameCause s.rx.req (p.foldl foldByte s.rx.ck) b) { s with
        env := e, chan := c, bufs := B, rx := s.rx.readFrame p i b
        answers := (drawResize s).2.answers, freeCtr := (drawResize s).2.freeCtr + p.length }) ∧
      Drift s e c R ∧ ((s.rx.readFrame p i b).res ≠ 0x00#8 → R = S) ∧
      ((s.rx.readFrame p i b).res = 0x00#8 → ∃ e', DrainEnd s.env e e' ∧ R = arrivals e') ∧
      i.toNat = p.length ∧ B.find s.rx.h = some p ∧ (∀ j, j ≠ s.rx.h → B.find j = s.bufs.find j) ∧
      (s.bufs.wf = true → B.wf = true) := by
  have htl : s.env.tail.length = s.env.length - 1 := by simp
  have hSl : (stream s).length = p.length + S.length + 1 := by rw [hS]; simp; omega
  obtain ⟨k, rfl⟩ : ∃ j, k = j + 1 := ⟨k - 1, by omega⟩
  have hrun1 := rResize_true (k := k) hst hc hv ha
  -- the payload
  let s1 : State := { resized s.rx.h (payloadSize s.rx.len) s with
    env := s.env.tail, chan := slotChan s, st := .rPayload }
  have hs1 : stream s1 = stream s := slotChan_stream s
  obtain ⟨e2, c2, k2, i, B, hrun2, hd2, hq2, hi2, hk2, hB, hB', hwf⟩ := rPayload_loop p (m := S.length + 5) k s1
    (S := b :: S) (d := freeBytes (drawResize s).2.freeCtr (payloadSize s.rx.len)) rfl hc.tail
    (by rw [hs1, hS]) (by show s.rx.idx.toNat + p.length = payloadSize s.rx.len; rw [hi, hp]; simp)
    (by show payloadSize s.rx.len ≤ 50; omega)
    (by show p.length + 1 ≤ (slotChan s).queue.length; exact hq.trans (slotChan_queue_length s))
    (Memory.find_put_same _ _ _) (length_freeBytes _ _) (by show s.env.tail.length + _ ≤ k; omega)
  -- the checksum byte
  obtain ⟨k2, rfl⟩ : ∃ j, k2 = j + 1 := ⟨k2 - 1, by omega⟩
  let s2 : State := { s1 with
    env := e2, chan := c2, bufs := B, rx := { s1.rx with ck := p.foldl foldByte s1.rx.ck, idx := i }, st := .rCksum }
  have hd1 : Drift s s1.env s1.chan (stream s1) := by rw [hs1]; exact Drift.moved s
  have hd12 : Drift s e2 c2 (b :: S) := hd1.trans hd2
  have hc2 : Calm e2 := hd12.calm hc
  obtain ⟨c3, hrun3, hd3⟩ := rCksum_go (k := k2) (s := s2) rfl hc2 (hd2.str) hq2
  have hd13 : Drift s e2.tail c3 S :=
    ⟨(List.tail_suffix _).trans hd12.env, hd3.str, hd3.wire.trans hd12.wire, hd3.txq.trans hd12.txq, hd3.cap.trans hd12.cap⟩
  have hq0 : 0 < s.chan.capacity := by rw [queue_length] at hq; omega
  have hq3 : 0 < c3.capacity := by rw [hd13.cap]; exact hq0
  have hc3 : Calm e2.tail := hc2.tail
  have htl2 : e2.tail.length = e2.length - 1 := by simp
  have hrun := (hrun1.trans hrun2).trans hrun3
  have hi' : i.toNat = p.length := hi2.trans hp.symm
  have hB1 : B.find s.rx.h = some p := by
    have : s1.rx.idx = 0#6 := hi
    rw [this] at hB
    rw [show s.rx.h = s1.rx.h from rfl, hB]
    simp
  have hB2 : ∀ j, j ≠ s.rx.h → B.find j = s.bufs.find j := fun j hj =>
    (hB' j hj).trans (Memory.find_put_of_ne _ _ hj.symm)
  have hwf' : s.bufs.wf = true → B.wf = true := fun h => hwf (Memory.wf_put h _ _)
  by_cases hb : b = p.foldl foldByte s.rx.ck
  · rw [if_pos (show b = s2.rx.ck from hb)] at hrun
    let s3 : State := { s2 with
      env := e2.tail, chan := c3, rx := { s2.rx with res := s2.rx.req }
      failCause := if s2.rx.req = 0x00#8 then .zeroRequest else .none, st := .rCleanup }
    have hres : (s.rx.readFrame p i b).res = s.rx.req := if_pos hb
    have hcause : frameCause s.rx.req (p.foldl foldByte s.rx.ck) b =
        if s.rx.req = 0x00#8 then .zeroRequest else .none := if_pos hb
    have hrx : s.rx.readFrame p i b = { s2.rx with res := s2.rx.req } := by
      unfold Rx.readFrame
      rw [if_pos hb]
      rfl
    have hs3 : stream s3 = S := hd3.str
    by_cases hreq : s.rx.req = 0x00#8
    · obtain ⟨e4, c4, e', hrun4, hd4, he'⟩ := recv_fails (k := k2) (s := s3) rfl hc3 hop hreq hq3
        (by rw [hs3]; show e2.tail.length + _ ≤ k2; omega)
      refine ⟨e4, c4, i, B, arrivals e', (hrun.trans hrun4).trans ?_, ?_, ?_, fun _ => ⟨e', ?_, rfl⟩, hi', hB1, hB2, hwf'⟩
      · rw [hres, hcause, hrx, hreq, if_pos rfl, hp]
        show Host.Outcome.next (finished 0x00#8 (if s.rx.req = 0x00#8 then .zeroRequest else .none) _) = _
        rw [if_pos hreq]
        rfl
      · have h3 : Drift s s3.env s3.chan (stream s3) := by rw [hs3]; exact hd13
        exact h3.trans hd4
      · intro h; exact absurd (hres.trans hreq) h
      · exact he'.mono hd13.env
    · obtain ⟨e4, c4, hrun4, hd4⟩ := recv_succeeds (k := k2) (s := s3) rfl hc3 hop hreq (by omega)
      refine ⟨e4, c4, i, B, S, (hrun.trans hrun4).trans ?_, ?_, fun _ => rfl, ?_, hi', hB1, hB2, hwf'⟩
      · rw [hres, hcause, hrx, if_neg hreq, hp]
        show Host.Outcome.next (finished s.rx.req (if s.rx.req = 0x00#8 then .zeroRequest else .none) _) = _
        rw [if_neg hreq]
        rfl
      · have h3 : Drift s s3.env s3.chan (stream s3) := by rw [hs3]; exact hd13
        have := h3.trans hd4
        rwa [hs3] at this
      · intro h; exact absurd (hres.symm.trans h) hreq
  · rw [if_neg (show ¬ b = s2.rx.ck from hb)] at hrun
    let s3 : State := { s2 with env := e2.tail, chan := c3, failCause := .checksum, st := .rCleanup }
    have hres : (s.rx.readFrame p i b).res = 0x00#8 := (if_neg hb).trans hr
    have hcause : frameCause s.rx.req (p.foldl foldByte s.rx.ck) b = .checksum := if_neg hb
    have hrx : s.rx.readFrame p i b = s2.rx := by
      unfold Rx.readFrame
      rw [if_neg hb]
      rfl
    have hs3 : stream s3 = S := hd3.str
    obtain ⟨e4, c4, e', hrun4, hd4, he'⟩ := recv_fails (k := k2) (s := s3) rfl hc3 hop hr hq3
      (by rw [hs3]; show e2.tail.length + _ ≤ k2; omega)
    refine ⟨e4, c4, i, B, arrivals e', (hrun.trans hrun4).trans ?_, ?_, ?_, fun _ => ⟨e', ?_, rfl⟩, hi', hB1, hB2, hwf'⟩
    · rw [hres, hcause, hrx, hp]
      rfl
    · have h3 : Drift s s3.env s3.chan (stream s3) := by rw [hs3]; exact hd13
      exact h3.trans hd4
    · intro h; exact absurd hres h
    · exact he'.mono hd13.env

/-- From R_RESIZE, answered false, to the end (R93, 93 U6). -/
theorem resize_refused {k : Nat} {s : State} (hst : s.st = .rResize) (hc : Calm s.env) (hop : opField s.cmd = 2#4)
    (hv : bufValid s.rx.h s = true) (ha : (drawResize s).1 = false) (hr : s.rx.res = 0x00#8) (hq : 0 < s.chan.capacity)
    (hk : s.env.length + ((stream s).length + 10) ≤ k) :
    ∃ e c e', runEngineFor k s = .next (finished 0x00#8 .resizeFail { notResized s.rx.h s with
        env := e, chan := c }) ∧
      Drift s e c (arrivals e') ∧ DrainEnd s.env e e' := by
  have htl : s.env.tail.length = s.env.length - 1 := by simp
  obtain ⟨k, rfl⟩ : ∃ j, k = j + 1 := ⟨k - 1, by omega⟩
  let s1 : State := { notResized s.rx.h s with
    env := s.env.tail, chan := slotChan s, failCause := .resizeFail, st := .rCleanup }
  have hs1 : stream s1 = stream s := slotChan_stream s
  obtain ⟨e, c, e', hrun, hd, he'⟩ := recv_fails (k := k) (s := s1) rfl hc.tail hop hr
    (by show 0 < (slotChan s).capacity; rw [slotChan_capacity]; exact hq) (by rw [hs1]; show s.env.tail.length + _ ≤ k; omega)
  refine ⟨e, c, e', ((rResize_false hst hc hv ha).trans hrun).trans ?_, ?_, he'.mono (List.tail_suffix _)⟩
  · rfl
  · have h1 : Drift s s1.env s1.chan (stream s1) := by rw [hs1]; exact Drift.moved s
    exact h1.trans hd

/-- A reception that stands at the wait of step 5 (R92): the header is read and its length is good. -/
structure AtFrame (z : State) : Prop where
  st : z.st = .rWaitFrame
  calm : Calm z.env
  op : opField z.cmd = 2#4
  valid : bufValid z.rx.h z = true
  idx : z.rx.idx = 0#6
  res : z.rx.res = 0x00#8
  len : validLength z.rx.len = true

/-- A reception that stands at the wait of step 1 (R88). -/
structure AtMin (y : State) : Prop where
  st : y.st = .rWaitMin
  calm : Calm y.env
  op : opField y.cmd = 2#4
  valid : bufValid y.rx.h y = true
  idx : y.rx.idx = 0#6
  res : y.rx.res = 0x00#8

theorem AtFrame.len_toNat {z : State} (h : AtFrame z) : z.rx.len.toNat = payloadSize z.rx.len + 1 := by
  have := (validLength_iff _).1 h.len
  unfold payloadSize
  omega

theorem AtFrame.size_le {z : State} (h : AtFrame z) : payloadSize z.rx.len ≤ 50 := by
  have := (validLength_iff _).1 h.len
  unfold payloadSize
  omega

/-- Too few bytes for the frame, or too short a queue: the reception rests in R_WAIT_FRAME (R92, R99). -/
theorem frame_rests {k : Nat} {z : State} (h : AtFrame z)
    (hS : (stream z).length < z.rx.len.toNat ∨ z.chan.capacity < z.rx.len.toNat) (hk : z.env.length + 32 ≤ k) :
    ∃ c, runEngineFor k z = .next { z with pollT := Config.pollInterval, env := [], chan := c } ∧
      Drift z [] c (stream z) ∧ (z.env = [] → c = z.chan) := rWaitFrame_rests h.st h.calm hS hk

/-- The frame is there and the buffer takes it: the reception runs to its end (R93 to R97). -/
theorem frame_received {k : Nat} {z : State} {p S : List Byte} {b : Byte} (h : AtFrame z)
    (ha : (drawResize z).1 = true) (hS : stream z = p ++ b :: S) (hp : p.length = payloadSize z.rx.len)
    (hq : z.rx.len.toNat ≤ z.chan.capacity) (hk : z.env.length + ((stream z).length + 50) ≤ k) :
    ∃ e c i B R, runEngineFor k z = .next (finished (z.rx.readFrame p i b).res
          (frameCause z.rx.req (p.foldl foldByte z.rx.ck) b) { z with
        env := e, chan := c, bufs := B, rx := z.rx.readFrame p i b, pollT := 0#5
        answers := (drawResize z).2.answers, freeCtr := (drawResize z).2.freeCtr + p.length }) ∧
      Drift z e c R ∧ ((z.rx.readFrame p i b).res ≠ 0x00#8 → R = S) ∧
      ((z.rx.readFrame p i b).res = 0x00#8 → ∃ e', DrainEnd z.env e e' ∧ R = arrivals e') ∧
      i.toNat = p.length ∧ B.find z.rx.h = some p ∧ (∀ j, j ≠ z.rx.h → B.find j = z.bufs.find j) ∧
      (z.bufs.wf = true → B.wf = true) := by
  have hlen := h.len_toNat
  have hsz := h.size_le
  have hSl := congrArg List.length hS
  rw [List.length_append, List.length_cons] at hSl
  obtain ⟨e1, c1, k1, hrun1, hd1, hq1, hk1⟩ := rWaitFrame_ends (k := k) (m := (stream z).length + 10) h.st h.calm
    (by omega) hq (by omega)
  let w : State := { z with st := .rResize, pollT := 0#5, env := e1, chan := c1 }
  have hw : stream w = stream z := hd1.str
  obtain ⟨-, hans, hctr⟩ := drawResize_congr (s := z) (t := w) rfl rfl
  obtain ⟨e, c, i, B, R, hrun2, hd2, h1, h2, h3, h4, h5, h6⟩ := resize_then_frame (k := k1) (s := w) (p := p) (b := b)
    (S := S) rfl (hd1.calm h.calm) h.op h.valid ((drawResize_congr (s := z) (t := w) rfl rfl).1.trans ha)
    (hw.trans hS) hp (by omega) (by show p.length + 1 ≤ c1.queue.length; omega) h.idx h.res
    (by rw [hw]; show e1.length + _ ≤ k1; omega)
  refine ⟨e, c, i, B, R, (hrun1.trans hrun2).trans ?_, ?_, h1, ?_, h3, h4, h5, h6⟩
  · rw [hans, hctr]
    rfl
  · have hz : Drift z w.env w.chan (stream w) := by rw [hw]; exact hd1
    exact hz.trans hd2
  · intro hr
    obtain ⟨e', he', hR⟩ := h2 hr
    exact ⟨e', he'.mono hd1.env, hR⟩

/-- The frame is there and the buffer refuses its size: the reception fails and drains (R93). -/
theorem frame_refused {k : Nat} {z : State} (h : AtFrame z) (ha : (drawResize z).1 = false)
    (hS : z.rx.len.toNat ≤ (stream z).length) (hq : z.rx.len.toNat ≤ z.chan.capacity) (hk : z.env.length + ((stream z).length + 50) ≤ k) :
    ∃ e c e', runEngineFor k z = .next (finished 0x00#8 .resizeFail { notResized z.rx.h z with
        env := e, chan := c, pollT := 0#5 }) ∧
      Drift z e c (arrivals e') ∧ DrainEnd z.env e e' := by
  obtain ⟨e1, c1, k1, hrun1, hd1, hq1, hk1⟩ := rWaitFrame_ends (k := k) (m := (stream z).length + 10) h.st h.calm hS hq
    (by omega)
  let w : State := { z with st := .rResize, pollT := 0#5, env := e1, chan := c1 }
  have hw : stream w = stream z := hd1.str
  obtain ⟨-, hans, hctr⟩ := drawResize_congr (s := z) (t := w) rfl rfl
  obtain ⟨e, c, e', hrun2, hd2, he'⟩ := resize_refused (k := k1) (s := w) rfl (hd1.calm h.calm) h.op h.valid
    ((drawResize_congr (s := z) (t := w) rfl rfl).1.trans ha) h.res
    (by show 0 < c1.capacity; rw [hd1.cap]; have := h.len_toNat; omega) (by rw [hw]; show e1.length + _ ≤ k1; omega)
  refine ⟨e, c, e', (hrun1.trans hrun2).trans ?_, ?_, he'.mono hd1.env⟩
  · unfold notResized
    rw [hans, hctr]
    rfl
  · have hz : Drift z w.env w.chan (stream w) := by rw [hw]; exact hd1
    exact hz.trans hd2

/-- Too few bytes to begin, or too short a queue: the reception rests in R_WAIT_MIN (R88, R99). -/
theorem min_rests {k : Nat} {y : State} (h : AtMin y) (hS : (stream y).length < 4 ∨ y.chan.capacity < 4)
    (hk : y.env.length + 32 ≤ k) :
    ∃ c, runEngineFor k y = .next { y with pollT := Config.pollInterval, env := [], chan := c } ∧
      Drift y [] c (stream y) ∧ (y.env = [] → c = y.chan) := rWaitMin_rests h.st h.calm hS hk

/-- The receiver's registers after the two header bytes (R89, R90). -/
def Rx.readHeader (r : Rx) (req len : Byte) : Rx :=
  { r with req := req, len := len, ck := foldByte (foldByte r.ck req) len }

/-- Four bytes are there or come: the two header bytes are read (R88 to R90). -/
theorem min_header {m k : Nat} {y : State} {r l : Byte} {S : List Byte} (h : AtMin y) (hS : stream y = r :: l :: S)
    (h2 : 2 ≤ S.length) (hq : 4 ≤ y.chan.capacity) (hk : y.env.length + (m + 34) ≤ k) :
    ∃ e c k', runEngineFor k y = runEngineFor k' { y with
        st := .rValidate, pollT := 0#5, env := e, chan := c, rx := y.rx.readHeader r l } ∧
      Drift y e c S ∧ e.length + m ≤ k' := by
  have hSl := congrArg List.length hS
  simp only [List.length_cons] at hSl
  obtain ⟨e1, c1, k1, hrun1, hd1, hq1, hk1⟩ := rWaitMin_ends (k := k) (m := m + 2) h.st h.calm (by omega) hq
    (by omega)
  obtain ⟨k1, rfl⟩ : ∃ j, k1 = j + 2 := ⟨k1 - 2, by omega⟩
  let w1 : State := { y with st := .rReq, pollT := 0#5, env := e1, chan := c1 }
  have hc1 : Calm e1 := hd1.calm h.calm
  obtain ⟨c2, hrun2, hd2, hq2⟩ := rReq_go (k := k1 + 1) (s := w1) (b := r) (S := l :: S) rfl hc1
    (hd1.str.trans hS) (by show 1 ≤ c1.queue.length; omega)
  let w2 : State := { w1 with
    env := e1.tail, chan := c2, rx := { w1.rx with req := r, ck := foldByte w1.rx.ck r }, st := .rLen }
  obtain ⟨c3, hrun3, hd3, hq3⟩ := rLen_go (k := k1) (s := w2) (b := l) (S := S) rfl hc1.tail hd2.str
    (by show 1 ≤ c2.queue.length
        have : c1.queue.length ≤ c2.queue.length + 1 := hq2
        omega)
  refine ⟨e1.tail.tail, c3, k1, ((hrun1.trans hrun2).trans hrun3).trans rfl, ?_, ?_⟩
  · have hd12 : Drift y w2.env w2.chan (stream w2) := by
      rw [show stream w2 = l :: S from hd2.str]
      exact ⟨hd2.env.trans hd1.env, hd2.str, hd2.wire.trans hd1.wire, hd2.txq.trans hd1.txq, hd2.cap.trans hd1.cap⟩
    exact hd12.trans hd3
  · simp; omega

/-- A bad length byte: the reception fails and drains (R91). -/
theorem min_bad_length {k : Nat} {y : State} {r l : Byte} {S : List Byte} (h : AtMin y)
    (hS : stream y = r :: l :: S) (h2 : 2 ≤ S.length) (hl : validLength l = false)
    (hq : 4 ≤ y.chan.capacity) (hk : y.env.length + ((stream y).length + 50) ≤ k) :
    ∃ e c e', runEngineFor k y = .next (finished 0x00#8 .badLength { y with
        env := e, chan := c, pollT := 0#5, rx := y.rx.readHeader r l }) ∧
      Drift y e c (arrivals e') ∧ DrainEnd y.env e e' := by
  have hSl := congrArg List.length hS
  simp only [List.length_cons] at hSl
  obtain ⟨e1, c1, k1, hrun1, hd1, hk1⟩ := min_header (k := k) (m := S.length + 3) h hS h2 hq (by omega)
  obtain ⟨k1, rfl⟩ : ∃ j, k1 = j + 1 := ⟨k1 - 1, by omega⟩
  let w : State := { y with st := .rValidate, pollT := 0#5, env := e1, chan := c1, rx := y.rx.readHeader r l }
  have hc1 : Calm e1 := hd1.calm h.calm
  have hrun2 := rValidate_bad (k := k1) (s := w) rfl hc1 hl
  let v : State := { moved w with failCause := .badLength, st := .rCleanup }
  have hv : stream v = S := (slotChan_stream w).trans hd1.str
  have htl : e1.tail.length = e1.length - 1 := by simp
  obtain ⟨e, c, e', hrun3, hd3, he'⟩ := recv_fails (k := k1) (s := v) rfl hc1.tail h.op h.res
    (by show 0 < (slotChan w).capacity; rw [slotChan_capacity]; show 0 < c1.capacity; rw [hd1.cap]; omega) (by rw [hv]; show e1.tail.length + _ ≤ k1; omega)
  refine ⟨e, c, e', ((hrun1.trans hrun2).trans hrun3).trans rfl, ?_, (he'.mono (List.tail_suffix _)).mono hd1.env⟩
  have hw : Drift y w.env w.chan (stream w) := by rw [show stream w = S from hd1.str]; exact hd1
  have hwv : Drift w v.env v.chan (stream v) := by
    have := Drift.moved w
    rwa [show stream w = stream v from (slotChan_stream w).symm] at this
  exact (hw.trans hwv).trans hd3

/-- A good length byte: the reception comes to the wait of step 5 (R91). -/
theorem min_to_frame {m k : Nat} {y : State} {r l : Byte} {S : List Byte} (h : AtMin y)
    (hS : stream y = r :: l :: S) (h2 : 2 ≤ S.length) (hl : validLength l = true)
    (hq : 4 ≤ y.chan.capacity) (hk : y.env.length + (m + 35) ≤ k) :
    ∃ e c k', runEngineFor k y = runEngineFor k' { y with
        st := .rWaitFrame, env := e, chan := c, pollT := 0#5, rx := y.rx.readHeader r l } ∧
      Drift y e c S ∧ e.length + m ≤ k' ∧
      AtFrame { y with st := .rWaitFrame, env := e, chan := c, pollT := 0#5, rx := y.rx.readHeader r l } := by
  obtain ⟨e1, c1, k1, hrun1, hd1, hk1⟩ := min_header (k := k) (m := m + 1) h hS h2 hq (by omega)
  obtain ⟨k1, rfl⟩ : ∃ j, k1 = j + 1 := ⟨k1 - 1, by omega⟩
  let w : State := { y with st := .rValidate, pollT := 0#5, env := e1, chan := c1, rx := y.rx.readHeader r l }
  have hc1 : Calm e1 := hd1.calm h.calm
  have hrun2 := rValidate_ok (k := k1) (s := w) rfl hc1 hl
  refine ⟨e1.tail, slotChan w, k1, (hrun1.trans hrun2).trans rfl, ?_, by simp; omega,
    ⟨rfl, hc1.tail, h.op, h.valid, h.idx, h.res, hl⟩⟩
  have hw : Drift y w.env w.chan (stream w) := by rw [show stream w = S from hd1.str]; exact hd1
  have := hw.trans (Drift.moved w)
  rwa [show stream w = S from hd1.str] at this

/-- `RECV` accepted: the state at the wait of step 1. -/
def recvStarted (h : Handle) (s : State) : State :=
  { accept (encode (.recv h)) .rWaitMin s with rx := s.rx.started h }

theorem budget_after_visit {e e' S n : Nat} (he : e' = e - 1) (hn : e + S + 200 ≤ n + 1) : e' + (S + 199) ≤ n := by
  omega

/-- `RECV` with a valid handle comes to the wait of step 1 (R86, R87). -/
theorem exec_recv_starts {s : State} {h : Handle} (hb : s.busy = false) (hs : s.bound = true) (hc : Calm s.env)
    (hv : bufValid h s = true) :
    ∃ k, exec (.recv h) s = runEngineFor k { recvStarted h s with env := s.env.tail, chan := slotChan s } ∧
      s.env.tail.length + ((stream s).length + 199) ≤ k ∧
      AtMin { recvStarted h s with env := s.env.tail, chan := slotChan s } := by
  let a := accept (encode (.recv h)) .rCheck s
  have key : ∀ n, s.env.length + (stream s).length + 200 ≤ n →
      ∃ k, runEngineFor n a = runEngineFor k { recvStarted h s with env := s.env.tail, chan := slotChan s } ∧
        s.env.tail.length + ((stream s).length + 199) ≤ k := by
    intro n hn
    obtain ⟨k, rfl⟩ : ∃ j, n = j + 1 := ⟨n - 1, by omega⟩
    refine ⟨k, ?_, budget_after_visit List.length_tail hn⟩
    rw [rCheck_valid (s := a) rfl hc (by
      show bufValid (handleOf (encode (.recv h))) a = true
      rw [handleOf_encode]
      exact hv)]
    show runEngineFor k { moved a with rx := s.rx.started (handleOf (encode (.recv h))), st := .rWaitMin } = _
    rw [handleOf_encode]
    rfl
  obtain ⟨k, hrun, hk⟩ := key (visitBudget a) (visitBudget_ge a)
  refine ⟨k, ?_, hk, ⟨rfl, hc.tail, opField_encode _, hv, rfl, rfl⟩⟩
  rw [exec_recv, ← hrun]
  unfold execRecv
  rw [if_neg (by simp [hb]), if_pos hs]
  rfl

end Sys2Proof.Machine
end

