-- ==== Sys2Proof/Laws/RecvExec.lean ====
section
/-! SUPPORT. Everything `RECV` can come to in calm slots, as one case distinction (spec/43_frame_receiver.md R98): from each
of its two waits, and for the operation as a whole. -/

namespace Sys2Proof.Machine

/-- Everything a reception that stands at the wait of step 5 can come to (R92 to R97). -/
inductive FrameOutcome (z t : State) : Prop
  /-- Too few bytes, or too short a queue: it rests in R_WAIT_FRAME. -/
  | rests (c : Chan) (short : (stream z).length < z.rx.len.toNat ∨ z.chan.capacity < z.rx.len.toNat)
      (eq : t = { z with pollT := Config.pollInterval, env := [], chan := c }) (drift : Drift z [] c (stream z))
      (still : z.env = [] → c = z.chan)
  /-- The buffer refuses the size. -/
  | refused (e : List (List EnvMove)) (c : Chan) (e' : List (List EnvMove)) (enough : z.rx.len.toNat ≤ (stream z).length)
      (answer : (drawResize z).1 = false)
      (eq : t = finished 0x00#8 .resizeFail { notResized z.rx.h z with env := e, chan := c, pollT := 0#5 })
      (drift : Drift z e c (arrivals e')) (later : DrainEnd z.env e e') (room : z.rx.len.toNat ≤ z.chan.capacity)
  /-- A whole frame is read. -/
  | frame (p : List Byte) (b : Byte) (S : List Byte) (e : List (List EnvMove)) (c : Chan) (i : BitVec 6) (B : Memory)
      (R : List Byte) (answer : (drawResize z).1 = true) (str : stream z = p ++ b :: S)
      (size : p.length = payloadSize z.rx.len)
      (eq : t = finished (z.rx.readFrame p i b).res (frameCause z.rx.req (p.foldl foldByte z.rx.ck) b) { z with
        env := e, chan := c, bufs := B, rx := z.rx.readFrame p i b, pollT := 0#5
        answers := (drawResize z).2.answers, freeCtr := (drawResize z).2.freeCtr + p.length })
      (drift : Drift z e c R) (good : (z.rx.readFrame p i b).res ≠ 0x00#8 → R = S)
      (bad : (z.rx.readFrame p i b).res = 0x00#8 → ∃ e', DrainEnd z.env e e' ∧ R = arrivals e')
      (idx : i.toNat = p.length) (here : B.find z.rx.h = some p) (others : ∀ j, j ≠ z.rx.h → B.find j = z.bufs.find j)
      (room : z.rx.len.toNat ≤ z.chan.capacity)

theorem frame_outcome {k : Nat} {z : State} (h : AtFrame z) (hk : z.env.length + ((stream z).length + 50) ≤ k) :
    ∃ t, runEngineFor k z = .next t ∧ FrameOutcome z t := by
  have hlen := h.len_toNat
  by_cases hS : (stream z).length < z.rx.len.toNat ∨ z.chan.capacity < z.rx.len.toNat
  · obtain ⟨c, hr, hd, hc⟩ := frame_rests (k := k) h hS (by omega)
    exact ⟨_, hr, .rests c hS rfl hd hc⟩
  · cases ha : (drawResize z).1 with
    | false =>
      obtain ⟨e, c, e', hr, hd, he⟩ := frame_refused (k := k) h ha (by omega) (by omega) hk
      exact ⟨_, hr, .refused e c e' (by omega) ha rfl hd he (by omega)⟩
    | true =>
      have hlt : payloadSize z.rx.len < (stream z).length := by omega
      have hstr : stream z = (stream z).take (payloadSize z.rx.len) ++
          (stream z)[payloadSize z.rx.len] :: (stream z).drop (payloadSize z.rx.len + 1) := by
        rw [← List.drop_eq_getElem_cons hlt, List.take_append_drop]
      have hp : ((stream z).take (payloadSize z.rx.len)).length = payloadSize z.rx.len := by
        rw [List.length_take]; omega
      obtain ⟨e, c, i, B, R, hr, hd, h1, h2, h3, h4, h5, -⟩ := frame_received (k := k) h ha hstr hp (by omega) hk
      exact ⟨_, hr, .frame _ _ _ e c i B R ha hstr hp rfl hd h1 h2 h3 h4 h5 (by omega)⟩

/-- A reception that stood at the wait of step 1 in `y` and now stands at the wait of step 5, the two header bytes read. -/
def State.headerRead (y : State) (r l : Byte) (e : List (List EnvMove)) (c : Chan) : State :=
  { y with st := .rWaitFrame, env := e, chan := c, pollT := 0#5, rx := y.rx.readHeader r l }

theorem drawResize_headerRead (y : State) (r l : Byte) (e : List (List EnvMove)) (c : Chan) :
    (drawResize (y.headerRead r l e c)).1 = (drawResize y).1 ∧
      (drawResize (y.headerRead r l e c)).2.answers = (drawResize y).2.answers ∧
      (drawResize (y.headerRead r l e c)).2.freeCtr = (drawResize y).2.freeCtr := drawResize_congr rfl rfl

/-- What an answer of `resize` takes from the script. -/
theorem drawResize_answers (s : State) :
    (drawResize s).2.answers.resizeOk = s.answers.resizeOk.tail ∧ (drawResize s).2.answers.alloc = s.answers.alloc := by
  unfold drawResize
  cases h : s.answers.resizeOk <;> simp [h]

/-- Everything a reception that stands at the wait of step 1 can come to (R88 to R97). -/
inductive MinOutcome (y t : State) : Prop
  /-- Too few bytes, or too short a queue: it rests in R_WAIT_MIN. -/
  | rests (c : Chan) (short : (stream y).length < 4 ∨ y.chan.capacity < 4)
      (eq : t = { y with pollT := Config.pollInterval, env := [], chan := c }) (drift : Drift y [] c (stream y))
      (still : y.env = [] → c = y.chan)
  /-- A bad length byte. -/
  | badLength (r l : Byte) (S : List Byte) (e : List (List EnvMove)) (c : Chan) (e' : List (List EnvMove))
      (str : stream y = r :: l :: S) (two : 2 ≤ S.length) (length : validLength l = false)
      (eq : t = finished 0x00#8 .badLength { y with env := e, chan := c, pollT := 0#5, rx := y.rx.readHeader r l })
      (drift : Drift y e c (arrivals e')) (later : DrainEnd y.env e e') (room : 4 ≤ y.chan.capacity)
  /-- A good length byte: what comes of it is what comes of the wait of step 5. -/
  | frame (r l : Byte) (S : List Byte) (e : List (List EnvMove)) (c : Chan) (str : stream y = r :: l :: S)
      (two : 2 ≤ S.length) (length : validLength l = true) (drift : Drift y e c S)
      (start : AtFrame (y.headerRead r l e c))
      (next : FrameOutcome (y.headerRead r l e c) t) (room : 4 ≤ y.chan.capacity)

theorem min_outcome {k : Nat} {y : State} (h : AtMin y) (hk : y.env.length + ((stream y).length + 100) ≤ k) :
    ∃ t, runEngineFor k y = .next t ∧ MinOutcome y t := by
  by_cases hS : (stream y).length < 4 ∨ y.chan.capacity < 4
  · obtain ⟨c, hr, hd, hc⟩ := min_rests (k := k) h hS (by omega)
    exact ⟨_, hr, .rests c hS rfl hd hc⟩
  · match hs : stream y with
    | [] => simp [hs] at hS
    | [_] => simp [hs] at hS
    | r :: l :: S =>
      have h2 : 2 ≤ S.length := by simp [hs] at hS; omega
      have hSl := congrArg List.length hs
      simp only [List.length_cons] at hSl
      cases hl : validLength l with
      | false =>
        obtain ⟨e, c, e', hr, hd, he⟩ := min_bad_length (k := k) h hs h2 hl (by omega) (by omega)
        exact ⟨_, hr, .badLength r l S e c e' hs h2 hl rfl hd he (by omega)⟩
      | true =>
        obtain ⟨e, c, k', hr, hd, hk', hz⟩ := min_to_frame (k := k) (m := S.length + 50) h hs h2 hl
          (by omega) (by omega)
        obtain ⟨t, hr2, ht⟩ := frame_outcome (k := k') hz (by
          have : stream (y.headerRead r l e c) = S := hd.str
          show e.length + ((stream (y.headerRead r l e c)).length + 50) ≤ k'
          rw [this]
          exact hk')
        exact ⟨t, hr.trans hr2, .frame r l S e c hs h2 hl hd hz ht (by omega)⟩

/-- The state at the wait of step 1 in the slot of R_CHECK. -/
def atMin (h : Handle) (s : State) : State := { recvStarted h s with env := s.env.tail, chan := slotChan s }

theorem drawResize_atMin (h : Handle) (s : State) :
    (drawResize (atMin h s)).1 = (drawResize s).1 ∧ (drawResize (atMin h s)).2.answers = (drawResize s).2.answers ∧
      (drawResize (atMin h s)).2.freeCtr = (drawResize s).2.freeCtr := drawResize_congr rfl rfl

theorem capacity_atMin (h : Handle) (s : State) : (atMin h s).chan.capacity = s.chan.capacity := slotChan_capacity s

theorem stream_atMin (h : Handle) (s : State) : stream (atMin h s) = stream s := slotChan_stream s

/-- What has drifted since the wait of step 1 has drifted since the operation began. -/
theorem Drift.atMin {h : Handle} {s : State} {e : List (List EnvMove)} {c : Chan} {S : List Byte}
    (g : Drift (atMin h s) e c S) : Drift s e c S := by
  have h1 : Drift s (Machine.atMin h s).env (Machine.atMin h s).chan (stream (Machine.atMin h s)) := by
    rw [stream_atMin]; exact Drift.moved s
  exact h1.trans g

/-- Everything `RECV` with a valid handle can come to. -/
theorem exec_recv_outcome {s : State} {h : Handle} (hb : s.busy = false) (hs : s.bound = true) (hc : Calm s.env)
    (hv : bufValid h s = true) :
    ∃ t, exec (.recv h) s = .next t ∧ MinOutcome (atMin h s) t ∧ AtMin (atMin h s) := by
  obtain ⟨k, hr, hk, hm⟩ := exec_recv_starts hb hs hc hv
  obtain ⟨t, hr2, ht⟩ := min_outcome (k := k) hm (by
    rw [show stream { recvStarted h s with env := s.env.tail, chan := slotChan s } = stream s from stream_atMin h s]
    show s.env.tail.length + _ ≤ k
    omega)
  exact ⟨t, hr.trans hr2, ht, hm⟩

/-- What an operation has read and left alone when it has drifted so. -/
theorem ReceiveKeeps.of_drift {h : Handle} {s t : State} {S : List Byte} (d : Drift s t.env t.chan S)
    (htx : t.tx = s.tx) (hhost : SameHost s t) (hb : ∀ j, j ≠ h → t.bufs.find j = s.bufs.find j)
    (ha : t.answers.alloc = s.answers.alloc) : ReceiveKeeps h s t :=
  ⟨htx, hhost, ⟨d.wire, d.txq⟩, fun j hj => ⟨hb j hj, fun i => by unfold Memory.byteAt; rw [hb j hj]⟩, ha, d.env, d.cap⟩

/-- `RECV` when a whole frame, right or wrong, is there or will come, and the buffer takes it: everything it leaves
(R93 to R98). -/
theorem exec_recv_frame {s : State} {h : Handle} {r l b : Byte} {p S : List Byte} (hs : s.busy = false)
    (hb : s.bound = true) (hc : Calm s.env) (hv : bufValid h s = true) (ha : (drawResize s).1 = true)
    (hS : stream s = r :: l :: p ++ b :: S) (hp : p.length + 1 = l.toNat) (h51 : l.toNat ≤ 51)
    (hroom : Roomy s) (h4 : 4 ≤ (stream s).length) :
    let good := b = xor8 (r :: l :: p)
    let res := if good then r else 0x00#8
    ∃ t, exec (.recv h) s = .next t ∧ Completed res (frameCause r (xor8 (r :: l :: p)) b) t ∧
      t.rx = { h := h, req := r, len := l, ck := xor8 (r :: l :: p), idx := BitVec.ofNat 6 p.length, res := res } ∧
      (res ≠ 0x00#8 → stream t = S) ∧ (res = 0x00#8 → Drained s t) ∧
      t.bufs.find h = some p ∧ t.pollT = 0#5 ∧ t.answers.resizeOk = s.answers.resizeOk.tail ∧ ReceiveKeeps h s t := by
  have hl : validLength l = true := (validLength_iff l).2 (by omega)
  obtain ⟨t, hr, ho, -⟩ := exec_recv_outcome hs hb hc hv
  refine ⟨t, hr, ?_⟩
  cases ho with
  | rests c short eq drift still =>
    have hcap := capacity_atMin h s
    unfold Roomy at hroom
    rw [stream_atMin, hcap] at short
    omega
  | badLength r' l' S' e c e' str two length eq drift later =>
    rw [stream_atMin, hS] at str
    obtain ⟨rfl, rfl, rfl⟩ : r = r' ∧ l = l' ∧ p ++ b :: S = S' := by simpa using str
    simp [hl] at length
  | frame r' l' S' e c str two length drift start next =>
    rw [stream_atMin, hS] at str
    obtain ⟨rfl, rfl, rfl⟩ : r = r' ∧ l = l' ∧ p ++ b :: S = S' := by simpa using str
    have hz : stream ((atMin h s).headerRead r l e c) = p ++ b :: S := drift.str
    have d0 := drift.atMin
    obtain ⟨hd1, hd2, -⟩ := drawResize_headerRead (atMin h s) r l e c
    obtain ⟨hd4, hd5, -⟩ := drawResize_atMin h s
    have hd6 := drawResize_answers s
    cases next with
    | rests c' short eq drift' still =>
      have hs' := congrArg List.length hz
      simp only [List.length_append, List.length_cons] at hs'
      have : (stream ((atMin h s).headerRead r l e c)).length < l.toNat ∨ c.capacity < l.toNat := short
      have hcap : c.capacity = s.chan.capacity := d0.cap
      unfold Roomy at hroom
      omega
    | refused e1 c1 e' enough answer eq drift' later =>
      rw [hd1, hd4, ha] at answer
      cases answer
    | frame p' b' S' e1 c1 i B R answer str' size eq drift' good bad idx here others =>
      have hp' : p'.length = p.length := by
        have : p'.length = payloadSize l := size
        unfold payloadSize at this
        omega
      rw [hz] at str'
      obtain ⟨rfl, h2⟩ := List.append_inj str' hp'.symm
      obtain ⟨rfl, rfl⟩ := List.cons.inj h2
      have hi : i = BitVec.ofNat 6 p.length := by
        apply BitVec.eq_of_toNat_eq
        rw [idx, BitVec.toNat_ofNat]
        omega
      subst hi eq
      refine ⟨finished_completed _ _ _, rfl, fun hh => drift'.str.trans (good hh), fun hh => ?_, here, rfl, ?_, ?_⟩
      · obtain ⟨e', h1, h2⟩ := bad hh
        exact ⟨e', h1.since.trans d0.env, h1.left, h1.one, drift'.str.trans h2⟩
      · show (drawResize _).2.answers.resizeOk = _
        rw [hd2, hd5]
        exact hd6.1
      · refine .of_drift (S := R) ⟨drift'.env.trans d0.env, drift'.str, drift'.wire.trans d0.wire,
          drift'.txq.trans d0.txq, drift'.cap.trans d0.cap⟩ rfl ⟨rfl, rfl, rfl, rfl⟩ others ?_
        show (drawResize _).2.answers.alloc = _
        rw [hd2, hd5]
        exact hd6.2

/-- `RECV` with a handle that is not valid (R86). -/
theorem exec_recv_invalid {s : State} {h : Handle} (hb : s.busy = false) (hs : s.bound = true) (hc : Calm s.env)
    (hv : bufValid h s = false) :
    ∃ e c, exec (.recv h) s = .next (finished 0x00#8 .invalidHandle
        { accept (encode (.recv h)) .finish s with rx := s.rx.started h, env := e, chan := c }) ∧
      Drift s e c (stream s) ∧ (s.env = [] → c = s.chan) := by
  let a := accept (encode (.recv h)) .rCheck s
  have key : ∀ n, s.env.length + (stream s).length + 200 ≤ n →
      ∃ e c, runEngineFor n a = .next (finished 0x00#8 .invalidHandle
        { accept (encode (.recv h)) .finish s with rx := s.rx.started h, env := e, chan := c }) ∧
      Drift s e c (stream s) ∧ (s.env = [] → c = s.chan) := by
    intro n hn
    obtain ⟨k, rfl⟩ : ∃ j, n = j + 1 := ⟨n - 1, by omega⟩
    have hv' : bufValid (handleOf a.cmd) a = false := by
      show bufValid (handleOf (encode (.recv h))) a = false
      rw [handleOf_encode]
      exact hv
    let b : State := { moved a with rx := s.rx.started h, failCause := .invalidHandle, st := .finish }
    have hfin := recv_finish (k := k) (s := b) rfl (show Calm s.env.tail from hc.tail) (opField_encode (.recv h)) (by omega)
    refine ⟨s.env.tail.tail, slotChan b, ?_, ?_, fun he => ?_⟩
    · rw [rCheck_invalid (s := a) rfl hc hv']
      show runEngineFor k { moved a with
        rx := s.rx.started (handleOf (encode (.recv h))), failCause := .invalidHandle, st := .finish } = _
      rw [handleOf_encode]
      exact hfin
    · have h1 : Drift s b.env b.chan (stream b) := by
        rw [show stream b = stream s from slotChan_stream s]; exact Drift.moved s
      have := h1.trans (Drift.moved b)
      rwa [show stream b = stream s from slotChan_stream s] at this
    · rw [slotChan_of_env_nil (s := b) (by show s.env.tail = []; rw [he]; rfl)]
      exact slotChan_of_env_nil he
  obtain ⟨e, c, hrun, hd, hch⟩ := key (visitBudget a) (visitBudget_ge a)
  refine ⟨e, c, ?_, hd, hch⟩
  rw [← hrun, exec_recv]
  unfold execRecv
  rw [if_neg (by simp [hb]), if_pos hs]
  rfl

end Sys2Proof.Machine
end

