-- ==== Sys2Proof/Laws/Send.lean ====
section
/-! SUPPORT. What each state of the sender and of `CKSUM` and `ENCODE` comes to in calm slots, one lemma a state
(spec/44_frame_sender.md R106 to R108, spec/41_checksum.md R78, spec/42_header_encoding.md R83). The lemmas about a write
or a flush suppose a channel that takes bytes. -/

namespace Sys2Proof.Machine

theorem Taking.slot {s : State} (h : Taking s) : (slotChan s).ready = true ∧ (slotChan s).lineUp = true :=
  slotChan_willing h.willing h.ready h.line

/-- The channel after one more byte is written. -/
def Chan.written (c : Chan) (b : Byte) : Chan := { c with txq := c.txq ++ [b], wireOut := c.wireOut ++ [b] }

/-- The channel after a visit that writes a byte. -/
def writtenChan (s : State) (b : Byte) : Chan := (slotChan s).written b

theorem Taking.written {s t : State} {b : Byte} (h : Taking s) (he : t.env = s.env.tail)
    (hc : t.chan = writtenChan s b) : Taking t :=
  ⟨he ▸ h.willing.tail, by rw [hc]; exact h.slot.1, by rw [hc]; exact h.slot.2⟩

theorem writtenChan_wireOut (s : State) (b : Byte) : (writtenChan s b).wireOut = s.chan.wireOut ++ [b] := by
  simp [writtenChan, Chan.written]

theorem writtenChan_capacity (s : State) (b : Byte) : (writtenChan s b).capacity = s.chan.capacity := slotChan_capacity s

theorem writtenChan_stream (s : State) (b : Byte) : (writtenChan s b).rxq ++ arrivals s.env.tail = stream s :=
  slotChan_stream s

theorem eRun_go {k : Nat} {s : State} (hst : s.st = .eRun) (hc : Calm s.env) :
    runEngineFor (k + 1) s = runEngineFor k { moved s with failCause := .none, st := .finish } := by
  refine engine_go hc (by simp [hst]) ?_
  unfold visit
  rw [show (moved s).st = .eRun from hst]
  rfl

theorem cksumBuffer_ok {h : Handle} {d : List Byte} {s : State} :
    cksumBuffer h s = .ok d ↔ s.bufs.find h = some d ∧ d.length ≤ 50 := by
  unfold cksumBuffer Config.maxPayload
  cases s.bufs.find h with
  | none => simp
  | some e =>
    simp only [Option.some.injEq]
    split
    · rename_i hl
      simp only [Except.ok.injEq]
      exact ⟨fun h => ⟨h, h ▸ hl⟩, fun h => h.1⟩
    · rename_i hl
      simp only [reduceCtorEq, false_iff]
      rintro ⟨rfl, h⟩
      exact hl h

/-- The first visit of `CKSUM` (R78): the size is asked for and the working registers are set. -/
theorem kSize_go {k : Nat} {s : State} {d : List Byte} (hst : s.st = .kRun) (hs : s.kSize = true) (hc : Calm s.env)
    (hd : s.bufs.find (handleOf s.cmd) = some d) (h50 : d.length ≤ 50) :
    runEngineFor (k + 1) s = runEngineFor k { moved s with
      tx := { s.tx with h := handleOf s.cmd, n := sizeCount d, ck := 0x00#8, idx := 0#6 }, kSize := false } := by
  refine engine_go hc (by simp [hst]) ?_
  unfold visit
  rw [show (moved s).st = .kRun from hst]
  show visitKRun (moved s) = _
  unfold visitKRun
  rw [if_pos (show (moved s).kSize = true from hs),
    show cksumBuffer (handleOf (moved s).cmd) (moved s) = .ok d from cksumBuffer_ok.2 ⟨hd, h50⟩]
  rfl

/-- The loop of `CKSUM` (R78): the bytes `p` that come next in the buffer are folded. -/
theorem kRun_loop (p : List Byte) {m : Nat} (k : Nat) (s : State) {d : List Byte} (hst : s.st = .kRun)
    (hs : s.kSize = false) (hc : Calm s.env) (hd : s.bufs.find s.tx.h = some d) (hp : d.drop s.tx.idx.toNat = p)
    (hn : s.tx.n.toNat = d.length) (h50 : d.length ≤ 50) (hi : s.tx.idx.toNat ≤ d.length)
    (hk : s.env.length + (p.length + 1 + m) ≤ k) :
    ∃ e c k' i, runEngineFor k s = runEngineFor k' { s with
        env := e, chan := c, tx := { s.tx with ck := p.foldl foldByte s.tx.ck, idx := i }
        failCause := .none, st := .finish } ∧
      Drift s e c (stream s) ∧ (s.env = [] → c = s.chan) ∧ i.toNat = d.length ∧ e.length + m ≤ k' := by
  have htl : s.env.tail.length = s.env.length - 1 := by simp
  have hlen := congrArg List.length hp
  rw [List.length_drop] at hlen
  induction p generalizing k s with
  | nil =>
    obtain ⟨k, rfl⟩ : ∃ j, k = j + 1 := ⟨k - 1, by simp at hk; omega⟩
    simp only [List.length_nil] at hlen hk
    refine ⟨s.env.tail, slotChan s, k, s.tx.idx, ?_, Drift.moved s, slotChan_of_env_nil, by omega, by omega⟩
    refine engine_go hc (by simp [hst]) ?_
    unfold visit
    rw [show (moved s).st = .kRun from hst]
    show visitKRun (moved s) = _
    unfold visitKRun
    rw [if_neg (show ¬ (moved s).kSize = true by show ¬ s.kSize = true; simp [hs]),
      if_neg (show ¬ (moved s).tx.idx.toNat < (moved s).tx.n.toNat from
      (by omega : ¬ s.tx.idx.toNat < s.tx.n.toNat))]
    rfl
  | cons b p ih =>
    obtain ⟨k, rfl⟩ : ∃ j, k = j + 1 := ⟨k - 1, by simp at hk; omega⟩
    simp only [List.length_cons] at hlen hk
    have hget : d[s.tx.idx.toNat]? = some b := by
      have h0 := congrArg (·[0]?) hp
      simpa using h0
    have hidx : (s.tx.idx + 1#6).toNat = s.tx.idx.toNat + 1 := idx_succ (by omega)
    let t : State := { moved s with tx := { s.tx with ck := foldByte s.tx.ck b, idx := s.tx.idx + 1#6 } }
    have hstep : runEngineFor (k + 1) s = runEngineFor k t := by
      refine engine_go hc (by simp [hst]) ?_
      unfold visit
      rw [show (moved s).st = .kRun from hst]
      show visitKRun (moved s) = _
      unfold visitKRun
      rw [if_neg (show ¬ (moved s).kSize = true by show ¬ s.kSize = true; simp [hs]), if_pos (show (moved s).tx.idx.toNat < (moved s).tx.n.toNat from
        (by omega : s.tx.idx.toNat < s.tx.n.toNat)),
        show bufGet (moved s).tx.h (moved s).tx.idx.toNat (moved s) = some b by
          show (s.bufs.find s.tx.h).bind (·[s.tx.idx.toNat]?) = some b
          rw [hd]; exact hget]
      rfl
    have hstr : stream t = stream s := slotChan_stream s
    obtain ⟨e, c, k', i, hrun, hdr, hch, hi', hk'⟩ := ih k t hst hs hc.tail hd
      (by show d.drop (s.tx.idx + 1#6).toNat = p; rw [hidx, ← List.tail_drop, hp]; rfl) hn
      (by show (s.tx.idx + 1#6).toNat ≤ d.length; omega) (by show s.env.tail.length + _ ≤ k; omega) (by simp [t, moved])
      (by show d.length - (s.tx.idx + 1#6).toNat = p.length; omega)
    refine ⟨e, c, k', i, hstep.trans hrun, ?_, fun he => ?_, hi', hk'⟩
    · rw [hstr] at hdr
      exact (Drift.moved s).trans hdr
    · rw [hch (by show s.env.tail = []; rw [he]; rfl)]
      exact slotChan_of_env_nil he

/-- The sender's registers after the test of the payload size (R106). -/
def Tx.started (r : Tx) (req : Byte) (h : Handle) (d : List Byte) : Tx :=
  { r with h := h, req := req, ok := false, idx := 0#6, n := sizeCount d }

theorem sCheck_ok {k : Nat} {s : State} {d : List Byte} (hst : s.st = .sCheck) (hc : Calm s.env)
    (hd : s.bufs.find (handleOf s.cmd) = some d) (hv : validSize (sizeCount d) = true) :
    runEngineFor (k + 1) s = runEngineFor k { moved s with
      tx := s.tx.started (requestOf s.cmd) (handleOf s.cmd) d, st := .sReq } := by
  refine engine_go hc (by simp [hst]) ?_
  unfold visit
  rw [show (moved s).st = .sCheck from hst]
  show visitSCheck (moved s) = _
  unfold visitSCheck
  rw [show (moved s).bufs.find (handleOf (moved s).cmd) = some d from hd]
  exact if_pos hv

theorem sCheck_bad {k : Nat} {s : State} {d : List Byte} (hst : s.st = .sCheck) (hc : Calm s.env)
    (hd : s.bufs.find (handleOf s.cmd) = some d) (hv : validSize (sizeCount d) = false) :
    runEngineFor (k + 1) s = runEngineFor k { moved s with
      tx := s.tx.started (requestOf s.cmd) (handleOf s.cmd) d, failCause := .badSize, st := .finish } := by
  refine engine_go hc (by simp [hst]) ?_
  unfold visit
  rw [show (moved s).st = .sCheck from hst]
  show visitSCheck (moved s) = _
  unfold visitSCheck
  rw [show (moved s).bufs.find (handleOf (moved s).cmd) = some d from hd]
  refine if_neg ?_
  show ¬ validSize (sizeCount d) = true
  simp [hv]

theorem sReq_go {k : Nat} {s : State} (hst : s.st = .sReq) (hc : Calm s.env) (ht : Taking s) :
    runEngineFor (k + 1) s = runEngineFor k { s with
      env := s.env.tail, chan := writtenChan s s.tx.req
      tx := { s.tx with ck := foldByte 0x00#8 s.tx.req }, st := .sLen } := by
  refine engine_go hc (by simp [hst]) ?_
  unfold visit
  rw [show (moved s).st = .sReq from hst]
  exact if_pos ht.slot.1

theorem sLen_go {k : Nat} {s : State} (hst : s.st = .sLen) (hc : Calm s.env) (ht : Taking s) :
    runEngineFor (k + 1) s = runEngineFor k { s with
      env := s.env.tail, chan := writtenChan s (sendLength s.tx.n)
      tx := { s.tx with len := sendLength s.tx.n, ck := foldByte s.tx.ck (sendLength s.tx.n) }, st := .sPayload } := by
  refine engine_go hc (by simp [hst]) ?_
  unfold visit
  rw [show (moved s).st = .sLen from hst]
  exact if_pos ht.slot.1

/-- The payload loop of the sender (R107): the bytes `p` that come next in the buffer are written and folded. -/
theorem sPayload_loop (p : List Byte) {m : Nat} (k : Nat) (s : State) {d : List Byte} (hst : s.st = .sPayload)
    (hc : Calm s.env) (ht : Taking s) (hd : s.bufs.find s.tx.h = some d) (hp : d.drop s.tx.idx.toNat = p)
    (hn : s.tx.n.toNat = d.length) (h50 : d.length ≤ 50) (hi : s.tx.idx.toNat ≤ d.length)
    (hk : s.env.length + (p.length + 1 + m) ≤ k) :
    ∃ e c k' i, runEngineFor k s = runEngineFor k' { s with
        env := e, chan := c, tx := { s.tx with ck := p.foldl foldByte s.tx.ck, idx := i }, st := .sCksum } ∧
      e <:+ s.env ∧ c.rxq ++ arrivals e = stream s ∧ c.wireOut = s.chan.wireOut ++ p ∧
      c.capacity = s.chan.capacity ∧ Willing e ∧ c.ready = true ∧ c.lineUp = true ∧ i.toNat = d.length ∧ e.length + m ≤ k' := by
  have htl : s.env.tail.length = s.env.length - 1 := by simp
  have hlen := congrArg List.length hp
  rw [List.length_drop] at hlen
  induction p generalizing k s with
  | nil =>
    obtain ⟨k, rfl⟩ : ∃ j, k = j + 1 := ⟨k - 1, by simp at hk; omega⟩
    simp only [List.length_nil] at hlen hk
    refine ⟨s.env.tail, slotChan s, k, s.tx.idx, ?_, List.tail_suffix _, slotChan_stream s, by simp, slotChan_capacity s, ht.willing.tail,
      ht.slot.1, ht.slot.2, by omega, by omega⟩
    refine engine_go hc (by simp [hst]) ?_
    unfold visit
    rw [show (moved s).st = .sPayload from hst]
    show visitSPayload (moved s) = _
    unfold visitSPayload
    rw [if_neg (show ¬ (moved s).tx.idx.toNat < (moved s).tx.n.toNat from
      (by omega : ¬ s.tx.idx.toNat < s.tx.n.toNat))]
    rfl
  | cons b p ih =>
    obtain ⟨k, rfl⟩ : ∃ j, k = j + 1 := ⟨k - 1, by simp at hk; omega⟩
    simp only [List.length_cons] at hlen hk
    have hget : d[s.tx.idx.toNat]? = some b := by
      have h0 := congrArg (·[0]?) hp
      simpa using h0
    have hidx : (s.tx.idx + 1#6).toNat = s.tx.idx.toNat + 1 := idx_succ (by omega)
    let t : State := { s with
      env := s.env.tail, chan := writtenChan s b
      tx := { s.tx with ck := foldByte s.tx.ck b, idx := s.tx.idx + 1#6 } }
    have hstep : runEngineFor (k + 1) s = runEngineFor k t := by
      refine engine_go hc (by simp [hst]) ?_
      unfold visit
      rw [show (moved s).st = .sPayload from hst]
      show visitSPayload (moved s) = _
      unfold visitSPayload
      rw [if_pos (show (moved s).tx.idx.toNat < (moved s).tx.n.toNat from
        (by omega : s.tx.idx.toNat < s.tx.n.toNat)),
        show bufGet (moved s).tx.h (moved s).tx.idx.toNat (moved s) = some b by
          show (s.bufs.find s.tx.h).bind (·[s.tx.idx.toNat]?) = some b
          rw [hd]; exact hget]
      exact if_pos ht.slot.1
    obtain ⟨e, c, k', i, hrun, he, hs, hw, hcap, h1, h2, h3, hi', hk'⟩ := ih k t hst hc.tail (ht.written rfl rfl) hd
      (by show d.drop (s.tx.idx + 1#6).toNat = p; rw [hidx, ← List.tail_drop, hp]; rfl) hn
      (by show (s.tx.idx + 1#6).toNat ≤ d.length; omega) (by show s.env.tail.length + _ ≤ k; omega) (by simp [t])
      (by show d.length - (s.tx.idx + 1#6).toNat = p.length; omega)
    refine ⟨e, c, k', i, hstep.trans hrun, he.trans (List.tail_suffix _), hs.trans (slotChan_stream s), ?_,
      hcap.trans (slotChan_capacity s), h1, h2, h3, hi', hk'⟩
    rw [hw, show t.chan.wireOut = s.chan.wireOut ++ [b] from writtenChan_wireOut s b]
    simp

theorem sCksum_go {k : Nat} {s : State} (hst : s.st = .sCksum) (hc : Calm s.env) (ht : Taking s) :
    runEngineFor (k + 1) s = runEngineFor k { s with
      env := s.env.tail, chan := writtenChan s s.tx.ck, st := .sFlush } := by
  refine engine_go hc (by simp [hst]) ?_
  unfold visit
  rw [show (moved s).st = .sCksum from hst]
  exact if_pos ht.slot.1

theorem sFlush_go {k : Nat} {s : State} (hst : s.st = .sFlush) (hc : Calm s.env) (ht : Taking s) :
    runEngineFor (k + 1) s = runEngineFor k { s with
      env := s.env.tail, chan := { slotChan s with txq := [] }, tx := { s.tx with ok := true }
      failCause := .none, st := .finish } := by
  refine engine_go hc (by simp [hst]) ?_
  unfold visit
  rw [show (moved s).st = .sFlush from hst]
  show visitSFlush (moved s) = _
  unfold visitSFlush
  rw [if_pos (by unfold canFlush; rw [show (moved s).chan.lineUp = true from ht.slot.2]; rfl)]
  rfl

end Sys2Proof.Machine
end

