-- ==== Sys2Proof/Laws/SendExec.lean ====
section
/-! SUPPORT. What `SEND`, `CKSUM` and `ENCODE` come to in calm slots (spec/44_frame_sender.md R105 to R109,
spec/41_checksum.md R78, spec/42_header_encoding.md R83). For `SEND` there is one lemma for each state it can stand in, to the
end of the operation, with a channel that takes bytes. -/

namespace Sys2Proof.Machine

/-- How the channel and the slots stand at the end of a `SEND` that wrote `W` since `s`. -/
structure Sent (s : State) (e : List (List EnvMove)) (c : Chan) (W : List Byte) : Prop where
  env : e <:+ s.env
  str : c.rxq ++ arrivals e = stream s
  wire : c.wireOut = s.chan.wireOut ++ W
  txq : c.txq = []
  cap : c.capacity = s.chan.capacity

/-- One state of the sender before the rest: a byte is written, or none. -/
theorem Sent.after {s t : State} {e : List (List EnvMove)} {c : Chan} {V W : List Byte} (he : t.env = s.env.tail)
    (hs : stream t = stream s) (hw : t.chan.wireOut = s.chan.wireOut ++ V)
    (hcap : t.chan.capacity = s.chan.capacity) (h : Sent t e c W) : Sent s e c (V ++ W) :=
  ⟨h.env.trans (he ▸ List.tail_suffix _), h.str.trans hs, by rw [h.wire, hw, List.append_assoc], h.txq, h.cap.trans hcap⟩

theorem foldl_onChan_txq_nil (slot : List EnvMove) (c : Chan) (h : c.txq = []) :
    (slot.foldl (fun c m => m.onChan c) c).txq = [] :=
  List.suffix_nil.1 (h ▸ foldl_onChan_txq slot c)

theorem send_flush {k : Nat} {s : State} (hst : s.st = .sFlush) (hc : Calm s.env) (ht : Taking s)
    (hop : opField s.cmd = 3#4) (hk : 2 ≤ k) :
    ∃ e c, runEngineFor k s = .next (finished 0x01#8 .none { s with
        env := e, chan := c, tx := { s.tx with ok := true } }) ∧ Sent s e c [] := by
  obtain ⟨k, rfl⟩ : ∃ j, k = j + 2 := ⟨k - 2, by omega⟩
  let t : State := { s with
    env := s.env.tail, chan := { slotChan s with txq := [] }, tx := { s.tx with ok := true }
    failCause := .none, st := .finish }
  have hfin := finish_go (k := k) (s := t) rfl hc.tail
  refine ⟨t.env.tail, slotChan t, (sFlush_go (k := k + 1) hst hc ht).trans (hfin.trans ?_), ?_, ?_, ?_, ?_,
    (slotChan_capacity t).trans (slotChan_capacity s)⟩
  · have : resultOf t = 0x01#8 := by
      unfold resultOf
      rw [show t.cmd = s.cmd from rfl, hop]
      rfl
    rw [this]
    rfl
  · exact (List.tail_suffix _).trans (List.tail_suffix _)
  · rw [show (slotChan t).rxq ++ arrivals t.env.tail = stream t from slotChan_stream t]
    exact slotChan_stream s
  · rw [slotChan_wireOut, List.append_nil]
    exact slotChan_wireOut s
  · exact foldl_onChan_txq_nil _ _ rfl

theorem send_cksum {k : Nat} {s : State} (hst : s.st = .sCksum) (hc : Calm s.env) (ht : Taking s)
    (hop : opField s.cmd = 3#4) (hk : 3 ≤ k) :
    ∃ e c, runEngineFor k s = .next (finished 0x01#8 .none { s with
        env := e, chan := c, tx := { s.tx with ok := true } }) ∧ Sent s e c [s.tx.ck] := by
  obtain ⟨k, rfl⟩ : ∃ j, k = j + 1 := ⟨k - 1, by omega⟩
  let t : State := { s with env := s.env.tail, chan := writtenChan s s.tx.ck, st := .sFlush }
  obtain ⟨e, c, hr, hs⟩ := send_flush (k := k) (s := t) rfl hc.tail (ht.written rfl rfl) hop (by omega)
  exact ⟨e, c, (sCksum_go hst hc ht).trans hr, hs.after (s := s) (t := t) rfl (writtenChan_stream s _) (writtenChan_wireOut s _)
    (writtenChan_capacity s _)⟩

theorem send_payload {k : Nat} {s : State} {d p : List Byte} (hst : s.st = .sPayload) (hc : Calm s.env) (ht : Taking s)
    (hop : opField s.cmd = 3#4) (hd : s.bufs.find s.tx.h = some d) (hp : d.drop s.tx.idx.toNat = p)
    (hn : s.tx.n.toNat = d.length) (h50 : d.length ≤ 50) (hi : s.tx.idx.toNat ≤ d.length)
    (hk : s.env.length + (p.length + 5) ≤ k) :
    ∃ e c, runEngineFor k s = .next (finished 0x01#8 .none { s with
        env := e, chan := c
        tx := { s.tx with ck := p.foldl foldByte s.tx.ck, idx := BitVec.ofNat 6 d.length, ok := true } }) ∧
      Sent s e c (p ++ [p.foldl foldByte s.tx.ck]) := by
  obtain ⟨e1, c1, k1, i, hrun, he, hstr, hw, hcap, h1, h2, h3, hi', hk1⟩ :=
    sPayload_loop p (m := 3) k s hst hc ht hd hp hn h50 hi (by omega)
  have hidx : i = BitVec.ofNat 6 d.length := by
    apply BitVec.eq_of_toNat_eq
    rw [hi', BitVec.toNat_ofNat]
    omega
  subst hidx
  let t : State := { s with
    env := e1, chan := c1
    tx := { s.tx with ck := p.foldl foldByte s.tx.ck, idx := BitVec.ofNat 6 d.length }, st := .sCksum }
  obtain ⟨e, c, hr, hs⟩ := send_cksum (k := k1) (s := t) rfl (hc.of_suffix he) ⟨h1, h2, h3⟩ hop (by omega)
  refine ⟨e, c, hrun.trans hr, hs.env.trans he, hs.str.trans hstr, ?_, hs.txq, hs.cap.trans hcap⟩
  rw [hs.wire, show t.chan.wireOut = s.chan.wireOut ++ p from hw, List.append_assoc]

theorem send_len {k : Nat} {s : State} {d : List Byte} (hst : s.st = .sLen) (hc : Calm s.env) (ht : Taking s)
    (hop : opField s.cmd = 3#4) (hd : s.bufs.find s.tx.h = some d) (hn : s.tx.n.toNat = d.length) (h50 : d.length ≤ 50)
    (hi : s.tx.idx = 0#6) (hk : s.env.length + (d.length + 6) ≤ k) :
    ∃ e c, runEngineFor k s = .next (finished 0x01#8 .none { s with
        env := e, chan := c
        tx := { s.tx with
          len := sendLength s.tx.n, ck := d.foldl foldByte (foldByte s.tx.ck (sendLength s.tx.n))
          idx := BitVec.ofNat 6 d.length, ok := true } }) ∧
      Sent s e c (sendLength s.tx.n :: d ++ [d.foldl foldByte (foldByte s.tx.ck (sendLength s.tx.n))]) := by
  obtain ⟨k, rfl⟩ : ∃ j, k = j + 1 := ⟨k - 1, by omega⟩
  have htl : s.env.tail.length = s.env.length - 1 := by simp
  let t : State := { s with
    env := s.env.tail, chan := writtenChan s (sendLength s.tx.n)
    tx := { s.tx with len := sendLength s.tx.n, ck := foldByte s.tx.ck (sendLength s.tx.n) }, st := .sPayload }
  obtain ⟨e, c, hr, hs⟩ := send_payload (k := k) (s := t) (d := d) (p := d) rfl hc.tail (ht.written rfl rfl) hop hd
    (by show d.drop s.tx.idx.toNat = d; rw [hi]; rfl) hn h50 (by show s.tx.idx.toNat ≤ _; rw [hi]; exact Nat.zero_le _)
    (by show s.env.tail.length + _ ≤ k; omega)
  exact ⟨e, c, (sLen_go hst hc ht).trans hr, hs.after (s := s) (t := t) (V := [sendLength s.tx.n]) rfl (writtenChan_stream s _)
    (writtenChan_wireOut s _) (writtenChan_capacity s _)⟩

theorem send_req {k : Nat} {s : State} {d : List Byte} (hst : s.st = .sReq) (hc : Calm s.env) (ht : Taking s)
    (hop : opField s.cmd = 3#4) (hd : s.bufs.find s.tx.h = some d) (hn : s.tx.n.toNat = d.length) (h50 : d.length ≤ 50)
    (hi : s.tx.idx = 0#6) (hk : s.env.length + (d.length + 7) ≤ k) :
    ∃ e c, runEngineFor k s = .next (finished 0x01#8 .none { s with
        env := e, chan := c
        tx := { s.tx with
          len := sendLength s.tx.n, ck := xor8 (s.tx.req :: sendLength s.tx.n :: d)
          idx := BitVec.ofNat 6 d.length, ok := true } }) ∧
      Sent s e c (frameBytes ⟨s.tx.req, d⟩) := by
  obtain ⟨k, rfl⟩ : ∃ j, k = j + 1 := ⟨k - 1, by omega⟩
  have htl : s.env.tail.length = s.env.length - 1 := by simp
  let t : State := { s with
    env := s.env.tail, chan := writtenChan s s.tx.req
    tx := { s.tx with ck := foldByte 0x00#8 s.tx.req }, st := .sLen }
  obtain ⟨e, c, hr, hs⟩ := send_len (k := k) (s := t) (d := d) rfl hc.tail (ht.written rfl rfl) hop hd hn h50 hi
    (by show s.env.tail.length + _ ≤ k; omega)
  have hlen : sendLength s.tx.n = frameLength ⟨s.tx.req, d⟩ := by
    apply BitVec.eq_of_toNat_eq
    rw [sendLength_toNat (by omega), hn]
    exact (frameLength_toNat (d := d) (by omega)).symm
  refine ⟨e, c, (sReq_go hst hc ht).trans hr, ?_⟩
  have := hs.after (s := s) (t := t) (V := [s.tx.req]) rfl (writtenChan_stream s _) (writtenChan_wireOut s _)
    (writtenChan_capacity s _)
  unfold frameBytes frameChecksum
  rw [← hlen]
  exact this

theorem runEngine_eq (s : State) : runEngine s = runEngineFor (visitBudget s) s := rfl

theorem visitBudget_visits (s : State) : ∃ k, visitBudget s = k + 1 ∧ s.env.tail.length + 199 ≤ k := by
  have : s.env.tail.length = s.env.length - 1 := List.length_tail
  exact ⟨visitBudget s - 1, by unfold visitBudget; omega, by unfold visitBudget; omega⟩

/-- `SEND` of 1 to 50 bytes through a channel that takes them (R106 to R108). -/
theorem exec_send_ok {s : State} {req : Byte} {h : Handle} {d : List Byte} (hb : s.busy = false) (hs : s.bound = true)
    (hc : Calm s.env) (ht : Taking s) (hd : s.bufs.find h = some d) (h1 : 1 ≤ d.length) (h50 : d.length ≤ 50) :
    ∃ e c, exec (.send req h) s = .next (finished 0x01#8 .none { accept (encode (.send req h)) .sReq s with
        env := e, chan := c
        tx := { h := h, req := req, n := sizeCount d, len := frameLength ⟨req, d⟩, ck := frameChecksum ⟨req, d⟩
                idx := BitVec.ofNat 6 d.length, ok := true } }) ∧
      Sent s e c (frameBytes ⟨req, d⟩) := by
  let a := accept (encode (.send req h)) .sCheck s
  obtain ⟨k, hk, hk'⟩ := visitBudget_visits a
  have hn : (sizeCount d).toNat = d.length := sizeCount_toNat (by omega)
  have hfind : a.bufs.find (handleOf a.cmd) = some d := by
    show s.bufs.find (handleOf (encode (.send req h))) = some d
    rw [handleOf_encode]
    exact hd
  have hrun := sCheck_ok (k := k) (s := a) rfl hc hfind ((validSize_iff _).2 (by omega))
  let t : State := { moved a with tx := s.tx.started req h d, st := .sReq }
  have ht' : ({ moved a with
      tx := a.tx.started (requestOf a.cmd) (handleOf a.cmd) d, st := .sReq } : State) = t := by
    show ({ moved a with
      tx := s.tx.started (requestOf (encode (.send req h))) (handleOf (encode (.send req h))) d, st := .sReq } : State) = t
    rw [handleOf_encode, requestOf_encode]
    rfl
  rw [ht'] at hrun
  have hk2 : a.env.tail.length + (d.length + 7) ≤ k := by omega
  obtain ⟨e, c, hr, hsent⟩ := send_req (k := k) (s := t) (d := d) rfl hc.tail
    ⟨ht.willing.tail, ht.slot.1, ht.slot.2⟩ (opField_encode (.send req h)) hd hn h50 rfl hk2
  have hlen : sendLength (sizeCount d) = frameLength ⟨req, d⟩ := by
    apply BitVec.eq_of_toNat_eq
    rw [sendLength_toNat (by omega), hn]
    exact (frameLength_toNat (d := d) (by omega)).symm
  refine ⟨e, c, ?_, ?_⟩
  · rw [exec_send]
    unfold execSend
    rw [if_neg (by simp [hb]), if_pos hs, if_pos ((bufValid_iff _ _).2 ⟨d, hd⟩), runEngine_eq]
    show runEngineFor (visitBudget a) a = _
    rw [hk, hrun, hr]
    show Host.Outcome.next (finished 0x01#8 .none { t with
        env := e, chan := c
        tx := { h := h, req := req, n := sizeCount d, len := sendLength (sizeCount d)
                ck := xor8 (req :: sendLength (sizeCount d) :: d)
                idx := BitVec.ofNat 6 d.length, ok := true } }) = _
    rw [hlen]
    rfl
  · exact hsent.after (s := s) (t := t) (V := []) rfl (slotChan_stream s)
      (by rw [List.append_nil]; exact slotChan_wireOut s) (slotChan_capacity s)

/-- `SEND` of no byte or of more than 50 (R106). -/
theorem exec_send_bad {s : State} {req : Byte} {h : Handle} {d : List Byte} (hb : s.busy = false) (hs : s.bound = true)
    (hc : Calm s.env) (hd : s.bufs.find h = some d) (hbad : d.length = 0 ∨ 50 < d.length) :
    ∃ e c, exec (.send req h) s = .next (finished 0x00#8 .badSize { accept (encode (.send req h)) .finish s with
        env := e, chan := c, tx := s.tx.started req h d }) ∧
      Drift s e c (stream s) ∧ (s.env = [] → c = s.chan) := by
  let a := accept (encode (.send req h)) .sCheck s
  obtain ⟨k, hk, hk'⟩ := visitBudget_visits a
  have hv : validSize (sizeCount d) = false := by
    rw [Bool.eq_false_iff]
    intro hv
    have := (validSize_iff _).1 hv
    rcases hbad with h0 | h0
    · rw [sizeCount_toNat (by omega)] at this; omega
    · have := sizeCount_large h0; omega
  have hfind : a.bufs.find (handleOf a.cmd) = some d := by
    show s.bufs.find (handleOf (encode (.send req h))) = some d
    rw [handleOf_encode]
    exact hd
  have hrun := sCheck_bad (k := k) (s := a) rfl hc hfind hv
  let t : State := { moved a with tx := s.tx.started req h d, failCause := .badSize, st := .finish }
  have ht' : ({ moved a with tx := a.tx.started (requestOf a.cmd) (handleOf a.cmd) d, failCause := .badSize, st := .finish } :
      State) = t := by
    show ({ moved a with
      tx := s.tx.started (requestOf (encode (.send req h))) (handleOf (encode (.send req h))) d, failCause := .badSize, st := .finish } :
      State) = t
    rw [handleOf_encode, requestOf_encode]
    rfl
  rw [ht'] at hrun
  obtain ⟨k, rfl⟩ : ∃ j, k = j + 1 := ⟨k - 1, by omega⟩
  have hfin := finish_go (k := k) (s := t) rfl hc.tail
  have hres : resultOf t = 0x00#8 := by
    unfold resultOf
    rw [show t.cmd = encode (.send req h) from rfl, opField_encode]
    rfl
  refine ⟨t.env.tail, slotChan t, ?_, ?_, fun he => ?_⟩
  · rw [exec_send]
    unfold execSend
    rw [if_neg (by simp [hb]), if_pos hs, if_pos ((bufValid_iff _ _).2 ⟨d, hd⟩), runEngine_eq]
    show runEngineFor (visitBudget a) a = _
    rw [hk, hrun, hfin, hres]
    rfl
  · have h1 : Drift s t.env t.chan (stream t) := by
      rw [show stream t = stream s from slotChan_stream s]; exact Drift.moved s
    have := h1.trans (Drift.moved t)
    rwa [show stream t = stream s from slotChan_stream s] at this
  · rw [slotChan_of_env_nil (s := t) (by show s.env.tail = []; rw [he]; rfl)]
    exact slotChan_of_env_nil he

/-- `CKSUM` of at most 50 bytes (R78). -/
theorem exec_cksum_ok {s : State} {h : Handle} {d : List Byte} (hb : s.busy = false) (hc : Calm s.env)
    (hd : s.bufs.find h = some d) (h50 : d.length ≤ 50) :
    ∃ e c, exec (.cksum h) s = .next (finished (xor8 d) .none { accept (encode (.cksum h)) .kRun s with
        env := e, chan := c
        tx := { s.tx with h := h, n := sizeCount d, ck := xor8 d, idx := BitVec.ofNat 6 d.length }, kSize := false }) ∧
      Drift s e c (stream s) ∧ (s.env = [] → c = s.chan) := by
  let a := startCksum h s
  obtain ⟨k, hk, hk'⟩ := visitBudget_visits a
  have hn : (sizeCount d).toNat = d.length := sizeCount_toNat (by omega)
  have hrun0 := kSize_go (k := k) (s := a) rfl rfl hc (by
    show s.bufs.find (handleOf (encode (.cksum h))) = some d
    rw [handleOf_encode]
    exact hd) h50
  let b : State := { moved a with tx := { s.tx with h := h, n := sizeCount d, ck := 0x00#8, idx := 0#6 }, kSize := false }
  have hb' : ({ moved a with
      tx := { a.tx with h := handleOf a.cmd, n := sizeCount d, ck := 0x00#8, idx := 0#6 }, kSize := false } : State) = b := by
    show ({ moved a with
      tx := { s.tx with h := handleOf (encode (.cksum h)), n := sizeCount d, ck := 0x00#8, idx := 0#6 }
      kSize := false } : State) = b
    rw [handleOf_encode]
    rfl
  rw [hb'] at hrun0
  obtain ⟨e, c, k', i, hrun, hdr, hch, hi, hk1⟩ := kRun_loop d (m := 1) k b (d := d) rfl rfl hc.tail hd rfl hn h50
    (Nat.zero_le _) (by show a.env.tail.length + _ ≤ k; omega)
  have hidx : i = BitVec.ofNat 6 d.length := by
    apply BitVec.eq_of_toNat_eq
    rw [hi, BitVec.toNat_ofNat]
    omega
  subst hidx
  obtain ⟨k', rfl⟩ : ∃ j, k' = j + 1 := ⟨k' - 1, by omega⟩
  let t : State := { b with
    env := e, chan := c, tx := { b.tx with ck := xor8 d, idx := BitVec.ofNat 6 d.length }
    failCause := .none, st := .finish }
  have hstr : stream b = stream s := slotChan_stream s
  have hdr' : Drift s e c (stream s) := by
    rw [hstr] at hdr
    exact (Drift.moved s).trans hdr
  have hfin := finish_go (k := k') (s := t) rfl (hdr'.calm hc)
  have hres : resultOf t = xor8 d := by
    unfold resultOf
    rw [show t.cmd = encode (.cksum h) from rfl, opField_encode]
    rfl
  refine ⟨t.env.tail, slotChan t, ?_, ?_, fun he => ?_⟩
  · rw [exec_cksum]
    unfold execCksum
    rw [if_neg (by simp [hb]), cksumBuffer_ok.2 ⟨hd, h50⟩]
    show runEngine a = _
    rw [runEngine_eq, hk, hrun0, hrun]
    show runEngineFor (k' + 1) t = _
    rw [hfin, hres]
    rfl
  · have h1 : Drift s t.env t.chan (stream t) := by
      rw [show stream t = stream s from hdr'.str]; exact hdr'
    have := h1.trans (Drift.moved t)
    rwa [show stream t = stream s from hdr'.str] at this
  · have he' : e = [] := by
      have := hdr'.env
      rw [he] at this
      exact List.suffix_nil.1 this
    rw [slotChan_of_env_nil (s := t) he']
    have hbe : b.env = [] := by show s.env.tail = []; rw [he]; rfl
    exact (hch hbe).trans (slotChan_of_env_nil he)

/-- `ENCODE` (R83). -/
theorem exec_encode_ok {s : State} (isSlave : Bool) (action : Byte) (hb : s.busy = false) (hc : Calm s.env) :
    ∃ e c, exec (.encode isSlave action) s = .next (finished (encodeRequest isSlave action) .none
        { accept (encode (.encode isSlave action)) .eRun s with env := e, chan := c }) ∧
      Drift s e c (stream s) ∧ (s.env = [] → c = s.chan) := by
  let a := accept (encode (.encode isSlave action)) .eRun s
  obtain ⟨k, hk, hk'⟩ := visitBudget_visits a
  obtain ⟨k, rfl⟩ : ∃ j, k = j + 1 := ⟨k - 1, by omega⟩
  let t : State := { moved a with failCause := .none, st := .finish }
  have hrun := eRun_go (k := k + 1) (s := a) rfl hc
  have hfin := finish_go (k := k) (s := t) rfl hc.tail
  have hres : resultOf t = encodeRequest isSlave action := by
    unfold resultOf
    rw [show t.cmd = encode (.encode isSlave action) from rfl, opField_encode]
    show encodeRequest (isSlaveOf (encode (.encode isSlave action))) (actionOf (encode (.encode isSlave action))) = _
    rw [isSlaveOf_encode, actionOf_encode]
    rfl
  refine ⟨t.env.tail, slotChan t, ?_, ?_, fun he => ?_⟩
  · rw [exec_encode]
    unfold execEncode
    rw [if_neg (by simp [hb]), runEngine_eq, hk, hrun]
    show runEngineFor (k + 1) t = _
    rw [hfin, hres]
    rfl
  · have h1 : Drift s t.env t.chan (stream t) := by
      rw [show stream t = stream s from slotChan_stream s]; exact Drift.moved s
    have := h1.trans (Drift.moved t)
    rwa [show stream t = stream s from slotChan_stream s] at this
  · rw [slotChan_of_env_nil (s := t) (by show s.env.tail = []; rw [he]; rfl)]
    exact slotChan_of_env_nil he

end Sys2Proof.Machine
end

