-- ==== Sys2Proof/Laws/Host.lean ====
section
/-! SUPPORT. The host's side: which part of a step is taken, and what `OPEN` and `CLOSE` come to in calm slots
(spec/40_session_control.md R70 to R72). -/

namespace Sys2Proof.Machine

/-! ## Which part of a step is taken -/

theorem step_engine {s : State} (h : s.st ≠ .idle) : step s = runEngine s := if_pos (engineActive_of h)

theorem step_phase {s : State} (h : s.st = .idle) (hp : phaseActive s = true) : step s = runPhase s := by
  unfold step advance
  rw [if_neg (by simp [engineActive, h]), if_pos hp]

theorem step_ready {s : State} (h : s.st = .idle) (hp : s.phase = .ready) : step s = nextCall s := by
  unfold step advance
  rw [if_neg (by simp [engineActive, h]), if_neg (by simp [phaseActive, hp]), hp]

theorem step_call {s : State} {c : HostCall} {rest : List HostCall} (h : s.st = .idle) (hp : s.phase = .ready)
    (hh : s.host = c :: rest) : step s = hostCall c { s with host := rest } := by
  rw [step_ready h hp]
  unfold nextCall
  rw [hh]

theorem step_sent1 {s : State} {k : Handle} (h : s.st = .idle) (hp : s.phase = .sent1 k) : step s = afterOperation s := by
  unfold step advance
  rw [if_neg (by simp [engineActive, h]), if_neg (by simp [phaseActive, hp]), hp]

theorem step_sent {s : State} {hr : Handle} {k : Option Handle} (h : s.st = .idle) (hp : s.phase = .sent hr k) :
    step s = afterOperation s := by
  unfold step advance
  rw [if_neg (by simp [engineActive, h]), if_neg (by simp [phaseActive, hp]), hp]

theorem step_received {s : State} {k : Option Handle} (h : s.st = .idle) (hp : s.phase = .received k) :
    step s = afterOperation s := by
  unfold step advance
  rw [if_neg (by simp [engineActive, h]), if_neg (by simp [phaseActive, hp]), hp]

/-! ## The drain of `OPEN` and `CLOSE` -/

theorem Taking.moved {s : State} (h : Taking s) : Taking (moved s) := ⟨h.willing.tail, h.slot.1, h.slot.2⟩

/-- The drain ends, in calm slots: nothing is left that had come by then (R72). -/
theorem phase_drains {ph : HostPhase} {F : State → State} (hact : ∀ u : State, u.phase = ph → phaseActive u = true)
    (hv : ∀ u : State, u.phase = ph → phaseVisit u = if 0 < chanAvail u then .go (drainOne u) else .go (F u))
    {m : Nat} (k : Nat) (s : State) (hp : s.phase = ph) (hc : Calm s.env) (hq : 0 < s.chan.capacity)
    (hk : s.env.length + ((stream s).length + 1 + m) ≤ k) :
    ∃ e c k', runVisits phaseActive phaseVisit k s =
        runVisits phaseActive phaseVisit k' (F { s with env := e, chan := c }) ∧
      Drift s e c (arrivals e) ∧ c.rxq = [] ∧ e.length + m ≤ k' ∧ (s.env = [] → c = { s.chan with rxq := [] }) ∧
      (Taking s → Taking { s with env := e, chan := c }) := by
  have htl : s.env.tail.length = s.env.length - 1 := by simp
  induction k generalizing s with
  | zero => omega
  | succ k ih =>
    have hgo : ∀ t, phaseVisit (moved s) = .go t →
        runVisits phaseActive phaseVisit (k + 1) s = runVisits phaseActive phaseVisit k t :=
      fun t ht => runVisits_go (hact s hp) (by rw [envStep_moved hc, ht])
    have hvm := hv (moved s) hp
    obtain ⟨ha, c1, hdr, hlen, hcc⟩ | ⟨ha, hnil⟩ := moved_drain hq
    · rw [if_pos ha, hdr] at hvm
      let t : State := { moved s with chan := c1 }
      have hcap : c1.capacity = s.chan.capacity := by rw [hcc]; exact slotChan_capacity s
      have hst' : (stream s).length = (stream t).length + 1 := hlen
      obtain ⟨e, c, k', hrun, hd, hnil, hk', hch, htk⟩ := ih t hp hc.tail (by show 0 < c1.capacity; omega)
        (by show s.env.tail.length + _ ≤ k; omega) (by simp [t, moved])
      refine ⟨e, c, k', (hgo t hvm).trans hrun, ⟨hd.env.trans (List.tail_suffix _), hd.str,
        hd.wire.trans (by show c1.wireOut = _; rw [hcc]; exact slotChan_wireOut s),
        hd.txq.trans (by show c1.txq <:+ _; rw [hcc]; exact slotChan_txq s), hd.cap.trans hcap⟩, hnil, hk', fun he => ?_,
        fun h => htk ⟨h.willing.tail, by show c1.ready = true; rw [hcc]; exact h.slot.1,
          by show c1.lineUp = true; rw [hcc]; exact h.slot.2⟩⟩
      rw [hch (by show s.env.tail = []; rw [he]; rfl)]
      show ({ c1 with rxq := [] } : Chan) = _
      rw [hcc, slotChan_of_env_nil he]
    · rw [if_neg ha] at hvm
      refine ⟨s.env.tail, slotChan s, k, hgo _ hvm, ⟨List.tail_suffix _, by simp [hnil], slotChan_wireOut s,
        slotChan_txq s, slotChan_capacity s⟩, hnil, by omega, fun he => ?_, fun h => h.moved⟩
      rw [slotChan_of_env_nil he] at hnil ⊢
      rw [← hnil]

theorem runPhase_budget (s : State) : s.env.length + ((stream s).length + 1 + 199) ≤ visitBudget s := by
  have := visitBudget_ge s
  omega

/-- `OPEN` (R70). -/
theorem hostOpen_drains {s : State} (hb : s.bound = false) (hc : Calm s.env) (hq : 0 < s.chan.capacity) :
    ∃ e c, hostOpen s = .next { s with bound := true, phase := .ready, ret := .unit, env := e, chan := c } ∧
      Drift s e c (arrivals e) ∧ c.rxq = [] ∧ (s.env = [] → c = { s.chan with rxq := [] }) := by
  let a : State := { s with bound := true, phase := .opening }
  obtain ⟨e, c, k', hrun, hd, hnil, -, hch, -⟩ := phase_drains (ph := .opening) (F := returnTo .unit) (m := 199)
    (fun u h => by simp [phaseActive, h]) (fun u h => by simp [phaseVisit, h]) (visitBudget a) a rfl hc hq
    (runPhase_budget a)
  refine ⟨e, c, ?_, ⟨hd.env, hd.str, hd.wire, hd.txq, hd.cap⟩, hnil, hch⟩
  unfold hostOpen
  rw [if_neg (by simp [hb])]
  exact hrun.trans (runVisits_rest rfl)

/-- `CLOSE` comes to its flush (R71). -/
theorem hostClose_flushing {s : State} (hb : s.bound = true) (hc : Calm s.env) (hq : 0 < s.chan.capacity) :
    ∃ e c k, hostClose s = runVisits phaseActive phaseVisit (k + 1) { s with phase := .flushing, env := e, chan := c } ∧
      Drift s e c (arrivals e) ∧ e.length + 198 ≤ k ∧ c.rxq = [] ∧ (s.env = [] → c = { s.chan with rxq := [] }) ∧
      (Taking s → Taking { s with phase := .flushing, env := e, chan := c }) := by
  let a : State := { s with phase := .closing }
  obtain ⟨e, c, k', hrun, hd, hnil, hk, hch, htk⟩ := phase_drains (ph := .closing)
    (F := fun u => { u with phase := .flushing }) (m := 199)
    (fun u h => by simp [phaseActive, h]) (fun u h => by simp [phaseVisit, h]) (visitBudget a) a rfl hc hq
    (runPhase_budget a)
  obtain ⟨k', rfl⟩ : ∃ j, k' = j + 1 := ⟨k' - 1, by omega⟩
  refine ⟨e, c, k', ?_, ⟨hd.env, hd.str, hd.wire, hd.txq, hd.cap⟩, by omega, hnil, hch, fun h =>
    have h' := htk ⟨h.willing, h.ready, h.line⟩
    ⟨h'.willing, h'.ready, h'.line⟩⟩
  unfold hostClose
  rw [if_pos hb]
  exact hrun

/-- The flush of `CLOSE` when the channel confirms it (R71). -/
theorem flushing_ends {k : Nat} {s : State} (hp : s.phase = .flushing) (hc : Calm s.env)
    (hf : canFlush (moved s) = true) :
    runVisits phaseActive phaseVisit (k + 1) s = .next { s with
      bound := false, phase := .ready, ret := .unit, env := s.env.tail, chan := { slotChan s with txq := [] } } := by
  rw [runVisits_go (t := { s with
      bound := false, phase := .ready, ret := .unit, env := s.env.tail, chan := { slotChan s with txq := [] } })]
  · exact runVisits_rest rfl
  · simp [phaseActive, hp]
  · rw [envStep_moved hc]
    unfold phaseVisit
    rw [show (moved s).phase = .flushing from hp]
    simp only
    rw [if_pos hf]
    rfl

/-- The flush of `CLOSE` when the channel does not confirm it and the world outside has no more moves. -/
theorem flushing_rests {k : Nat} {s : State} (hp : s.phase = .flushing) (he : s.env = [])
    (hf : canFlush s = false) : runVisits phaseActive phaseVisit (k + 1) s = .next s := by
  have hm : envStep s = s := envStep_of_env_nil he
  refine runVisits_wait_rest (by simp [phaseActive, hp]) ?_ he
  rw [hm]
  unfold phaseVisit
  rw [hp]
  simp only
  rw [if_neg (by simp [hf])]

end Sys2Proof.Machine
end

