-- ==== Sys2Proof/Laws/Visit.lean ====
section
/-! SUPPORT. What a visit keeps: from a state that meets the invariant every visit is made or waits, never refused, and leaves
a state that meets the invariant; so do the moves of the world outside. -/

namespace Sys2Proof.Machine

/-- The invariant after a visit that leaves the outputs alone. -/
theorem Inv.visited {s t : State} (h : Inv s) (h0 : s.st ≠ .idle) (hf : s.st ≠ .finish) (h1 : t.st ≠ .idle)
    (hbusy : t.busy = s.busy) (hill : t.illegal = s.illegal) (hres : t.result = s.result) (hcause : t.cause = s.cause)
    (hwf : t.bufs.wf = true) (htx : t.chan.txq <:+ t.chan.wireOut) (hp : t.pollT.toNat ≤ 25)
    (hp' : t.pollT ≠ 0#5 → t.st = .rWaitMin ∨ t.st = .rWaitFrame) (ho : opcodeAgrees t) (hs : sessionAgrees t)
    (hr : registersAgree t) : Inv t := by
  obtain ⟨hb, hi, -, -, -, -, hc, -, -, -⟩ := h
  refine ⟨?_, ?_, hwf, htx, hp, hp', ?_, ho, hs, hr⟩
  · rw [hbusy]; exact ⟨fun _ => h1, fun _ => hb.2 h0⟩
  · rw [hill]; exact fun h => absurd (hi h) hf
  · rw [hcause, hres]; exact hc

/-- The poll timer runs only in the two waits. -/
theorem Inv.poll_zero {s : State} (h : Inv s) (h1 : s.st ≠ .rWaitMin) (h2 : s.st ≠ .rWaitFrame) : s.pollT = 0#5 := by
  obtain ⟨-, -, -, -, -, hp, -⟩ := h
  by_cases h0 : s.pollT = 0#5
  · exact h0
  · rcases hp h0 with h | h
    · exact absurd h h1
    · exact absurd h h2

theorem Inv.wf {s : State} (h : Inv s) : s.bufs.wf = true := h.2.2.1

theorem Inv.txq {s : State} (h : Inv s) : s.chan.txq <:+ s.chan.wireOut := h.2.2.2.1

theorem Inv.poll {s : State} (h : Inv s) : s.pollT.toNat ≤ 25 := h.2.2.2.2.1

theorem Inv.opcode {s : State} (h : Inv s) : opcodeAgrees s := h.2.2.2.2.2.2.2.1

theorem Inv.session {s : State} (h : Inv s) : sessionAgrees s := h.2.2.2.2.2.2.2.2.1

theorem Inv.registers {s : State} (h : Inv s) : registersAgree s := h.2.2.2.2.2.2.2.2.2

theorem Inv.busy {s : State} (h : Inv s) : s.busy = true ↔ s.st ≠ .idle := h.1

/-- A suffix of the wire stays one when nothing is written. -/
theorem suffix_snoc {a w : List Byte} (h : a <:+ w) (b : Byte) : a ++ [b] <:+ w ++ [b] := by
  obtain ⟨l, rfl⟩ := h
  exact ⟨l, by simp⟩

/-- A read that the queue covers, when so many bytes more are to be covered. -/
theorem chanRead_of_queue {s : State} {n : Nat} (h : n + 1 ≤ s.chan.queue.length) :
    ∃ b q, chanRead s = (b, { s with chan := { s.chan with rxq := q } }) ∧
      n ≤ ({ s.chan with rxq := q } : Chan).queue.length := by
  obtain ⟨b, q, -, -, hr, hl⟩ := chanRead_covered (s := s) (by omega)
  exact ⟨b, q, hr, by omega⟩

theorem wait_poll {s : State} (h : s.pollT.toNat ≤ 25) : (s.pollT - 1#5).toNat ≤ 25 ∨ s.pollT = 0#5 := by
  by_cases h0 : s.pollT = 0#5
  · exact .inr h0
  · left
    have : s.pollT.toNat ≠ 0 := fun h => h0 (BitVec.eq_of_toNat_eq (by simpa using h))
    rw [BitVec.toNat_sub]
    simp
    omega

/-- The rule for one visit: it is made or it waits, and the invariant holds afterwards. -/
def VisitKeepsInv (s : State) : Prop := ∃ t, (visit s = .go t ∨ visit s = .wait t) ∧ Inv t

/-- Opens the invariant of a state whose sequencer state is known. -/
theorem Inv.at {s : State} (h : Inv s) {w : Seq} (hst : s.st = w) :
    opcodeAgrees { s with st := w } ∧ sessionAgrees { s with st := w } ∧ registersAgree { s with st := w } := by
  subst hst
  exact ⟨h.opcode, h.session, h.registers⟩

theorem inv_rCheck {s : State} (h : Inv s) (hst : s.st = .rCheck) : VisitKeepsInv s := by
  obtain ⟨ho, hs, -⟩ := h.at hst
  have hp := h.poll_zero (by simp [hst]) (by simp [hst])
  unfold VisitKeepsInv visit
  rw [hst]
  simp only [visitRCheck]
  split
  · rename_i hv
    refine ⟨_, .inl rfl, ?_⟩
    refine h.visited (by simp [hst]) (by simp [hst]) (by simp) rfl rfl rfl rfl h.wf h.txq h.poll (fun h => absurd hp h)
      ho hs ⟨hv, rfl, rfl, rfl⟩
  · refine ⟨_, .inl rfl, ?_⟩
    refine h.visited (by simp [hst]) (by simp [hst]) (by simp [fail]) rfl rfl rfl rfl h.wf h.txq h.poll
      (fun h => absurd hp h) trivial (fun _ => hs) (fun _ => ?_)
    have ho' : opField s.cmd = 2#4 := ho
    simp [fail, resultOf, ho']

theorem inv_wait {s : State} {n : Nat} {next : Seq} (h : Inv s) (hst : s.st = .rWaitMin ∨ s.st = .rWaitFrame)
    (hn : n ≤ 255) (hnext : next = .rReq ∨ next = .rResize) (hv : visit s = waitVisit n next s)
    (hr : n ≤ s.chan.queue.length → registersAgree { s with st := next }) (hpf : ∀ p, registersAgree { s with pollT := p }) :
    VisitKeepsInv s := by
  have h0 : s.st ≠ .idle := by rcases hst with h | h <;> simp [h]
  have hf : s.st ≠ .finish := by rcases hst with h | h <;> simp [h]
  have ho : opField s.cmd = 2#4 := by
    have := h.opcode; unfold opcodeAgrees at this; rcases hst with h | h <;> simpa [h] using this
  have hs : s.bound = true := by
    have := h.session; unfold sessionAgrees at this; rcases hst with h | h <;> simpa [h] using this
  unfold VisitKeepsInv
  rw [hv]
  unfold waitVisit
  split
  · rename_i hp
    refine ⟨_, .inl rfl, h.visited h0 hf h0 rfl rfl rfl rfl h.wf h.txq ?_ (fun _ => hst) h.opcode h.session (hpf _)⟩
    rcases wait_poll h.poll with h | h
    · exact h
    · exact absurd h hp
  · rename_i hp
    split
    · rename_i ha
      refine ⟨_, .inl rfl, h.visited h0 hf ?_ rfl rfl rfl rfl h.wf h.txq h.poll (fun h => absurd h hp) ?_ ?_
        (hr ((le_chanAvail hn s).1 ha))⟩
      · rcases hnext with h | h <;> simp [h]
      · rcases hnext with h | h <;> subst h <;> exact ho
      · rcases hnext with h | h <;> subst h <;> exact hs
    · exact ⟨_, .inr rfl, h.visited h0 hf h0 rfl rfl rfl rfl h.wf h.txq (show Config.pollInterval.toNat ≤ 25 by decide) (fun _ => hst) h.opcode h.session
        (hpf _)⟩

theorem inv_rWaitMin {s : State} (h : Inv s) (hst : s.st = .rWaitMin) : VisitKeepsInv s := by
  obtain ⟨-, -, hr⟩ := h.at hst
  obtain ⟨h1, h2, h3, h4⟩ := hr
  refine inv_wait (n := 4) (next := .rReq) h (.inl hst) (by omega) (.inl rfl) ?_ (fun hl => ⟨h1, h2, h3, h4, hl⟩) ?_
  · unfold visit; rw [hst]; rfl
  · intro p
    unfold registersAgree
    simp only [hst]
    exact ⟨h1, h2, h3, h4⟩

theorem inv_rWaitFrame {s : State} (h : Inv s) (hst : s.st = .rWaitFrame) : VisitKeepsInv s := by
  obtain ⟨-, -, hr⟩ := h.at hst
  obtain ⟨h1, h2, h3, h4, h5⟩ := hr
  refine inv_wait (n := s.rx.len.toNat) (next := .rResize) h (.inr hst) (by have := s.rx.len.isLt; omega) (.inr rfl) ?_
    (fun hl => ⟨h1, h2, h3, h4, h5, hl⟩) ?_
  · unfold visit; rw [hst]; rfl
  · intro p
    unfold registersAgree
    simp only [hst]
    exact ⟨h1, h2, h3, h4, h5⟩

theorem inv_rReq {s : State} (h : Inv s) (hst : s.st = .rReq) : VisitKeepsInv s := by
  obtain ⟨ho, hs, hr⟩ := h.at hst
  obtain ⟨h1, h2, h3, h4, h5⟩ := hr
  have hp := h.poll_zero (by simp [hst]) (by simp [hst])
  obtain ⟨b, q, hq, hl⟩ := chanRead_of_queue (s := s) (n := 3) h5
  unfold VisitKeepsInv visit
  rw [hst]
  simp only [visitRReq, hq]
  refine ⟨_, .inl rfl, h.visited (by simp [hst]) (by simp [hst]) (by simp) rfl rfl rfl rfl h.wf h.txq h.poll
    (fun h => absurd hp h) ho hs ⟨h1, ?_, h3, h4, hl⟩⟩
  have h2' : s.rx.ck = 0x00#8 := h2
  show foldByte s.rx.ck b = b
  simp [h2', foldByte]

theorem inv_rLen {s : State} (h : Inv s) (hst : s.st = .rLen) : VisitKeepsInv s := by
  obtain ⟨ho, hs, hr⟩ := h.at hst
  obtain ⟨h1, h2, h3, h4, h5⟩ := hr
  have hp := h.poll_zero (by simp [hst]) (by simp [hst])
  obtain ⟨b, q, hq, hl⟩ := chanRead_of_queue (s := s) (n := 2) h5
  unfold VisitKeepsInv visit
  rw [hst]
  simp only [visitRLen, hq]
  refine ⟨_, .inl rfl, h.visited (by simp [hst]) (by simp [hst]) (by simp) rfl rfl rfl rfl h.wf h.txq h.poll
    (fun h => absurd hp h) ho hs ⟨h1, ?_, h3, h4, hl⟩⟩
  have h2' : s.rx.ck = s.rx.req := h2
  show foldByte s.rx.ck b = xor8 [s.rx.req, b]
  simp [h2', xor8, foldByte]

theorem inv_rValidate {s : State} (h : Inv s) (hst : s.st = .rValidate) : VisitKeepsInv s := by
  obtain ⟨ho, hs, hr⟩ := h.at hst
  obtain ⟨h1, h2, h3, h4, h5⟩ := hr
  have hp := h.poll_zero (by simp [hst]) (by simp [hst])
  unfold VisitKeepsInv visit
  rw [hst]
  simp only [visitRValidate]
  split
  · rename_i hv
    exact ⟨_, .inl rfl, h.visited (by simp [hst]) (by simp [hst]) (by simp) rfl rfl rfl rfl h.wf h.txq h.poll
      (fun h => absurd hp h) ho hs ⟨h1, h2, h3, h4, hv⟩⟩
  · exact ⟨_, .inl rfl, h.visited (by simp [hst]) (by simp [hst]) (by simp [fail]) rfl rfl rfl rfl h.wf h.txq h.poll
      (fun h => absurd hp h) ho hs (fun h => absurd h4 h)⟩

theorem inv_rResize {s : State} (h : Inv s) (hst : s.st = .rResize) : VisitKeepsInv s := by
  obtain ⟨ho, hs, hr⟩ := h.at hst
  obtain ⟨h1, h2, h3, h4, h5, h6⟩ := hr
  have hp := h.poll_zero (by simp [hst]) (by simp [hst])
  have h1' : bufValid s.rx.h s = true := h1
  have h2' : s.rx.ck = xor8 [s.rx.req, s.rx.len] := h2
  have h3' : s.rx.idx = 0#6 := h3
  unfold VisitKeepsInv visit
  rw [hst]
  simp only [visitRResize]
  rw [if_pos h1']
  obtain ⟨a, c, ⟨hb, -⟩ | ⟨hb, -⟩⟩ := bufResize_cases s.rx.h (payloadSize s.rx.len) s <;> rw [hb]
  · refine ⟨_, .inl rfl, h.visited (by simp [hst]) (by simp [hst]) (by simp) rfl rfl rfl rfl
      (Memory.wf_put h.wf _ _) h.txq h.poll (fun h => absurd hp h) ho hs ⟨h5, h4, ?_, ?_, _,
        Memory.find_put_same _ _ _, length_freeBytes _ _, ?_⟩⟩
    · show s.rx.idx.toNat ≤ _; simp [h3']
    · show _ ≤ s.chan.queue.length + s.rx.idx.toNat; rw [h3']; exact h6
    · show s.rx.ck = xor8 (s.rx.req :: s.rx.len :: List.take s.rx.idx.toNat _); rw [h2', h3']; rfl
  · exact ⟨_, .inl rfl, h.visited (by simp [hst]) (by simp [hst]) (by simp [fail]) rfl rfl rfl rfl
      (Memory.wf_assign h.wf _ _) h.txq h.poll (fun h => absurd hp h) ho hs (fun h => absurd h4 h)⟩

theorem payloadSize_le {l : Byte} (h : validLength l = true) : payloadSize l ≤ 50 ∧ l.toNat = payloadSize l + 1 := by
  have := (validLength_iff l).1 h
  unfold payloadSize
  omega

theorem inv_rPayload {s : State} (h : Inv s) (hst : s.st = .rPayload) : VisitKeepsInv s := by
  obtain ⟨ho, hs, hr⟩ := h.at hst
  obtain ⟨h1, h2, h3, h4, d, h5, h6, h7⟩ := hr
  have hp := h.poll_zero (by simp [hst]) (by simp [hst])
  have h1' : validLength s.rx.len = true := h1
  have h3' : s.rx.idx.toNat ≤ payloadSize s.rx.len := h3
  have h4' : s.rx.len.toNat ≤ s.chan.queue.length + s.rx.idx.toNat := h4
  have h5' : s.bufs.find s.rx.h = some d := h5
  have h6' : d.length = payloadSize s.rx.len := h6
  have h7' : s.rx.ck = xor8 (s.rx.req :: s.rx.len :: d.take s.rx.idx.toNat) := h7
  have hlen := payloadSize_le h1'
  unfold VisitKeepsInv visit
  rw [hst]
  simp only [visitRPayload]
  split
  · rename_i hi
    obtain ⟨b, q, hq, hl⟩ := chanRead_of_queue (s := s) (n := s.chan.queue.length - 1) (by omega)
    simp only [hq]
    have hset : bufSet s.rx.h s.rx.idx.toNat b { s with chan := { s.chan with rxq := q } } = some { s with
        chan := { s.chan with rxq := q }, bufs := s.bufs.put s.rx.h (d.set s.rx.idx.toNat b) } :=
      bufSet_eq_some.2 ⟨d, h5', by omega, rfl⟩
    rw [hset]
    have hidx : (s.rx.idx + 1#6).toNat = s.rx.idx.toNat + 1 := idx_succ (by omega)
    refine ⟨_, .inl rfl, h.visited (by simp [hst]) (by simp [hst]) (by simp [hst]) rfl rfl rfl rfl
      (Memory.wf_put h.wf _ _) h.txq h.poll (fun h => absurd hp h) ?_ ?_ ?_⟩
    · unfold opcodeAgrees; simp only [hst]; exact ho
    · unfold sessionAgrees; simp only [hst]; exact hs
    · unfold registersAgree
      simp only [hst]
      refine ⟨h1', h2, by omega, ?_, _, Memory.find_put_same _ _ _, ?_, ?_⟩
      · show s.rx.len.toNat ≤ ({ s.chan with rxq := q } : Chan).queue.length + (s.rx.idx + 1#6).toNat
        omega
      · rw [List.length_set]; exact h6'
      · rw [hidx, take_succ_set (by omega), h7']
        exact (xor8_snoc (s.rx.req :: s.rx.len :: d.take s.rx.idx.toNat) b).symm
  · rename_i hi
    refine ⟨_, .inl rfl, h.visited (by simp [hst]) (by simp [hst]) (by simp) rfl rfl rfl rfl h.wf h.txq h.poll
      (fun h => absurd hp h) ho hs ⟨h1, h2, ?_, d, h5, h6, ?_⟩⟩
    · show 1 ≤ s.chan.queue.length; omega
    · show s.rx.ck = xor8 (s.rx.req :: s.rx.len :: d)
      rw [h7', List.take_of_length_le (by omega)]

theorem inv_rCksum {s : State} (h : Inv s) (hst : s.st = .rCksum) : VisitKeepsInv s := by
  obtain ⟨ho, hs, hr⟩ := h.at hst
  obtain ⟨h1, h2, h3, d, h4, h5, h6⟩ := hr
  have hp := h.poll_zero (by simp [hst]) (by simp [hst])
  obtain ⟨b, q, hq, -⟩ := chanRead_of_queue (s := s) (n := 0) h3
  unfold VisitKeepsInv visit
  rw [hst]
  simp only [visitRCksum, hq]
  split
  · refine ⟨_, .inl rfl, h.visited (by simp [hst]) (by simp [hst]) (by simp) rfl rfl rfl rfl h.wf h.txq h.poll
      (fun h => absurd hp h) ho hs (fun hne => ⟨?_, rfl, d, h4, h5, h6⟩)⟩
    exact if_neg hne
  · exact ⟨_, .inl rfl, h.visited (by simp [hst]) (by simp [hst]) (by simp [fail]) rfl rfl rfl rfl h.wf h.txq h.poll
      (fun h => absurd hp h) ho hs (fun h => absurd h2 h)⟩

theorem inv_rCleanup {s : State} (h : Inv s) (hst : s.st = .rCleanup) : VisitKeepsInv s := by
  obtain ⟨ho, hs, hr⟩ := h.at hst
  have hp := h.poll_zero (by simp [hst]) (by simp [hst])
  unfold VisitKeepsInv visit
  rw [hst]
  simp only [visitRCleanup]
  split
  · rename_i hc
    obtain ⟨b, q, hq, -⟩ := chanRead_of_queue (s := s) (n := 0) ((le_chanAvail (by omega) s).1 hc.2)
    simp only [drainOne, hq]
    refine ⟨_, .inl rfl, h.visited (by simp [hst]) (by simp [hst]) (by simp [hst]) rfl rfl rfl rfl h.wf h.txq h.poll
      (fun h => absurd hp h) ?_ ?_ ?_⟩
    · unfold opcodeAgrees; simp only [hst]; exact ho
    · unfold sessionAgrees; simp only [hst]; exact hs
    · unfold registersAgree
      simp only [hst]
      exact fun h => absurd hc.1 h
  · refine ⟨_, .inl rfl, h.visited (by simp [hst]) (by simp [hst]) (by simp) rfl rfl rfl rfl h.wf h.txq h.poll
      (fun h => absurd hp h) trivial (fun _ => hs) (fun hne => ?_)⟩
    have ho' : opField s.cmd = 2#4 := ho
    show resultOf _ = _
    simp only [resultOf, ho']
    by_cases h0 : s.rx.res = 0x00#8
    · exact h0
    · exact absurd (hr h0).1 hne

theorem inv_sCheck {s : State} (h : Inv s) (hst : s.st = .sCheck) : VisitKeepsInv s := by
  obtain ⟨ho, hs, hr⟩ := h.at hst
  have hp := h.poll_zero (by simp [hst]) (by simp [hst])
  obtain ⟨d, hd⟩ := (bufValid_iff _ _).1 hr
  have hd' : s.bufs.find (handleOf s.cmd) = some d := hd
  unfold VisitKeepsInv visit
  rw [hst]
  simp only [visitSCheck, hd']
  split
  · rename_i hv
    refine ⟨_, .inl rfl, h.visited (by simp [hst]) (by simp [hst]) (by simp) rfl rfl rfl rfl h.wf h.txq h.poll
      (fun h => absurd hp h) ho hs ⟨hv, rfl, rfl, d, hd, ?_⟩⟩
    have hv' := (validSize_iff _).1 hv
    show d.length = (sizeCount d).toNat
    by_cases hl : d.length ≤ 255
    · exact (sizeCount_toNat hl).symm
    · have := sizeCount_large (d := d) (by omega)
      have : (sizeCount d).toNat ≤ 50 := hv'.2
      omega
  · refine ⟨_, .inl rfl, h.visited (by simp [hst]) (by simp [hst]) (by simp [fail]) rfl rfl rfl rfl h.wf h.txq h.poll
      (fun h => absurd hp h) trivial (fun _ => hs) (fun _ => ?_)⟩
    have ho' : opField s.cmd = 3#4 := ho
    simp [fail, resultOf, ho']

/-- A visit that writes a byte keeps the invariant when what it leaves does. -/
theorem inv_writing {s u : State} {b : Byte} (h : Inv s) (h0 : s.st ≠ .idle) (hf : s.st ≠ .finish)
    (h1 : u.st ≠ .idle) (hp : s.pollT = 0#5)
    (hu : u.busy = s.busy ∧ u.illegal = s.illegal ∧ u.result = s.result ∧ u.cause = s.cause ∧ u.bufs = s.bufs ∧
      u.pollT = s.pollT ∧ u.chan = s.chan)
    (hv : visit s = writing b s u) (ho : opcodeAgrees (chanWrite b u)) (hs : sessionAgrees (chanWrite b u))
    (hr : registersAgree (chanWrite b u)) : VisitKeepsInv s := by
  obtain ⟨e1, e2, e3, e4, e5, e6, e7⟩ := hu
  unfold VisitKeepsInv
  rw [hv]
  unfold writing
  split
  · refine ⟨_, .inl rfl, h.visited h0 hf h1 e1 e2 e3 e4 ?_ ?_ ?_ ?_ ho hs hr⟩
    · show u.bufs.wf = true; rw [e5]; exact h.wf
    · show u.chan.txq ++ [b] <:+ u.chan.wireOut ++ [b]
      rw [e7]; exact suffix_snoc h.txq b
    · show u.pollT.toNat ≤ 25; rw [e6]; exact h.poll
    · intro hne; exact absurd (e6.trans hp) hne
  · exact ⟨_, .inr rfl, h⟩

theorem inv_sReq {s : State} (h : Inv s) (hst : s.st = .sReq) : VisitKeepsInv s := by
  obtain ⟨ho, hs, h1, h2, h3, d, h4, h5⟩ := h.at hst
  have hp := h.poll_zero (by simp [hst]) (by simp [hst])
  refine inv_writing (u := { s with tx := { s.tx with ck := foldByte 0x00#8 s.tx.req }, st := .sLen }) (b := s.tx.req)
    h (by simp [hst]) (by simp [hst]) (by simp) hp ⟨rfl, rfl, rfl, rfl, rfl, rfl, rfl⟩ ?_ ho hs
    ⟨h1, h2, h3, ?_, ⟨d, h4, h5⟩, ⟨s.chan.wireOut, rfl⟩⟩
  · unfold visit; rw [hst]; rfl
  · show foldByte 0x00#8 s.tx.req = s.tx.req
    simp [foldByte]

theorem inv_sLen {s : State} (h : Inv s) (hst : s.st = .sLen) : VisitKeepsInv s := by
  obtain ⟨ho, hs, h1, h2, h3, h4, ⟨d, h5, h6⟩, h7⟩ := h.at hst
  have hp := h.poll_zero (by simp [hst]) (by simp [hst])
  have h3' : s.tx.idx = 0#6 := h3
  have h4' : s.tx.ck = s.tx.req := h4
  refine inv_writing (u := { s with
      tx := { s.tx with len := sendLength s.tx.n, ck := foldByte s.tx.ck (sendLength s.tx.n) }, st := .sPayload })
    (b := sendLength s.tx.n)
    h (by simp [hst]) (by simp [hst]) (by simp) hp ⟨rfl, rfl, rfl, rfl, rfl, rfl, rfl⟩ ?_ ho hs
    ⟨h1, h2, ?_, rfl, d, h5, h6, ?_, ?_⟩
  · unfold visit; rw [hst]; rfl
  · show s.tx.idx.toNat ≤ _; simp [h3']
  · show foldByte s.tx.ck (sendLength s.tx.n) = xor8 (s.tx.req :: sendLength s.tx.n :: d.take s.tx.idx.toNat)
    rw [h3', h4']
    simp [xor8, foldByte]
  · show s.tx.req :: sendLength s.tx.n :: d.take s.tx.idx.toNat <:+ s.chan.wireOut ++ [sendLength s.tx.n]
    rw [h3']
    exact suffix_snoc h7 _

theorem inv_sPayload {s : State} (h : Inv s) (hst : s.st = .sPayload) : VisitKeepsInv s := by
  obtain ⟨ho, hs, h1, h2, h3, h4, d, h5, h6, h7, h8⟩ := h.at hst
  have hp := h.poll_zero (by simp [hst]) (by simp [hst])
  have h1' := (validSize_iff s.tx.n).1 h1
  have h3' : s.tx.idx.toNat ≤ s.tx.n.toNat := h3
  have h5' : s.bufs.find s.tx.h = some d := h5
  have h6' : d.length = s.tx.n.toNat := h6
  have h7' : s.tx.ck = xor8 (s.tx.req :: s.tx.len :: d.take s.tx.idx.toNat) := h7
  by_cases hi : s.tx.idx.toNat < s.tx.n.toNat
  · have hidx : (s.tx.idx + 1#6).toNat = s.tx.idx.toNat + 1 := idx_succ (by omega)
    have hlt : s.tx.idx.toNat < d.length := by omega
    have htake : d.take (s.tx.idx.toNat + 1) = d.take s.tx.idx.toNat ++ [d[s.tx.idx.toNat]] := by
      rw [List.take_add_one]; simp [hlt]
    refine inv_writing (u := { s with
        tx := { s.tx with ck := foldByte s.tx.ck d[s.tx.idx.toNat], idx := s.tx.idx + 1#6 } })
      (b := d[s.tx.idx.toNat])
      h (by simp [hst]) (by simp [hst]) (by simp [hst]) hp ⟨rfl, rfl, rfl, rfl, rfl, rfl, rfl⟩ ?_ ?_ ?_ ?_
    · rw [show visit s = visitSPayload s by unfold visit; rw [hst]]
      unfold visitSPayload
      rw [if_pos hi, show bufGet s.tx.h s.tx.idx.toNat s = some d[s.tx.idx.toNat] by
        show (s.bufs.find s.tx.h).bind _ = _
        rw [h5']; simp [hlt]]
    · unfold opcodeAgrees chanWrite; simp only [hst]; exact ho
    · unfold sessionAgrees chanWrite; simp only [hst]; exact hs
    · unfold registersAgree chanWrite
      simp only [hst]
      refine ⟨h1, h2, by omega, h4, d, h5', h6', ?_, ?_⟩
      · rw [hidx, htake, h7']
        exact (xor8_snoc (s.tx.req :: s.tx.len :: d.take s.tx.idx.toNat) _).symm
      · rw [hidx, htake]
        exact suffix_snoc h8 _
  · unfold VisitKeepsInv visit
    rw [hst]
    simp only [visitSPayload]
    rw [if_neg hi]
    refine ⟨_, .inl rfl, h.visited (by simp [hst]) (by simp [hst]) (by simp) rfl rfl rfl rfl h.wf h.txq h.poll
      (fun h => absurd hp h) ho hs ⟨h1, h2, h4, d, h5, h6, ?_, ?_⟩⟩
    · show s.tx.ck = xor8 (s.tx.req :: s.tx.len :: d)
      rw [h7', List.take_of_length_le (by omega)]
    · have h8' : s.tx.req :: s.tx.len :: d.take s.tx.idx.toNat <:+ s.chan.wireOut := h8
      rw [List.take_of_length_le (by omega)] at h8'
      exact h8'

theorem inv_sCksum {s : State} (h : Inv s) (hst : s.st = .sCksum) : VisitKeepsInv s := by
  obtain ⟨ho, hs, h1, h2, h3, d, h4, h5, h6, h7⟩ := h.at hst
  have hp := h.poll_zero (by simp [hst]) (by simp [hst])
  have h3' : s.tx.len = sendLength s.tx.n := h3
  have h5' : d.length = s.tx.n.toNat := h5
  have h6' : s.tx.ck = xor8 (s.tx.req :: s.tx.len :: d) := h6
  have hn := (validSize_iff s.tx.n).1 h1
  have hlen : frameLength ⟨s.tx.req, d⟩ = s.tx.len := by
    apply BitVec.eq_of_toNat_eq
    rw [h3', sendLength_toNat hn.2, ← h5']
    exact frameLength_toNat (d := d) (by omega)
  refine inv_writing (u := { s with st := .sFlush }) (b := s.tx.ck)
    h (by simp [hst]) (by simp [hst]) (by simp) hp ⟨rfl, rfl, rfl, rfl, rfl, rfl, rfl⟩ ?_ ho hs ⟨h2, d, h4, ?_⟩
  · unfold visit; rw [hst]; rfl
  · show frameBytes ⟨s.tx.req, d⟩ <:+ s.chan.wireOut ++ [s.tx.ck]
    unfold frameBytes frameChecksum
    rw [hlen, h6']
    exact suffix_snoc h7 _

theorem inv_sFlush {s : State} (h : Inv s) (hst : s.st = .sFlush) : VisitKeepsInv s := by
  obtain ⟨ho, hs, -⟩ := h.at hst
  have hp := h.poll_zero (by simp [hst]) (by simp [hst])
  unfold VisitKeepsInv visit
  rw [hst]
  simp only [visitSFlush]
  split
  · exact ⟨_, .inl rfl, h.visited (by simp [hst]) (by simp [hst]) (by simp) rfl rfl rfl rfl h.wf (List.nil_suffix)
      h.poll (fun h => absurd hp h) trivial (fun _ => hs) (fun h => absurd rfl h)⟩
  · exact ⟨_, .inr rfl, h⟩

theorem inv_kRun {s : State} (h : Inv s) (hst : s.st = .kRun) : VisitKeepsInv s := by
  obtain ⟨ho, hs, hr⟩ := h.at hst
  have hp := h.poll_zero (by simp [hst]) (by simp [hst])
  unfold VisitKeepsInv visit
  rw [hst]
  simp only [visitKRun]
  by_cases hk : s.kSize = true
  · obtain ⟨d, hd, h50⟩ := hr.1 hk
    have hd' : s.bufs.find (handleOf s.cmd) = some d := hd
    have hn := sizeCount_toNat (d := d) (by omega)
    rw [if_pos hk, show cksumBuffer (handleOf s.cmd) s = .ok d by
      unfold cksumBuffer; rw [hd']; exact if_pos h50]
    refine ⟨_, .inl rfl, h.visited (by simp [hst]) (by simp [hst]) (by simp [hst]) rfl rfl rfl rfl h.wf h.txq h.poll
      (fun h => absurd hp h) ?_ ?_ ?_⟩
    · unfold opcodeAgrees; simp only [hst]; exact ho
    · unfold sessionAgrees; simp only [hst]; exact hs
    · unfold registersAgree
      simp only [hst]
      exact ⟨(fun h => by cases h), fun _ => ⟨by omega, by simp, d, hd', hn.symm, rfl⟩⟩
  rw [if_neg hk]
  have hk' : s.kSize = false := by simpa using hk
  obtain ⟨h1, h2, d, h3, h4, h5⟩ := hr.2 hk'
  have h1' : s.tx.n.toNat ≤ 50 := h1
  have h3' : s.bufs.find s.tx.h = some d := h3
  have h4' : d.length = s.tx.n.toNat := h4
  have h5' : s.tx.ck = xor8 (d.take s.tx.idx.toNat) := h5
  split
  · rename_i hi
    have hidx : (s.tx.idx + 1#6).toNat = s.tx.idx.toNat + 1 := idx_succ (by omega)
    have hlt : s.tx.idx.toNat < d.length := by omega
    rw [show bufGet s.tx.h s.tx.idx.toNat s = some d[s.tx.idx.toNat] by
        show (s.bufs.find s.tx.h).bind _ = _
        rw [h3']; simp [hlt]]
    refine ⟨_, .inl rfl, h.visited (by simp [hst]) (by simp [hst]) (by simp [hst]) rfl rfl rfl rfl h.wf h.txq h.poll
      (fun h => absurd hp h) ?_ ?_ ?_⟩
    · unfold opcodeAgrees; simp only [hst]; exact ho
    · unfold sessionAgrees; simp only [hst]; exact hs
    · unfold registersAgree
      simp only [hst]
      refine ⟨fun h => absurd h hk, fun _ => ⟨h1', by omega, d, h3', h4', ?_⟩⟩
      rw [hidx, List.take_add_one, h5', ← xor8_snoc]
      simp [hlt]
  · exact ⟨_, .inl rfl, h.visited (by simp [hst]) (by simp [hst]) (by simp) rfl rfl rfl rfl h.wf h.txq h.poll
      (fun h => absurd hp h) trivial hs (fun h => absurd rfl h)⟩

theorem inv_eRun {s : State} (h : Inv s) (hst : s.st = .eRun) : VisitKeepsInv s := by
  obtain ⟨ho, hs, -⟩ := h.at hst
  have hp := h.poll_zero (by simp [hst]) (by simp [hst])
  unfold VisitKeepsInv visit
  rw [hst]
  exact ⟨_, .inl rfl, h.visited (by simp [hst]) (by simp [hst]) (by simp) rfl rfl rfl rfl h.wf h.txq h.poll
    (fun h => absurd hp h) trivial hs (fun h => absurd rfl h)⟩

theorem inv_finish {s : State} (h : Inv s) (hst : s.st = .finish) : VisitKeepsInv s := by
  obtain ⟨-, hs, hr⟩ := h.at hst
  have hp := h.poll_zero (by simp [hst]) (by simp [hst])
  unfold VisitKeepsInv visit
  rw [hst]
  exact ⟨_, .inl rfl, ⟨by simp, by simp, h.wf, h.txq, h.poll, fun h => absurd hp h, hr, trivial, hs, trivial⟩⟩

/-- Every visit from a state that meets the invariant is made or waits, and the invariant holds afterwards. -/
theorem visit_keeps_inv {s : State} (h : Inv s) : VisitKeepsInv s := by
  cases hst : s.st with
  | idle => exact ⟨s, .inl (by unfold visit; rw [hst]), h⟩
  | rCheck => exact inv_rCheck h hst
  | rWaitMin => exact inv_rWaitMin h hst
  | rReq => exact inv_rReq h hst
  | rLen => exact inv_rLen h hst
  | rValidate => exact inv_rValidate h hst
  | rWaitFrame => exact inv_rWaitFrame h hst
  | rResize => exact inv_rResize h hst
  | rPayload => exact inv_rPayload h hst
  | rCksum => exact inv_rCksum h hst
  | rCleanup => exact inv_rCleanup h hst
  | sCheck => exact inv_sCheck h hst
  | sReq => exact inv_sReq h hst
  | sLen => exact inv_sLen h hst
  | sPayload => exact inv_sPayload h hst
  | sCksum => exact inv_sCksum h hst
  | sFlush => exact inv_sFlush h hst
  | kRun => exact inv_kRun h hst
  | eRun => exact inv_eRun h hst
  | finish => exact inv_finish h hst

/-- Reset brings the engine to a state that meets the invariant, whatever the collaborators hold (70 R150). -/
theorem resetEngine_inv {s : State} (h : s.bufs.wf = true) (ht : s.chan.txq <:+ s.chan.wireOut) : Inv (resetEngine s) :=
  ⟨by simp [resetEngine, State.reset], by simp [resetEngine, State.reset], h, ht, Nat.zero_le 25, fun h => absurd rfl h,
    fun _ => rfl, trivial, fun h => absurd rfl h, trivial⟩

/-- The registers agree whatever bytes arrive and whatever the levels of the channel are. -/
theorem registersAgree_chan {s : State} {c : Chan} (h : registersAgree s) (hl : s.chan.queue.length ≤ c.queue.length)
    (hw : c.wireOut = s.chan.wireOut) : registersAgree { s with chan := c } := by
  unfold registersAgree at *
  cases hst : s.st <;> simp only [hst] at h ⊢ <;> try exact h
  · exact ⟨h.1, h.2.1, h.2.2.1, h.2.2.2.1, h.2.2.2.2.trans hl⟩
  · exact ⟨h.1, h.2.1, h.2.2.1, h.2.2.2.1, h.2.2.2.2.trans hl⟩
  · exact ⟨h.1, h.2.1, h.2.2.1, h.2.2.2.1, h.2.2.2.2.trans hl⟩
  · exact ⟨h.1, h.2.1, h.2.2.1, h.2.2.2.1, h.2.2.2.2.1, h.2.2.2.2.2.trans hl⟩
  · exact ⟨h.1, h.2.1, h.2.2.1, h.2.2.2.1.trans (by omega), h.2.2.2.2⟩
  · exact ⟨h.1, h.2.1, h.2.2.1.trans hl, h.2.2.2⟩
  all_goals rw [hw]; exact h

/-- A move of the world outside keeps the invariant. -/
theorem applyMove_inv {s : State} (h : Inv s) (m : EnvMove) : Inv (applyMove s m) := by
  by_cases hm : m = .rst
  · subst hm; exact resetEngine_inv h.wf h.txq
  · have happ : applyMove s m = { s with chan := m.onChan s.chan } := by
      cases m <;> first | rfl | exact absurd rfl hm
    rw [happ]
    obtain ⟨hb, hi, hw, hq, hp, hpw, hc, ho, hs, hr⟩ := h
    refine ⟨hb, hi, hw, ?_, hp, hpw, hc, ho, hs, registersAgree_chan hr ?_ (onChan_wireOut m s.chan)⟩
    · show (m.onChan s.chan).txq <:+ (m.onChan s.chan).wireOut
      rw [onChan_wireOut]
      exact (onChan_txq m s.chan).trans hq
    · exact onChan_queue m s.chan

/-- So do all the moves of a slot. -/
theorem envStep_inv {s : State} (h : Inv s) : Inv (envStep s) :=
  envStep_keeps (P := Inv) h fun _ m hu => applyMove_inv hu m

/-- The engine's run from a state that meets the invariant answers a next state that meets it. -/
theorem runEngineFor_inv (k : Nat) {s : State} (h : Inv s) : ∃ t, runEngineFor k s = .next t ∧ Inv t :=
  runVisits_keeps (P := Inv) (fun _ hs _ => visit_keeps_inv (envStep_inv hs)) k s h

/-- A round of `OPEN` or `CLOSE` keeps the invariant. -/
theorem phaseVisit_keeps_inv {s : State} (h : Inv s) (hst : s.st = .idle) :
    ∃ t, (phaseVisit s = .go t ∨ phaseVisit s = .wait t) ∧ Inv t ∧ t.st = .idle := by
  have hs : s.phase ≠ .ready → s.bound = true := (h.at hst).2.1
  have hp := h.poll_zero (by simp [hst]) (by simp [hst])
  have drain : 0 < chanAvail s → Inv (drainOne s) ∧ (drainOne s).st = .idle := fun ha => by
    obtain ⟨b, q, hq, -⟩ := chanRead_of_queue (s := s) (n := 0) ((le_chanAvail (by omega) s).1 ha)
    simp only [drainOne, hq]
    refine ⟨⟨h.1, h.2.1, h.wf, h.txq, h.poll, h.2.2.2.2.2.1, h.2.2.2.2.2.2.1, h.opcode, h.session, ?_⟩, hst⟩
    unfold registersAgree; simp only [hst]
  have quiet : ∀ u : State, u.st = .idle → u.busy = s.busy → u.illegal = s.illegal → u.bufs = s.bufs →
      u.chan.txq <:+ u.chan.wireOut → u.pollT = s.pollT → u.result = s.result → u.cause = s.cause →
      (u.phase ≠ .ready → u.bound = true) → Inv u := fun u h1 h2 h3 h4 h5 h6 h7 h8 h9 => by
    refine ⟨?_, ?_, ?_, h5, ?_, ?_, ?_, ?_, ?_, ?_⟩
    · rw [h1, h2]; have := h.1; rwa [hst] at this
    · rw [h1, h3]; have := h.2.1; rwa [hst] at this
    · rw [h4]; exact h.wf
    · rw [h6]; exact h.poll
    · rw [h6]; exact fun h => absurd hp h
    · rw [h7, h8]; exact h.2.2.2.2.2.2.1
    · unfold opcodeAgrees; simp only [h1]
    · unfold sessionAgrees; simp only [h1]; exact h9
    · unfold registersAgree; simp only [h1]
  unfold phaseVisit
  cases hph : s.phase with
  | opening =>
    simp only
    split
    · rename_i ha; exact ⟨_, .inl rfl, drain ha⟩
    · exact ⟨_, .inl rfl, quiet _ hst rfl rfl rfl h.txq rfl rfl rfl (fun h => absurd rfl h), hst⟩
  | closing =>
    simp only
    split
    · rename_i ha; exact ⟨_, .inl rfl, drain ha⟩
    · exact ⟨_, .inl rfl, quiet _ hst rfl rfl rfl h.txq rfl rfl rfl (fun _ => hs (by simp [hph])), hst⟩
  | flushing =>
    simp only
    split
    · exact ⟨_, .inl rfl, quiet _ hst rfl rfl rfl List.nil_suffix rfl rfl rfl (fun h => absurd rfl h), hst⟩
    · exact ⟨_, .inr rfl, h, hst⟩
  | ready => exact ⟨_, .inl rfl, h, hst⟩
  | sent1 k => exact ⟨_, .inl rfl, h, hst⟩
  | sent hr k => exact ⟨_, .inl rfl, h, hst⟩
  | received k => exact ⟨_, .inl rfl, h, hst⟩

/-- The moves of the world outside leave an idle engine idle. -/
theorem envStep_idle {s : State} (h : s.st = .idle) : (envStep s).st = .idle :=
  envStep_keeps (P := fun u => u.st = .idle) h fun _ m hu => by cases m <;> first | rfl | exact hu

theorem runPhase_inv {s : State} (h : Inv s) (hst : s.st = .idle) : ∃ t, runPhase s = .next t ∧ Inv t ∧ t.st = .idle := by
  have := runVisits_keeps (act := phaseActive) (v := phaseVisit) (P := fun s => Inv s ∧ s.st = .idle)
    (fun u hu _ => by
      obtain ⟨t, ht, h1, h2⟩ := phaseVisit_keeps_inv (envStep_inv hu.1) (envStep_idle hu.2)
      exact ⟨t, ht, h1, h2⟩) (visitBudget s) s ⟨h, hst⟩
  exact this

end Sys2Proof.Machine
end

