-- ==== Sys2Proof/Laws/HostKept.lean ====
section
/-! SUPPORT. What the operations leave of the host's side, and that each part of a step keeps the invariant. -/

namespace Sys2Proof.Machine

/-- A resize touches the buffer it names, the answers and the counter of the free values. -/
theorem bufResize_host {h : Handle} {n : Nat} {s u : State} {b : Bool} (e : bufResize h n s = (b, u)) : SameHost s u ∧ u.env = s.env ∧ u.chan = s.chan ∧ OtherBuffersKept h s u ∧ EngineKept s u := by
  obtain ⟨a, c, ⟨h', -⟩ | ⟨h', -⟩⟩ := bufResize_cases h n s
  all_goals
    rw [h'] at e
    obtain ⟨-, rfl⟩ := Prod.mk.inj e
    refine ⟨⟨rfl, rfl, rfl, rfl⟩, rfl, rfl, fun j hj => ?_, ⟨rfl, rfl, rfl, rfl, rfl, rfl, rfl, rfl, rfl, rfl, rfl, rfl⟩⟩
  · have := Memory.find_put_of_ne s.bufs (freeBytes c n) hj.symm
    exact ⟨this, fun i => by unfold Memory.byteAt; rw [this]⟩
  · have := Memory.find_assign_of_ne s.bufs (Config.failedResize c) hj.symm
    exact ⟨this, fun i => by unfold Memory.byteAt; rw [this]⟩

/-- A read touches the receive stream and the counter of the free values. -/
theorem chanRead_host (s : State) : SameHost s (chanRead s).2 ∧ (chanRead s).2.env = s.env ∧ (chanRead s).2.bufs = s.bufs ∧ EngineKept s (chanRead s).2 := by
  unfold chanRead; split <;> exact ⟨⟨rfl, rfl, rfl, rfl⟩, rfl, rfl, ⟨rfl, rfl, rfl, rfl, rfl, rfl, rfl, rfl, rfl, rfl, rfl, rfl⟩⟩

/-- No visit touches the host's side or the slots to come. -/
theorem visit_host {s t : State} (h : visit s = .go t ∨ visit s = .wait t) : SameHost s t ∧ t.env = s.env := by
  have writing_host : ∀ {b : Byte} {u : State}, writing b s u = .go t ∨ writing b s u = .wait t → SameHost s u → u.env = s.env → SameHost s t ∧ t.env = s.env := by
    intro b u hw hu he
    unfold writing at hw
    split at hw
    · rcases hw with hw | hw
      · cases hw; exact ⟨hu, he⟩
      · cases hw
    · rcases hw with hw | hw
      · cases hw
      · cases hw; exact ⟨⟨rfl, rfl, rfl, rfl⟩, rfl⟩
  have read := chanRead_host s
  have wait_host : ∀ n nx, waitVisit n nx s = .go t ∨ waitVisit n nx s = .wait t → SameHost s t ∧ t.env = s.env := by
    intro n nx hw
    unfold waitVisit at hw
    split at hw
    · rcases hw with hw | hw <;> cases hw; exact ⟨⟨rfl, rfl, rfl, rfl⟩, rfl⟩
    · split at hw <;> (rcases hw with hw | hw <;> cases hw; exact ⟨⟨rfl, rfl, rfl, rfl⟩, rfl⟩)
  unfold visit at h
  split at h
  case h_3 => exact wait_host _ _ h
  case h_7 => exact wait_host _ _ h
  case h_13 => exact writing_host h ⟨rfl, rfl, rfl, rfl⟩ rfl
  case h_14 => exact writing_host h ⟨rfl, rfl, rfl, rfl⟩ rfl
  case h_16 => exact writing_host h ⟨rfl, rfl, rfl, rfl⟩ rfl
  case h_15 =>
    unfold visitSPayload at h
    split at h
    · split at h
      · exact writing_host h ⟨rfl, rfl, rfl, rfl⟩ rfl
      · simp at h
    · rcases h with h | h <;> cases h; exact ⟨⟨rfl, rfl, rfl, rfl⟩, rfl⟩
  case h_8 =>
    unfold visitRResize at h
    split at h
    · split at h
      · rename_i u hu
        have := bufResize_host hu
        rcases h with h | h <;> cases h; exact ⟨this.1, this.2.1⟩
      · rename_i u hu
        have := bufResize_host hu
        rcases h with h | h <;> cases h; exact ⟨this.1, this.2.1⟩
    · simp at h
  case h_9 =>
    unfold visitRPayload at h
    split at h
    · simp only at h
      split at h
      · rename_i u hu
        obtain ⟨d, -, -, rfl⟩ := bufSet_eq_some.1 hu
        rcases h with h | h <;> cases h; exact ⟨read.1, read.2.1⟩
      · simp at h
    · rcases h with h | h <;> cases h; exact ⟨⟨rfl, rfl, rfl, rfl⟩, rfl⟩
  case h_4 => rcases h with h | h <;> cases h; exact ⟨read.1, read.2.1⟩
  case h_5 => rcases h with h | h <;> cases h; exact ⟨read.1, read.2.1⟩
  case h_10 =>
    unfold visitRCksum at h; simp only at h
    split at h <;> (rcases h with h | h <;> cases h; exact ⟨read.1, read.2.1⟩)
  case h_11 =>
    unfold visitRCleanup at h
    split at h <;> (rcases h with h | h <;> cases h)
    · exact ⟨read.1, read.2.1⟩
    · exact ⟨⟨rfl, rfl, rfl, rfl⟩, rfl⟩
  all_goals
    first | unfold visitRCheck at h | unfold visitRValidate at h | unfold visitSCheck at h | unfold visitSFlush at h | unfold visitKRun at h | unfold visitERun at h | unfold visitFinish at h | skip
    try simp only at h
    iterate 3 (all_goals (try split at h))
    all_goals first | (rcases h with h | h <;> cases h; exact ⟨⟨rfl, rfl, rfl, rfl⟩, rfl⟩) | simp at h


/-- With no reset asserted the engine leaves the host's side alone (10_state.md R16). -/
theorem runEngine_host {s t : State} (hc : NoReset s.env) (h : runEngine s = .next t) : SameHost s t ∧ t.env <:+ s.env := by
  refine runVisits_next_keeps (act := engineActive) (v := visit) (P := fun u => SameHost s u ∧ u.env <:+ s.env) ?_ _ _ _ ⟨⟨rfl, rfl, rfl, rfl⟩, List.suffix_rfl⟩ h
  intro u v hu _ hv
  have hcu : NoReset u.env := fun slot hs => hc slot (hu.2.subset hs)
  rw [envStep_noReset hcu] at hv
  obtain ⟨h1, h2⟩ := visit_host hv
  exact ⟨⟨h1.1.trans hu.1.1, h1.2.1.trans hu.1.2.1, h1.2.2.1.trans hu.1.2.2.1, h1.2.2.2.trans hu.1.2.2.2⟩, h2 ▸ (laterSlots_suffix _).trans hu.2⟩

/-- With no reset asserted no operation touches the host's side. -/
theorem exec_host {i : Instr} {s t : State} (hc : NoReset s.env) (h : exec i s = .next t) : SameHost s t := by
  cases i with
  | encode b a =>
    rw [exec_encode] at h; unfold execEncode at h
    split at h
    · cases h; exact ⟨rfl, rfl, rfl, rfl⟩
    · exact (runEngine_host (s := accept _ _ s) hc h).1
  | cksum k =>
    rw [exec_cksum] at h; unfold execCksum at h
    split at h
    · cases h; exact ⟨rfl, rfl, rfl, rfl⟩
    · split at h
      · cases h
      · exact (runEngine_host (s := startCksum _ s) hc h).1
  | recv k =>
    rw [exec_recv] at h; unfold execRecv at h
    split at h
    · cases h; exact ⟨rfl, rfl, rfl, rfl⟩
    · split at h
      · exact (runEngine_host (s := accept _ _ s) hc h).1
      · cases h
  | send r k =>
    rw [exec_send] at h; unfold execSend at h
    split at h
    · cases h; exact ⟨rfl, rfl, rfl, rfl⟩
    · split at h
      · split at h
        · exact (runEngine_host (s := accept _ _ s) hc h).1
        · cases h
      · cases h

theorem bufAlloc_host (n : Nat) (s : State) : SameHost s (bufAlloc n s).2 ∧ (bufAlloc n s).2.env = s.env := by
  obtain ⟨a, c, h | ⟨k, -, h⟩⟩ := bufAlloc_cases n s <;> rw [h] <;> exact ⟨⟨rfl, rfl, rfl, rfl⟩, rfl⟩

theorem bufSet_host {k : Handle} {i : Nat} {v : Byte} {s t : State} (h : bufSet k i v s = some t) : SameHost s t ∧ t.env = s.env := by
  obtain ⟨d, -, -, rfl⟩ := bufSet_eq_some.1 h
  exact ⟨⟨rfl, rfl, rfl, rfl⟩, rfl⟩

/-- What the invariant asks of an idle state. -/
theorem Inv.idle {s u : State} (h : Inv s) (hst : s.st = .idle) (h1 : u.st = .idle) (h2 : u.busy = s.busy) (h3 : u.illegal = s.illegal) (h4 : u.bufs.wf = true)
    (h5 : u.chan = s.chan) (h6 : u.pollT = s.pollT) (h7 : u.result = s.result) (h8 : u.cause = s.cause) (h9 : u.phase ≠ .ready → u.bound = true) : Inv u := by
  have hp := h.poll_zero (by simp [hst]) (by simp [hst])
  refine ⟨?_, ?_, h4, ?_, ?_, ?_, ?_, ?_, ?_, ?_⟩
  · rw [h1, h2]; have := h.1; rwa [hst] at this
  · rw [h1, h3]; have := h.2.1; rwa [hst] at this
  · rw [h5]; exact h.txq
  · rw [h6]; exact h.poll
  · rw [h6]; exact fun h => absurd hp h
  · rw [h7, h8]; exact h.2.2.2.2.2.2.1
  · unfold opcodeAgrees; simp only [h1]
  · unfold sessionAgrees; simp only [h1]; exact h9
  · unfold registersAgree; simp only [h1]

/-- Acceptance keeps the invariant when the operation's first state meets it. -/
theorem accept_inv {s : State} (h : Inv s) (hst : s.st = .idle) {w : CmdWord} {q : Machine.Seq} (hq : q ≠ .idle) (ho : opcodeAgrees { s with cmd := w, st := q })
    (hs : sessionAgrees { s with st := q }) (hr : registersAgree (accept w q s)) : Inv (accept w q s) := by
  have hp := h.poll_zero (by simp [hst]) (by simp [hst])
  exact ⟨⟨fun _ => hq, fun _ => rfl⟩, (fun h => by cases h), h.wf, h.txq, h.poll, fun h => absurd hp h, h.2.2.2.2.2.2.1, ho, hs, hr⟩

/-- Every operation keeps the invariant, resets in its slots or not. -/
theorem exec_inv {i : Instr} {s t : State} (h : Inv s) (hst : s.st = .idle) (he : exec i s = .next t) : Inv t := by
  have run : ∀ {u : State}, Inv u → runEngine u = .next t → Inv t := by
    intro u hu hr
    obtain ⟨v, hv, hI⟩ := runEngineFor_inv (visitBudget u) hu
    have : Host.Outcome.next v = Host.Outcome.next t := hv.symm.trans hr
    cases this; exact hI
  have hp := h.poll_zero (by simp [hst]) (by simp [hst])
  have hs : s.phase ≠ .ready → s.bound = true := (h.at hst).2.1
  cases i with
  | encode b a =>
    rw [exec_encode] at he; unfold execEncode at he
    split at he
    · cases he; exact h
    · exact run (accept_inv (w := encode (.encode b a)) (q := .eRun) h hst (by simp) (opField_encode _) hs trivial) he
  | cksum k =>
    rw [exec_cksum] at he; unfold execCksum at he
    split at he
    · cases he; exact h
    · split at he
      · cases he
      · rename_i d hd
        refine run (u := startCksum k s) ⟨⟨fun _ => by simp [startCksum, accept], fun _ => rfl⟩, (fun h => by cases h), h.wf, h.txq, h.poll, fun h => absurd hp h, h.2.2.2.2.2.2.1, opField_encode _, hs, ?_⟩ he
        refine ⟨fun _ => ⟨d, ?_⟩, (fun h => by cases h)⟩
        show s.bufs.find (handleOf (encode (.cksum k))) = some d ∧ _
        rw [handleOf_encode]
        exact cksumBuffer_ok.1 hd
  | recv k =>
    rw [exec_recv] at he; unfold execRecv at he
    split at he
    · cases he; exact h
    · split at he
      · rename_i hb
        exact run (accept_inv (w := encode (.recv k)) (q := .rCheck) h hst (by simp) (opField_encode _) hb trivial) he
      · cases he
  | send r k =>
    rw [exec_send] at he; unfold execSend at he
    split at he
    · cases he; exact h
    · split at he
      · rename_i hb
        split at he
        · rename_i hv
          refine run (accept_inv (w := encode (.send r k)) (q := .sCheck) h hst (by simp) (opField_encode _) hb ?_) he
          show bufValid (handleOf (encode (.send r k))) s = true
          rw [handleOf_encode]; exact hv
        · cases he
      · cases he

/-! ## The host's calls keep the invariant -/

theorem startSendRecv_inv {r : Byte} {hp hr : Handle} {k : Option Handle} {s t : State} (h : Inv s) (hst : s.st = .idle) (hb : s.bound = true)
    (he : startSendRecv r hp hr k s = .next t) : Inv t := by
  unfold startSendRecv at he
  split at he
  · exact exec_inv (s := { s with phase := .sent hr k }) (h.idle hst hst rfl rfl h.wf rfl rfl rfl rfl (fun _ => hb)) hst he
  · cases he
    cases k with
    | none => exact h.idle hst hst rfl rfl h.wf rfl rfl rfl rfl (fun h => absurd rfl h)
    | some k => exact h.idle hst hst rfl rfl (Memory.wf_erase h.wf k) rfl rfl rfl rfl (fun h => absurd rfl h)

theorem alloc_set_inv {n : Nat} {k : Option Handle} {s u : State} (h : Inv s) (hst : s.st = .idle) (hu : bufAlloc n s = (k, u)) : Inv u ∧ u.st = .idle ∧ u.bound = s.bound ∧ u.phase = s.phase := by
  have hw := bufAlloc_keeps_wf n h.wf
  have hs : s.phase ≠ .ready → s.bound = true := (h.at hst).2.1
  obtain ⟨a, c, h' | ⟨k', hf, h'⟩⟩ := bufAlloc_cases n s <;> rw [h'] at hu hw <;> (obtain ⟨rfl, rfl⟩ := Prod.mk.inj hu)
  · exact ⟨h.idle hst hst rfl rfl hw rfl rfl rfl rfl hs, hst, rfl, rfl⟩
  · exact ⟨h.idle hst hst rfl rfl hw rfl rfl rfl rfl hs, hst, rfl, rfl⟩

theorem bufSet_inv {k : Handle} {i : Nat} {v : Byte} {s u : State} (h : Inv s) (hst : s.st = .idle) (hu : bufSet k i v s = some u) : Inv u ∧ u.st = .idle ∧ u.bound = s.bound ∧ u.phase = s.phase := by
  have hw := bufSet_keeps_wf h.wf hu
  have hs : s.phase ≠ .ready → s.bound = true := (h.at hst).2.1
  obtain ⟨d, -, -, rfl⟩ := bufSet_eq_some.1 hu
  exact ⟨h.idle hst hst rfl rfl hw rfl rfl rfl rfl hs, hst, rfl, rfl⟩

theorem bufResize_inv {k : Handle} {n : Nat} {b : Bool} {s u : State} (h : Inv s) (hst : s.st = .idle) (hu : bufResize k n s = (b, u)) : Inv u ∧ u.st = .idle := by
  have hw := bufResize_keeps_wf k n h.wf
  have hs : s.phase ≠ .ready → s.bound = true := (h.at hst).2.1
  obtain ⟨a, c, ⟨h', -⟩ | ⟨h', -⟩⟩ := bufResize_cases k n s <;> rw [h'] at hu hw <;> (obtain ⟨rfl, rfl⟩ := Prod.mk.inj hu)
  · exact ⟨h.idle hst hst rfl rfl hw rfl rfl rfl rfl hs, hst⟩
  · exact ⟨h.idle hst hst rfl rfl hw rfl rfl rfl rfl hs, hst⟩

theorem returnTo_inv {s : State} (r : HostRet) (h : Inv s) (hst : s.st = .idle) : Inv (returnTo r s) :=
  h.idle hst hst rfl rfl h.wf rfl rfl rfl rfl (fun h => absurd rfl h)

theorem afterOperation_inv {s t : State} (h : Inv s) (hst : s.st = .idle) (he : afterOperation s = .next t) : Inv t := by
  have hs : s.phase ≠ .ready → s.bound = true := (h.at hst).2.1
  have free : ∀ (k : Option Handle) (r : HostRet), Inv (returnTo r (freeTransient k s)) := by
    intro k r
    cases k with
    | none => exact returnTo_inv r h hst
    | some k => exact h.idle hst hst rfl rfl (Memory.wf_erase h.wf k) rfl rfl rfl rfl (fun h => absurd rfl h)
  unfold afterOperation at he
  split at he
  · cases he; exact free (some _) _
  · rename_i hr k hph
    split at he
    · cases he; exact free _ _
    · exact exec_inv (s := { s with phase := .received k }) (h.idle hst hst rfl rfl h.wf rfl rfl rfl rfl (fun _ => hs (by simp [hph]))) hst he
  · cases he; exact free _ _
  all_goals (cases he; exact h)

theorem runPhase_next_inv {s t : State} (h : Inv s) (hst : s.st = .idle) (he : runPhase s = .next t) : Inv t := by
  obtain ⟨u, hu, hI, -⟩ := runPhase_inv h hst
  rw [hu] at he; cases he; exact hI

theorem hostCall_inv {c : HostCall} {s t : State} (h : Inv s) (hst : s.st = .idle) (hph : s.phase = .ready) (he : hostCall c s = .next t) : Inv t := by
  have hp := h.poll_zero (by simp [hst]) (by simp [hst])
  cases c with
  | command w =>
    simp only [hostCall, hostCommand] at he
    split at he
    · exact exec_inv h hst he
    · rename_i o hd
      cases he
      refine ⟨⟨fun _ => by simp [acceptIllegal, accept], fun _ => rfl⟩, fun _ => rfl, h.wf, h.txq, h.poll, fun h => absurd hp h, h.2.2.2.2.2.2.1, trivial, fun h => absurd hph h, ?_⟩
      intro _
      unfold decode at hd
      split at hd <;> try cases hd
      show (match (opField w).toNat with | 0 => _ | 1 => _ | 2 => _ | 3 => _ | _ => _ : Byte) = 0#8
      split <;> first | rfl | simp_all
  | openSession =>
    simp only [hostCall, hostOpen] at he
    split at he
    · cases he
    · exact runPhase_next_inv (s := { s with bound := true, phase := .opening }) (h.idle hst hst rfl rfl h.wf rfl rfl rfl rfl (fun _ => rfl)) hst he
  | closeSession =>
    simp only [hostCall, hostClose] at he
    split at he
    · rename_i hb; exact runPhase_next_inv (s := { s with phase := .closing }) (h.idle hst hst rfl rfl h.wf rfl rfl rfl rfl (fun _ => hb)) hst he
    · cases he
  | send1 r v =>
    simp only [hostCall, hostSend1] at he
    split at he
    · rename_i hb
      split at he
      · rename_i u hu; obtain ⟨h1, h2, -⟩ := alloc_set_inv h hst hu; cases he; exact returnTo_inv _ h1 h2
      · rename_i k u hu
        obtain ⟨h1, h2, h3, -⟩ := alloc_set_inv h hst hu
        split at he
        · rename_i w hw
          obtain ⟨h4, h5, h6, -⟩ := bufSet_inv h1 h2 hw
          exact exec_inv (s := { w with phase := .sent1 k }) (h4.idle h5 h5 rfl rfl h4.wf rfl rfl rfl rfl (fun _ => by show w.bound = true; rw [h6, h3]; exact hb)) h5 he
        · cases he
    · cases he
  | sendRecv r hp hr =>
    simp only [hostCall, hostSendRecv] at he
    split at he
    · rename_i hb; exact startSendRecv_inv h hst hb he
    · cases he
  | send1Recv r v hr =>
    simp only [hostCall, hostSend1Recv] at he
    split at he
    · rename_i hb
      split at he
      · rename_i u hu; obtain ⟨h1, h2, -⟩ := alloc_set_inv h hst hu; cases he; exact returnTo_inv _ h1 h2
      · rename_i k u hu
        obtain ⟨h1, h2, h3, -⟩ := alloc_set_inv h hst hu
        split at he
        · rename_i w hw
          obtain ⟨h4, h5, h6, -⟩ := bufSet_inv h1 h2 hw
          exact startSendRecv_inv h4 h5 (by rw [h6, h3]; exact hb) he
        · cases he
    · cases he
  | bufAlloc n =>
    simp only [hostCall] at he
    obtain ⟨h1, h2, -⟩ := alloc_set_inv (n := n) h hst rfl
    cases he; exact returnTo_inv _ h1 h2
  | bufFree k =>
    simp only [hostCall, hostOnBuffer] at he; split at he <;> cases he
    exact h.idle hst hst rfl rfl (Memory.wf_erase h.wf k) rfl rfl rfl rfl (fun h => absurd rfl h)
  | bufIsValid k => simp only [hostCall] at he; cases he; exact returnTo_inv _ h hst
  | bufSize k => simp only [hostCall, hostOnBuffer] at he; split at he <;> cases he; exact returnTo_inv _ h hst
  | bufResize k n =>
    simp only [hostCall, hostOnBuffer] at he; split at he <;> cases he
    obtain ⟨h1, h2⟩ := bufResize_inv (k := k) (n := n) h hst rfl
    exact returnTo_inv _ h1 h2
  | bufGet k i =>
    simp only [hostCall, hostOnBuffer] at he; split at he
    · split at he <;> cases he; exact returnTo_inv _ h hst
    · cases he
  | bufSet k i v =>
    simp only [hostCall, hostOnBuffer] at he; split at he
    · split at he
      · rename_i u hu; cases he
        obtain ⟨h1, h2, -⟩ := bufSet_inv h hst hu
        exact returnTo_inv _ h1 h2
      · cases he
    · cases he
  | pause => simp only [hostCall] at he; cases he; exact envStep_inv h

end Sys2Proof.Machine
end

