-- ==== Sys2Proof/Laws/Composite.lean ====
section
/-! SUPPORT. The first and the last lines of the composites (spec/45_composite_operations.md R120 to R123). -/

namespace Sys2Proof.Machine

/-- What a composite's first lines come to when the allocation is granted (45_composite_operations.md R120). -/
theorem alloc_and_set {s : State} {k : Handle} (val : Byte) (hk : (bufAlloc 1 s).1 = some k) : s.bufs.find k = none ∧
    ∃ a c B, bufAlloc 1 s = (some k, (bufAlloc 1 s).2) ∧
      bufSet k 0 val (bufAlloc 1 s).2 = some { s with bufs := B, answers := a, freeCtr := c } ∧ B.find k = some [val] ∧ (∀ j, j ≠ k → B.find j = s.bufs.find j) ∧ a.resizeOk = s.answers.resizeOk := by
  have hres : (bufAlloc 1 s).2.answers.resizeOk = s.answers.resizeOk := by
    unfold bufAlloc drawAlloc
    cases s.answers.alloc with
    | nil => 
      cases Config.allocAnswer s.freeCtr with
      | none => rfl
      | some h => simp only; split <;> rfl
    | cons a r => cases a with
      | none => rfl
      | some h => simp only; split <;> rfl
  obtain ⟨a, c, h | ⟨k', hf, h⟩⟩ := bufAlloc_cases 1 s
  · rw [h] at hk; cases hk
  · rw [h] at hk hres ⊢
    obtain rfl : k' = k := Option.some.inj hk
    refine ⟨hf, a, c + 1, (s.bufs.put k' (freeBytes c 1)).put k' [val], rfl, ?_, Memory.find_put_same _ _ _, fun j hj => ?_, hres⟩
    · exact bufSet_eq_some.2 ⟨freeBytes c 1, Memory.find_put_same _ _ _, by simp, rfl⟩
    · rw [Memory.find_put_of_ne _ _ hj.symm, Memory.find_put_of_ne _ _ hj.symm]

/-- The four bytes of a frame with one payload byte (R120). -/
theorem frameBytes_one (req val : Byte) : frameBytes ⟨req, [val]⟩ = [req, 0x02#8, val, req ^^^ 0x02#8 ^^^ val] := by
  simp [frameBytes, frameChecksum, frameLength, xor8, foldByte]

/-- The same when it is refused. -/
theorem alloc_none {s : State} (h : (bufAlloc 1 s).1 = none) :
    bufAlloc 1 s = (none, (bufAlloc 1 s).2) ∧ (bufAlloc 1 s).2.bufs = s.bufs ∧ ∃ a c, (bufAlloc 1 s).2 = { s with answers := a, freeCtr := c } := by
  obtain ⟨a, c, h' | ⟨k', hf, h'⟩⟩ := bufAlloc_cases 1 s
  · rw [h']; exact ⟨rfl, rfl, a, c, rfl⟩
  · rw [h'] at h; cases h

/-- An allocation does not look at the host's calls. -/
theorem alloc_host (s : State) (rest : List HostCall) :
    bufAlloc 1 { s with host := rest } = ((bufAlloc 1 s).1, { (bufAlloc 1 s).2 with host := rest }) := by
  unfold bufAlloc drawAlloc
  simp only
  cases s.answers.alloc with
  | nil =>
    simp only
    cases Config.allocAnswer s.freeCtr with
    | none => rfl
    | some h => simp only; cases freshFrom s.bufs h 256 <;> rfl
  | cons a r =>
    cases a with
    | none => rfl
    | some h => simp only; cases freshFrom s.bufs h 256 <;> rfl

theorem afterOperation_sent1 {s : State} {k : Handle} (h : s.phase = .sent1 k) :
    afterOperation s = .next (returnTo (.bool (s.result ≠ 0x00#8)) (bufFree k s)) := by
  unfold afterOperation; rw [h]

theorem afterOperation_received {s : State} {k : Option Handle} (h : s.phase = .received k) :
    afterOperation s = .next (returnTo (.byte s.result) (freeTransient k s)) := by
  unfold afterOperation; rw [h]

theorem afterOperation_not_sent {s : State} {hr : Handle} {k : Option Handle} (h : s.phase = .sent hr k)
    (h0 : s.result = 0x00#8) : afterOperation s = .next (returnTo (.byte 0x00#8) (freeTransient k s)) := by
  unfold afterOperation; rw [h]; simp only; rw [if_pos h0]

theorem afterOperation_receive {s : State} {hr : Handle} {k : Option Handle} (h : s.phase = .sent hr k)
    (h0 : s.result ≠ 0x00#8) : afterOperation s = exec (.recv hr) { s with phase := .received k } := by
  unfold afterOperation; rw [h]; simp only; rw [if_neg h0]

end Sys2Proof.Machine
end

