-- ==== Sys2Proof/Laws/PerInstr.lean ====
section
/-! SUPPORT. What is said of every operation as syntax, one lemma per constructor. -/

namespace Sys2Proof.Laws.Opcode

/-- The word of an operation keeps inside the bits the operation uses, so an ignored bit is written as 0, and its opcode field
is the one 30_encoding.md R56 assigns. -/
def Statement (i : Instr) : Prop := Sys2Proof.encode i &&& usedBits i = Sys2Proof.encode i ∧ opField (Sys2Proof.encode i) = opcode i

theorem of_usedA {i : Instr} (h : operandA i &&& usedA i = operandA i) : Statement i := by
  refine ⟨?_, opField_encode i⟩
  rw [usedBits_word, opField_encode, aField_encode, bField_encode, h]
  rfl

theorem encode (isSlave : Bool) (action : Byte) : Statement (.encode isSlave action) :=
  of_usedA (by cases isSlave <;> simp [operandA, usedA])

theorem cksum (h : Handle) : Statement (.cksum h) := of_usedA (by simp [operandA, usedA])

theorem recv (h : Handle) : Statement (.recv h) := of_usedA (by simp [operandA, usedA])

theorem send (req : Byte) (h : Handle) : Statement (.send req h) := of_usedA (BitVec.and_allOnes (x := req))

end Sys2Proof.Laws.Opcode
end

