-- ==== Sys2Proof/Laws/SendProgress.lean ====
section
/-! SUPPORT. What holds at every visit of a `SEND` in calm slots, whatever the channel does: how much of the frame is
written, and that nothing else is touched (spec/44_frame_sender.md R106 to R109). -/

namespace Sys2Proof.Machine

/-- How far the frame of `req` and `d` has come: `q` is what is written of it. -/
def FrameSoFar (req : Byte) (h : Handle) (d q : List Byte) (u : State) : Prop :=
  let size := 1 ≤ d.length ∧ d.length ≤ 50
  let regs := u.tx.h = h ∧ u.tx.req = req ∧ u.tx.n = sizeCount d
  let len := frameLength ⟨req, d⟩
  match u.st with
  | .sCheck => q = [] ∧ handleOf u.cmd = h ∧ requestOf u.cmd = req
  | .sReq => q = [] ∧ size ∧ regs ∧ u.tx.idx = 0#6
  | .sLen => q = [req] ∧ size ∧ regs ∧ u.tx.idx = 0#6 ∧ u.tx.ck = req
  | .sPayload =>
    q = req :: len :: d.take u.tx.idx.toNat ∧ size ∧ regs ∧ u.tx.idx.toNat ≤ d.length ∧
      u.tx.ck = xor8 (req :: len :: d.take u.tx.idx.toNat)
  | .sCksum => q = req :: len :: d ∧ size ∧ regs ∧ u.tx.ck = xor8 (req :: len :: d)
  | .sFlush => q = frameBytes ⟨req, d⟩ ∧ size
  | .finish =>
    (q = frameBytes ⟨req, d⟩ ∧ size ∧ u.tx.ok = true ∧ u.failCause = .none) ∨
      (q = [] ∧ ¬ size ∧ u.tx.ok = false ∧ u.failCause = .badSize)
  | .idle =>
    (q = frameBytes ⟨req, d⟩ ∧ size ∧ Completed 0x01#8 .none u) ∨ (q = [] ∧ ¬ size ∧ Completed 0x00#8 .badSize u)
  | .rCheck | .rWaitMin | .rReq | .rLen | .rValidate | .rWaitFrame | .rResize | .rPayload | .rCksum | .rCleanup => False
  | .kRun | .eRun => False

/-- What holds between the visits of a `SEND` begun in `s`. -/
structure Sending (req : Byte) (h : Handle) (d : List Byte) (s u : State) : Prop where
  calm : Calm u.env
  op : opField u.cmd = 3#4
  keeps : SendKeeps s u
  find : u.bufs.find h = some d
  outputs : u.st ≠ .idle → u.busy = true ∧ u.done = false ∧ u.illegal = false ∧ u.result = s.result ∧ u.cause = s.cause
  wire : ∃ q, u.chan.wireOut = s.chan.wireOut ++ q ∧ FrameSoFar req h d q u

theorem SendKeeps.moved {s u : State} (h : SendKeeps s u) : SendKeeps s (moved u) := by
  obtain ⟨h1, h2, h3, h4, h5⟩ := h
  exact ⟨h1, h2, h3, ⟨(slotChan_stream u).trans h4.1, (List.tail_suffix _).trans h4.2.1,
    (slotChan_capacity u).trans h4.2.2⟩, h5⟩

theorem FrameSoFar.moved {req : Byte} {h : Handle} {d q : List Byte} {u : State} (hf : FrameSoFar req h d q u) :
    FrameSoFar req h d q (moved u) := hf

/-- The moves of a slot change nothing of it. -/
theorem Sending.moved {req : Byte} {h : Handle} {d : List Byte} {s u : State} (g : Sending req h d s u) :
    Sending req h d s (moved u) :=
  ⟨g.calm.tail, g.op, g.keeps.moved, g.find, g.outputs, by
    obtain ⟨q, hq, hf⟩ := g.wire
    exact ⟨q, (slotChan_wireOut u).trans hq, hf⟩⟩

/-- A visit that writes a byte of the frame. -/
theorem Sending.wrote {req : Byte} {h : Handle} {d : List Byte} {s u v : State} {b : Byte} (g : Sending req h d s u)
    (hu : u.st ≠ .idle) (hv : v = { u with tx := v.tx, st := v.st })
    (hf : ∀ q, u.chan.wireOut = s.chan.wireOut ++ q → FrameSoFar req h d q u → FrameSoFar req h d (q ++ [b]) v)
    {t : State} (ht : writing b u v = .go t ∨ writing b u v = .wait t) : Sending req h d s t := by
  unfold writing at ht
  split at ht
  · rcases ht with ht | ht
    · obtain rfl := Visit.go.inj ht
      obtain ⟨q, hq, hfq⟩ := g.wire
      have hfv := hf q hq hfq
      obtain ⟨k1, k2, k3, k4, k5⟩ := g.keeps
      have ho := g.outputs hu
      rw [hv] at hfv ⊢
      exact ⟨g.calm, g.op, ⟨k1, k2, k3, k4, k5⟩, g.find, fun _ => ho, q ++ [b], by
        show u.chan.wireOut ++ [b] = _
        rw [hq, List.append_assoc], hfv⟩
    · cases ht
  · rcases ht with ht | ht
    · cases ht
    · obtain rfl := Visit.wait.inj ht; exact g

/-- Every visit of a `SEND` keeps it. -/
theorem sending_visit {req : Byte} {h : Handle} {d : List Byte} {s u t : State} (g : Sending req h d s u)
    (hu : u.st ≠ .idle) (ht : visit u = .go t ∨ visit u = .wait t) : Sending req h d s t := by
  obtain ⟨q, hq, hf⟩ := g.wire
  obtain ⟨k1, k2, k3, k4, k5⟩ := g.keeps
  have ho := g.outputs hu
  cases hst : u.st <;> simp only [FrameSoFar, hst] at hf
  case idle => exact absurd hst hu
  case sCheck =>
    obtain ⟨rfl, hh, hr⟩ := hf
    rw [show visit u = visitSCheck u by unfold visit; rw [hst]] at ht
    unfold visitSCheck at ht
    rw [hh, g.find] at ht
    simp only at ht
    split at ht
    · rename_i hv
      rcases ht with ht | ht
      · obtain rfl := Visit.go.inj ht
        have hv' := (validSize_iff _).1 hv
        have hsize : 1 ≤ d.length ∧ d.length ≤ 50 := by
          have hv'' : 1 ≤ (sizeCount d).toNat ∧ (sizeCount d).toNat ≤ 50 := hv'
          by_cases hl : d.length ≤ 255
          · rw [sizeCount_toNat hl] at hv''; exact hv''
          · have := sizeCount_large (d := d) (by omega); omega
        exact ⟨g.calm, g.op, ⟨k1, k2, k3, k4, k5⟩, g.find, fun _ => ho, [], hq, rfl, hsize, ⟨rfl, hr, rfl⟩, rfl⟩
      · cases ht
    · rename_i hv
      rcases ht with ht | ht
      · obtain rfl := Visit.go.inj ht
        refine ⟨g.calm, g.op, ⟨k1, k2, k3, k4, k5⟩, g.find, fun _ => ho, [], hq, .inr ⟨rfl, fun hs => ?_, rfl, rfl⟩⟩
        refine hv ((validSize_iff _).2 ?_)
        show 1 ≤ (sizeCount d).toNat ∧ (sizeCount d).toNat ≤ 50
        rw [sizeCount_toNat (by omega)]
        exact hs
      · cases ht
  case sReq =>
    obtain ⟨rfl, hs, hr, hi⟩ := hf
    rw [show visit u = visitSReq u by unfold visit; rw [hst]] at ht
    refine g.wrote hu rfl (fun q' hq' _ => ?_) ht
    obtain rfl : q' = [] := by have := hq'.symm.trans hq; simpa using this
    refine ⟨?_, hs, hr, hi, ?_⟩
    · rw [hr.2.1]; rfl
    · show foldByte 0x00#8 u.tx.req = req
      rw [hr.2.1]; simp [foldByte]
  case sLen =>
    obtain ⟨rfl, hs, hr, hi, hc⟩ := hf
    have hlen : sendLength u.tx.n = frameLength ⟨req, d⟩ := by
      apply BitVec.eq_of_toNat_eq
      rw [hr.2.2, sendLength_toNat (by rw [sizeCount_toNat (by omega)]; omega), sizeCount_toNat (by omega)]
      exact (frameLength_toNat (d := d) (by omega)).symm
    rw [show visit u = visitSLen u by unfold visit; rw [hst]] at ht
    refine g.wrote hu rfl (fun q' hq' _ => ?_) ht
    obtain rfl : q' = [req] := by have := hq'.symm.trans hq; simpa using this
    refine ⟨?_, hs, hr, ?_, ?_⟩
    · show [req] ++ [sendLength u.tx.n] = req :: frameLength ⟨req, d⟩ :: d.take u.tx.idx.toNat
      rw [hlen, hi]; rfl
    · show u.tx.idx.toNat ≤ _; rw [hi]; exact Nat.zero_le _
    · show foldByte u.tx.ck (sendLength u.tx.n) = xor8 (req :: frameLength ⟨req, d⟩ :: d.take u.tx.idx.toNat)
      rw [hlen, hi, hc]; simp [xor8, foldByte]
  case sPayload =>
    obtain ⟨rfl, hs, hr, hi, hc⟩ := hf
    have hn : u.tx.n.toNat = d.length := by rw [hr.2.2, sizeCount_toNat (by omega)]
    rw [show visit u = visitSPayload u by unfold visit; rw [hst]] at ht
    unfold visitSPayload at ht
    by_cases hlt : u.tx.idx.toNat < u.tx.n.toNat
    · have hld : u.tx.idx.toNat < d.length := by omega
      have hidx : (u.tx.idx + 1#6).toNat = u.tx.idx.toNat + 1 := idx_succ (by omega)
      have htake : d.take (u.tx.idx.toNat + 1) = d.take u.tx.idx.toNat ++ [d[u.tx.idx.toNat]] := by
        rw [List.take_add_one]; simp [hld]
      rw [if_pos hlt, show bufGet u.tx.h u.tx.idx.toNat u = some d[u.tx.idx.toNat] by
        show (u.bufs.find u.tx.h).bind _ = _
        rw [hr.1, g.find]; simp [hld]] at ht
      refine g.wrote hu rfl (fun q' hq' _ => ?_) ht
      obtain rfl : q' = req :: frameLength ⟨req, d⟩ :: d.take u.tx.idx.toNat := by
        have := hq'.symm.trans hq; simpa using this
      unfold FrameSoFar
      simp only [hst]
      refine ⟨?_, hs, hr, by omega, ?_⟩
      · rw [hidx, htake]; rfl
      · rw [hidx, htake, hc]
        exact (xor8_snoc (req :: frameLength ⟨req, d⟩ :: d.take u.tx.idx.toNat) _).symm
    · rw [if_neg hlt] at ht
      rcases ht with ht | ht
      · obtain rfl := Visit.go.inj ht
        have hall : d.take u.tx.idx.toNat = d := List.take_of_length_le (by omega)
        rw [hall] at hq hc
        exact ⟨g.calm, g.op, ⟨k1, k2, k3, k4, k5⟩, g.find, fun _ => ho, _, hq, rfl, hs, hr, hc⟩
      · cases ht
  case sCksum =>
    obtain ⟨rfl, hs, hr, hc⟩ := hf
    rw [show visit u = visitSCksum u by unfold visit; rw [hst]] at ht
    refine g.wrote hu rfl (fun q' hq' _ => ?_) ht
    obtain rfl : q' = req :: frameLength ⟨req, d⟩ :: d := by have := hq'.symm.trans hq; simpa using this
    refine ⟨?_, hs⟩
    rw [hc]
    rfl
  case sFlush =>
    obtain ⟨rfl, hs⟩ := hf
    rw [show visit u = visitSFlush u by unfold visit; rw [hst]] at ht
    unfold visitSFlush at ht
    split at ht
    · rcases ht with ht | ht
      · obtain rfl := Visit.go.inj ht
        exact ⟨g.calm, g.op, ⟨k1, k2, k3, k4, k5⟩, g.find, fun _ => ho, _, hq, .inl ⟨rfl, hs, rfl, rfl⟩⟩
      · cases ht
    · rcases ht with ht | ht
      · cases ht
      · obtain rfl := Visit.wait.inj ht; exact g
  case finish =>
    rw [show visit u = visitFinish u by unfold visit; rw [hst]] at ht
    rcases ht with ht | ht
    · obtain rfl := Visit.go.inj ht
      have hres : resultOf u = (BitVec.ofBool u.tx.ok).zeroExtend 8 := by unfold resultOf; rw [g.op]; rfl
      refine ⟨g.calm, g.op, ⟨k1, k2, k3, k4, k5⟩, g.find, fun h => absurd rfl h, q, hq, ?_⟩
      rcases hf with ⟨rfl, hs, hok, hc⟩ | ⟨rfl, hs, hok, hc⟩
      · exact .inl ⟨rfl, hs, rfl, rfl, rfl, rfl, by show resultOf u = _; rw [hres, hok]; rfl, hc⟩
      · exact .inr ⟨rfl, hs, rfl, rfl, rfl, rfl, by show resultOf u = _; rw [hres, hok]; rfl, hc⟩
    · cases ht

/-- What a `SEND` answers, whatever the channel does: it has kept everything but the sender's registers and the transmit side,
and what it has written is as its state says. -/
theorem exec_send_next {s t : State} {req : Byte} {h : Handle} {d : List Byte} (hb : s.busy = false)
    (hc : Calm s.env) (hd : s.bufs.find h = some d) (ht : exec (.send req h) s = .next t) : Sending req h d s t := by
  rw [exec_send] at ht
  unfold execSend at ht
  rw [if_neg (by simp [hb])] at ht
  split at ht
  · split at ht
    · let a := accept (encode (.send req h)) .sCheck s
      have ha : Sending req h d s a :=
        ⟨hc, opField_encode (.send req h), ⟨rfl, rfl, ⟨rfl, rfl, rfl, rfl⟩, ⟨rfl, List.suffix_rfl, rfl⟩,
          ⟨rfl, rfl, rfl, fun _ _ => rfl⟩⟩, hd, fun _ => ⟨rfl, rfl, rfl, rfl, rfl⟩, [], by simp [a],
          rfl, handleOf_encode (.send req h), requestOf_encode (.send req h)⟩
      refine runVisits_next_keeps (P := Sending req h d s) (fun u v hu hact hv => ?_) _ a t ha ht
      rw [envStep_moved hu.calm] at hv
      exact sending_visit hu.moved (show u.st ≠ .idle by simpa [engineActive] using hact) hv
    · cases ht
  · cases ht

end Sys2Proof.Machine
end

