-- ==== Sys2Proof/Tests/Slice0.lean ====
section
/-! SUPPORT. The model's own tests, their expected results taken from spec/30_encoding.md and spec/95_test_vectors.md, and for
every statement with hypotheses the named witness that meets them. -/

namespace Sys2Proof.Machine.Tests

open Sys2Proof Sys2Proof.Machine

/-! ## Well-formedness: terms each check refuses, and the nearest it accepts (30_encoding.md R51, R52, R54, R59) -/

theorem test_wf_payload_51 : (Frame.mk 0xC1#8 (List.replicate 51 0xFF#8)).wf = false := by decide

theorem test_wf_payload_50 : (Frame.mk 0xC1#8 (List.replicate 50 0xFF#8)).wf = true := by decide

theorem test_sendable_empty : (Frame.mk 0x02#8 []).sendable = false ∧ (Frame.mk 0x02#8 []).wf = true := by decide

theorem test_isFrame_length_0 : isFrame [0x02#8, 0x00#8, 0x02#8] = false := by decide

theorem test_isFrame_length_52 : isFrame (0xC1#8 :: 0x34#8 :: List.replicate 52 0x00#8) = false := by decide

theorem test_isFrame_checksum : isFrame [0xC3#8, 0x03#8, 0x10#8, 0x20#8, 0xF1#8] = false := by decide

theorem test_isFrame_missing_byte : isFrame [0x01#8, 0x02#8, 0xA9#8] = false := by decide

theorem test_isFrame_good : isFrame [0xC3#8, 0x03#8, 0x10#8, 0x20#8, 0xF0#8] = true := by decide

/-- Every operand of the four operations is accepted (R58, R60), the extremes among them. -/
theorem test_wf_operands :
    (Instr.encode true 0xFF#8).wf = true ∧ (Instr.cksum 0xFF#8).wf = true ∧ (Instr.recv 0x00#8).wf = true ∧
      (Instr.send 0xFF#8 0xFF#8).wf = true := by decide

/-! ## Decoding: words written out bit by bit from 30_encoding.md R55, R56 (`oooo aaaaaaaa bbbbbbbb`) -/

/-- S8. -/
theorem test_decode_encode : decode 0b0000_0000_0001_0000_0101#20 = .op (.encode true 0x05#8) := by decide

/-- V-E8: bits 15:9 are ignored. -/
theorem test_decode_encode_ignored : decode 0b0000_1111_1110_0000_0011#20 = .op (.encode false 0x03#8) := by decide

/-- `CKSUM h1`, with every ignored bit set in the second word. -/
theorem test_decode_cksum :
    decode 0b0001_0000_0000_0000_0001#20 = .op (.cksum 0x01#8) ∧
      decode 0b0001_1111_1111_0000_0001#20 = .op (.cksum 0x01#8) := by decide

/-- P2 step 1, with every ignored bit set in the second word. -/
theorem test_decode_recv :
    decode 0b0010_0000_0000_0000_0010#20 = .op (.recv 0x02#8) ∧
      decode 0b0010_1111_1111_0000_0010#20 = .op (.recv 0x02#8) := by decide

/-- V-I3. -/
theorem test_decode_send : decode 0b0011_1100_0011_0000_0001#20 = .op (.send 0xC3#8 0x01#8) := by decide

/-- V-I1, V-I2. -/
theorem test_decode_reserved :
    decode 0b0100_0000_0000_0000_0000#20 = .reservedOpcode 0x4#4 ∧
      decode 0b1111_1111_1111_1111_1111#20 = .reservedOpcode 0xF#4 := by decide

theorem test_decodeTableWord :
    decodeTableWord 24 0x3D302 = some (.send 0xD3#8 0x02#8) ∧ decodeTableWord 24 0x40000 = none ∧
      decodeTableWord 24 0x100000 = none := by decide

/-! ## States for the tests and the witnesses -/

/-- The state a step answers, if it answers one. -/
def nextOf : Host.Outcome State Fault Refusal → Option State
  | .next t => some t
  | .fault _ => none
  | .refused _ => none

theorem next_of {o : Host.Outcome State Fault Refusal} {P : State → Bool} (h : (nextOf o).any P = true) :
    ∃ t, o = .next t ∧ P t = true := by
  cases o with
  | next t => exact ⟨t, rfl, h⟩
  | fault f => cases f
  | refused r => cases h

/-- A session, buffer 1 with two bytes, buffer 2 empty, buffer 3 with 50 bytes, 4 with 51, and two resizes that succeed. -/
def open_ : State :=
  { State.reset with
    bound := true
    bufs := [(1#8, [0x10#8, 0x20#8]), (2#8, []), (3#8, List.replicate 50 0xFF#8), (4#8, List.replicate 51 0xFF#8)]
    answers := { resizeOk := [true, true], alloc := [] } }

/-- The same with these bytes in the receive stream. -/
def withStream (bs : List Byte) : State := { open_ with chan := { open_.chan with rxq := bs } }

/-- The same with these calls to make. -/
def calling (c : HostCall) (s : State) : State := { s with host := [c] }

/-! ## One step of each operation and of each procedure -/

/-- S8. -/
theorem test_encode :
    (nextOf (exec (.encode true 0x05#8) open_)).map (fun t => (t.result, t.cause, t.done)) =
      some (0xD5#8, .none, true) := by decide

/-- V-E3: bit 4 of the action is dropped. -/
theorem test_encode_masked : (nextOf (exec (.encode false 0x1F#8) open_)).map (·.result) = some 0xCF#8 := by decide

/-- P1 step 2. -/
theorem test_cksum :
    (nextOf (exec (.cksum 0x01#8) open_)).map (fun t => (t.result, t.bufs == open_.bufs)) =
      some (0x30#8, true) := by decide

/-- V-K8: the largest operand. -/
theorem test_cksum_50 : (nextOf (exec (.cksum 0x03#8) open_)).map (·.result) = some 0x00#8 := by decide

/-- V-R8. -/
theorem test_recv :
    (nextOf (exec (.recv 0x02#8) (withStream [0xC3#8, 0x03#8, 0x10#8, 0x20#8, 0xF0#8, 0xDE#8, 0xAD#8]))).map
        (fun t => (t.result, t.bufs.find 0x02#8, t.chan.rxq)) =
      some (0xC3#8, some [0x10#8, 0x20#8], [0xDE#8, 0xAD#8]) := by decide

/-- V-R7. -/
theorem test_recv_mismatch :
    (nextOf (exec (.recv 0x02#8) (withStream [0xC3#8, 0x03#8, 0x10#8, 0x20#8, 0xF1#8, 0xDE#8, 0xAD#8]))).map
        (fun t => (t.result, t.cause, t.bufs.find 0x02#8, t.chan.rxq)) =
      some (0x00#8, .checksum, some [0x10#8, 0x20#8], []) := by decide

/-- V-S2. -/
theorem test_send :
    (nextOf (exec (.send 0xC3#8 0x01#8) open_)).map (fun t => (t.result, t.chan.wireOut, t.chan.txq)) =
      some (0x01#8, [0xC3#8, 0x03#8, 0x10#8, 0x20#8, 0xF0#8], []) := by decide

/-- V-S7. -/
theorem test_send_empty :
    (nextOf (exec (.send 0xC1#8 0x02#8) open_)).map (fun t => (t.result, t.cause, t.chan.wireOut)) =
      some (0x00#8, .badSize, []) := by decide

/-- V-I1: the pulse; FINISH is the next step. -/
theorem test_illegal :
    (nextOf (step (State.reset.withFetchWord 24 0x40000))).map (fun t => (t.illegal, t.st, t.busy)) =
      some (true, .finish, true) := by decide

/-- V-C1. -/
theorem test_open :
    (nextOf (hostOpen { withStream [0x55#8, 0xC1#8, 0x02#8] with bound := false })).map
        (fun t => (t.chan.rxq, t.bound)) = some ([], true) := by decide

/-- V-C3. -/
theorem test_close :
    (nextOf (hostClose (withStream [0xAA#8]))).map (fun t => (t.chan.rxq, t.bound)) = some ([], false) := by decide

/-- V-C5. -/
theorem test_send1_no_buffer :
    (nextOf (hostSend1 0x01#8 0xAA#8 { open_ with answers := { open_.answers with alloc := [none] } })).map
        (fun t => (t.ret, t.chan.wireOut)) = some (.bool false, []) := by decide

/-- V-C6. -/
theorem test_sendRecv_invalid :
    (nextOf (hostSendRecv 0xC1#8 0x01#8 0x09#8 open_)).map (fun t => (t.ret, t.chan.wireOut)) =
      some (.byte 0x00#8, []) := by decide

/-! ## Witnesses: encoding, checksum, frames -/

theorem witness_decodeInvertsEncode : (Instr.send 0xFF#8 0xFF#8).wf = true ∧ 4 ≤ (opField 0x40000#20).toNat := by decide

theorem witness_opcodeMap : 4 ≤ (4#4).toNat ∧ 4 ≤ (15#4).toNat ∧ 0x0FE03#20 &&& 0xF0000#20 = 0x00000#20 := by decide

/-- Both ends of each range. -/
theorem witness_operandAssembly :
    (1 ≤ (1#8).toNat ∧ (1#8).toNat ≤ 50) ∧ (1 ≤ (50#8).toNat ∧ (50#8).toNat ≤ 50) ∧
      (1 ≤ (51#8).toNat ∧ (51#8).toNat ≤ 51) := by decide

theorem witness_reservedWordIsIllegal :
    let s := calling (.command 0x40000#20) open_
    Ready s ∧ s.phase = .ready ∧ Calm s.env ∧ s.host = .command 0x40000#20 :: [] ∧ 4 ≤ (opField 0x40000#20).toNat :=
  ⟨⟨rfl, rfl⟩, rfl, Calm.nil, rfl, by decide⟩

theorem witness_encodeOperation : Ready open_ ∧ Calm open_.env ∧ (0x01#8 : Byte).getLsbD 0 = true :=
  ⟨⟨rfl, rfl⟩, Calm.nil, rfl⟩

theorem witness_checksumLaws :
    [0x12#8, 0x34#8].Perm [0x34#8, 0x12#8] ∧ (Frame.mk 0xC3#8 [0x10#8, 0x20#8]).wf = true ∧ 1 < [0x12#8, 0x34#8].length ∧
      0 ≠ 1 ∧ 7 < 8 := by decide

/-- A buffer of 50 bytes, one of 51, and a handle that is not valid. -/
theorem witness_cksumOperation :
    Ready open_ ∧ Calm open_.env ∧
      (open_.bufs.find 3#8 = some (List.replicate 50 0xFF#8) ∧ (List.replicate 50 0xFF#8).length ≤ 50) ∧
      open_.bufs.find 9#8 = none ∧
      (open_.bufs.find 4#8 = some (List.replicate 51 0xFF#8) ∧ 50 < (List.replicate 51 0xFF#8).length) :=
  ⟨⟨rfl, rfl⟩, Calm.nil, by decide, rfl, by decide⟩

theorem witness_framesAreFrameBytes :
    (Frame.mk 0xC1#8 (List.replicate 50 0xFF#8)).wf = true ∧ (Frame.mk 0x02#8 []).wf = true := by decide

theorem witness_saturationHarmless : (51#8 : Byte).toNat ≤ 51 := by decide

/-! ## Witnesses: the receiver -/

/-- Each clause, at the counts on either side of the sample: 4 and 3 bytes, and `length` and one less. -/
theorem witness_pollTimerPacesWaits :
    let a := { withStream [1#8, 2#8, 3#8, 4#8] with st := .rWaitMin }
    let b := { withStream [1#8, 2#8, 3#8] with st := .rWaitMin }
    let c := { withStream [1#8, 2#8, 3#8] with st := .rWaitFrame, rx := { open_.rx with len := 3#8 } }
    let d := { withStream [1#8, 2#8] with st := .rWaitFrame, rx := { open_.rx with len := 3#8 } }
    (a.st = .rWaitMin ∧ a.pollT = 0#5 ∧ 4 ≤ a.chan.queue.length) ∧
      (b.st = .rWaitMin ∧ b.pollT = 0#5 ∧ b.chan.queue.length < 4) ∧
      (c.st = .rWaitFrame ∧ c.pollT = 0#5 ∧ c.rx.len.toNat ≤ c.chan.queue.length) ∧
      (d.st = .rWaitFrame ∧ d.pollT = 0#5 ∧ d.chan.queue.length < d.rx.len.toNat) ∧
      { a with pollT := 1#5 }.pollT ≠ 0#5 ∧ { c with pollT := 25#5 }.pollT ≠ 0#5 := by decide

theorem witness_recvInvalidHandle :
    Ready open_ ∧ open_.bound = true ∧ Calm open_.env ∧ bufValid 9#8 open_ = false ∧ open_.env = [] :=
  ⟨⟨rfl, rfl⟩, rfl, Calm.nil, rfl, rfl⟩

/-- Length bytes 0 and 52; and 1 and 51 for the last clause. -/
theorem witness_recvBadLength :
    let s := withStream [0x02#8, 0x00#8, 0x02#8, 0x77#8]
    let u := withStream [0xC1#8, 0x34#8, 0x02#8, 0x77#8]
    (Ready s ∧ s.bound = true ∧ Calm s.env ∧ Roomy s ∧ bufValid 2#8 s = true ∧
        stream s = 0x02#8 :: 0x00#8 :: [0x02#8, 0x77#8] ∧ 2 ≤ [0x02#8, 0x77#8].length) ∧
      (Ready u ∧ stream u = 0xC1#8 :: 0x34#8 :: [0x02#8, 0x77#8] ∧ 0x34 ≤ (0x34#8 : Byte).toNat) ∧
      1 ≤ (1#8 : Byte).toNat ∧ (51#8 : Byte).toNat ≤ 51 :=
  ⟨⟨⟨rfl, rfl⟩, rfl, Calm.nil, Nat.le_refl 51, rfl, rfl, by decide⟩, ⟨⟨rfl, rfl⟩, rfl, by decide⟩, by decide, by decide⟩

/-- The largest frame, and the empty one with a byte behind it, which arrives only while the reception waits. -/
theorem witness_recvSuccess :
    let f : Frame := ⟨0xC1#8, List.replicate 50 0xFF#8⟩
    let s := withStream (frameBytes f)
    let u := { withStream [0x02#8, 0x01#8, 0x03#8] with env := [[], [.arrive 0x99#8]] }
    (Ready s ∧ s.bound = true ∧ Calm s.env ∧ Roomy s ∧ bufValid 2#8 s = true ∧ (drawResize s).1 = true ∧ f.wf = true ∧
        f.request ≠ 0x00#8 ∧ stream s = frameBytes f ++ [] ∧ 4 ≤ (stream s).length) ∧
      (Ready u ∧ u.bound = true ∧ Calm u.env ∧ Roomy u ∧ bufValid 2#8 u = true ∧ (drawResize u).1 = true ∧
        (Frame.mk 0x02#8 []).wf = true ∧ stream u = frameBytes ⟨0x02#8, []⟩ ++ [0x99#8] ∧ 4 ≤ (stream u).length) :=
  ⟨⟨⟨rfl, rfl⟩, rfl, Calm.nil, Nat.le_refl 51, rfl, rfl, by decide, by decide, by decide, by decide⟩,
    ⟨rfl, rfl⟩, rfl, by unfold Calm; decide, Nat.le_refl 51, rfl, rfl, by decide, by decide, by decide⟩

/-- V-R18. -/
theorem witness_backToBackFrames :
    let f : Frame := ⟨0xC3#8, [0x10#8, 0x20#8]⟩
    let g : Frame := ⟨0xD3#8, [0x10#8, 0x20#8]⟩
    let s := withStream (frameBytes f ++ frameBytes g)
    Ready s ∧ s.bound = true ∧ Calm s.env ∧ Roomy s ∧ bufValid 1#8 s = true ∧ bufValid 2#8 s = true ∧
      s.answers.resizeOk = true :: true :: [] ∧ f.wf = true ∧ f.request ≠ 0x00#8 ∧ g.wf = true ∧ g.request ≠ 0x00#8 ∧
      stream s = frameBytes f ++ frameBytes g ++ [] ∧ 4 ≤ (frameBytes g ++ []).length :=
  ⟨⟨rfl, rfl⟩, rfl, Calm.nil, Nat.le_refl 51, rfl, rfl, rfl, by decide, by decide, by decide, by decide, by decide, by decide⟩

/-- V-R7, and the empty payload. -/
theorem witness_recvChecksumMismatch :
    let s := withStream [0xC3#8, 0x03#8, 0x10#8, 0x20#8, 0xF1#8, 0xDE#8]
    let u := withStream [0x02#8, 0x01#8, 0x04#8, 0x99#8]
    (Ready s ∧ s.bound = true ∧ Calm s.env ∧ Roomy s ∧ bufValid 2#8 s = true ∧ (drawResize s).1 = true ∧
        stream s = 0xC3#8 :: 0x03#8 :: [0x10#8, 0x20#8] ++ 0xF1#8 :: [0xDE#8] ∧
        [0x10#8, 0x20#8].length + 1 = (0x03#8 : Byte).toNat ∧ (0x03#8 : Byte).toNat ≤ 51 ∧ 4 ≤ (stream s).length ∧
        0xF1#8 ≠ xor8 (0xC3#8 :: 0x03#8 :: [0x10#8, 0x20#8])) ∧
      (stream u = 0x02#8 :: 0x01#8 :: [] ++ 0x04#8 :: [0x99#8] ∧ 4 ≤ (stream u).length ∧
        0x04#8 ≠ xor8 (0x02#8 :: 0x01#8 :: [])) :=
  ⟨⟨⟨rfl, rfl⟩, rfl, Calm.nil, Nat.le_refl 51, rfl, rfl, rfl, by decide, by decide, by decide, by decide⟩, rfl, by decide, by decide⟩

/-- V-R9. -/
theorem witness_recvZeroRequest :
    let s := withStream [0x00#8, 0x02#8, 0x55#8, 0x57#8, 0x01#8]
    Ready s ∧ s.bound = true ∧ Calm s.env ∧ Roomy s ∧ bufValid 2#8 s = true ∧ (drawResize s).1 = true ∧ [0x55#8].length ≤ 50 ∧
      stream s = frameBytes ⟨0x00#8, [0x55#8]⟩ ++ [0x01#8] ∧ 4 ≤ (stream s).length :=
  ⟨⟨rfl, rfl⟩, rfl, Calm.nil, Nat.le_refl 51, rfl, rfl, by decide, by decide, by decide⟩

/-- V-R17. -/
theorem witness_recvResizeFailure :
    let s := { withStream [0xC3#8, 0x03#8, 0x10#8, 0x20#8, 0xF0#8, 0x01#8] with
      answers := { resizeOk := [false], alloc := [] } }
    Ready s ∧ s.bound = true ∧ Calm s.env ∧ Roomy s ∧ bufValid 2#8 s = true ∧ (drawResize s).1 = false ∧
      stream s = 0xC3#8 :: 0x03#8 :: [0x10#8, 0x20#8, 0xF0#8, 0x01#8] ∧ 1 ≤ (0x03#8 : Byte).toNat ∧
      (0x03#8 : Byte).toNat ≤ [0x10#8, 0x20#8, 0xF0#8, 0x01#8].length :=
  ⟨⟨rfl, rfl⟩, rfl, Calm.nil, Nat.le_refl 51, rfl, rfl, rfl, by decide, by decide⟩

/-- V-R21: three bytes. -/
theorem witness_recvWaitsForFour :
    let s := withStream [0x0A#8, 0x0B#8, 0x0C#8]
    let u := { open_ with chan := { open_.chan with rxq := List.replicate 53 0xFF#8, capacity := 3 } }
    (Ready s ∧ s.bound = true ∧ Calm s.env ∧ bufValid 2#8 s = true ∧ (stream s).length < 4) ∧
      (Ready u ∧ u.bound = true ∧ Calm u.env ∧ bufValid 2#8 u = true ∧ u.chan.capacity < 4) :=
  ⟨⟨⟨rfl, rfl⟩, rfl, Calm.nil, rfl, by decide⟩, ⟨rfl, rfl⟩, rfl, Calm.nil, rfl, by decide⟩

/-- V-R14, the longest wait: 50 bytes of 51, and a queue of 50 for a frame that needs 51. -/
theorem witness_recvWaitsForFrame :
    let s := withStream [0xC3#8, 0x05#8, 0x10#8, 0x20#8]
    let u := withStream (0xC1#8 :: 0x33#8 :: List.replicate 50 0xFF#8)
    let v := { open_ with chan := { open_.chan with
      rxq := 0xC1#8 :: 0x33#8 :: List.replicate 51 0xFF#8, capacity := 50 } }
    (Ready s ∧ s.bound = true ∧ Calm s.env ∧ bufValid 2#8 s = true ∧
        stream s = 0xC3#8 :: 0x05#8 :: [0x10#8, 0x20#8] ∧ 2 ≤ [0x10#8, 0x20#8].length ∧ (0x05#8 : Byte).toNat ≤ 51 ∧
        4 ≤ s.chan.capacity ∧ [0x10#8, 0x20#8].length < (0x05#8 : Byte).toNat) ∧
      (stream u = 0xC1#8 :: 0x33#8 :: List.replicate 50 0xFF#8 ∧
        (List.replicate 50 0xFF#8).length < (0x33#8 : Byte).toNat) ∧
      (stream v = 0xC1#8 :: 0x33#8 :: List.replicate 51 0xFF#8 ∧ 4 ≤ v.chan.capacity ∧
        v.chan.capacity < (0x33#8 : Byte).toNat) :=
  ⟨⟨⟨rfl, rfl⟩, rfl, Calm.nil, rfl, rfl, by decide, by decide, by decide, by decide⟩, ⟨by decide, by decide⟩, by decide,
    by decide, by decide⟩

/-- S10, V-R12 and V-R13. -/
theorem witness_threeByteFrame :
    let s := withStream [0x02#8, 0x01#8, 0x03#8]
    let u := withStream [0x02#8, 0x01#8, 0x03#8, 0x99#8]
    (Ready s ∧ s.bound = true ∧ Calm s.env ∧ Roomy s ∧ bufValid 2#8 s = true ∧ (drawResize s).1 = true ∧
        stream s = 0x02#8 :: 0x01#8 :: (0x02#8 ^^^ 0x01#8) :: []) ∧
      (Ready u ∧ stream u = 0x02#8 :: 0x01#8 :: (0x02#8 ^^^ 0x01#8) :: [0x99#8] ∧ [0x99#8] ≠ []) :=
  ⟨⟨⟨rfl, rfl⟩, rfl, Calm.nil, Nat.le_refl 51, rfl, rfl, by decide⟩, ⟨rfl, rfl⟩, by decide, by decide⟩

/-- V-R15. -/
theorem witness_recvResumes :
    let s := withStream [0xC3#8, 0x05#8, 0x10#8, 0x20#8]
    let f : Frame := ⟨0xC3#8, [0x10#8, 0x20#8, 0x30#8, 0x40#8]⟩
    Ready s ∧ s.bound = true ∧ Calm s.env ∧ Roomy s ∧ bufValid 2#8 s = true ∧ (drawResize s).1 = true ∧ f.wf = true ∧
      f.request ≠ 0x00#8 ∧ stream s ++ [0x30#8, 0x40#8, 0x86#8] = frameBytes f ++ [] ∧
      4 ≤ (stream s ++ [0x30#8, 0x40#8, 0x86#8]).length ∧ ∃ t, exec (.recv 2#8) s = .next t ∧ t.busy = true :=
  ⟨⟨rfl, rfl⟩, rfl, Calm.nil, Nat.le_refl 51, rfl, rfl, by decide, by decide, by decide, by decide,
    next_of (P := fun t => t.busy) (by decide)⟩

/-- A reception that succeeds, for `RecvSoundness` and `RecvFrame`. -/
theorem witness_recvSoundness :
    let s := withStream [0xC3#8, 0x03#8, 0x10#8, 0x20#8, 0xF0#8, 0xDE#8]
    Ready s ∧ Calm s.env ∧
      ∃ t, exec (.recv 2#8) s = .next t ∧ (decide (t.st = .idle) && decide (t.result ≠ 0x00#8)) = true :=
  ⟨⟨rfl, rfl⟩, Calm.nil, next_of (P := fun t => decide (t.st = .idle) && decide (t.result ≠ 0x00#8)) (by decide)⟩

theorem witness_recvFrame :
    let s := withStream [0x0A#8, 0x0B#8, 0x0C#8]
    Ready s ∧ Calm s.env ∧ ∃ t, exec (.recv 2#8) s = .next t ∧ decide (t.st = .rWaitMin) = true :=
  ⟨⟨rfl, rfl⟩, Calm.nil, next_of (P := fun t => decide (t.st = .rWaitMin)) (by decide)⟩

/-- S6, an odd column; V-R19, bit 7 in two bytes. -/
theorem witness_alteredFrameDetected :
    let f : Frame := ⟨0x01#8, [0xAA#8]⟩
    let a := [0x03#8, 0x02#8, 0xAA#8, 0xA9#8]
    let b := [0x81#8, 0x02#8, 0x2A#8, 0xA9#8]
    let s := withStream a
    (Ready s ∧ s.bound = true ∧ Calm s.env ∧ Roomy s ∧ bufValid 2#8 s = true ∧ (drawResize s).1 = true ∧ f.wf = true ∧
        a.length = (frameBytes f).length ∧ a[1]? = some (frameLength f) ∧ stream s = a ++ [] ∧ 4 ≤ (stream s).length ∧
        columnFlips a (frameBytes f) 1 % 2 = 1) ∧
      (b.length = (frameBytes f).length ∧ b[1]? = some (frameLength f) ∧ stream (withStream b) = b ++ [] ∧
        (∀ k, k < 8 → columnFlips b (frameBytes f) k % 2 = 0) ∧ b[0]? = some 0x81#8 ∧ 0x81#8 ≠ 0x00#8) :=
  ⟨⟨⟨rfl, rfl⟩, rfl, Calm.nil, Nat.le_refl 51, rfl, rfl, by decide, by decide, by decide, by decide, by decide, by decide⟩,
    by decide, by decide, by decide, by decide, by decide, by decide⟩

/-- S6: the request byte, and the checksum byte. -/
theorem witness_singleBitFlipDetected :
    let f : Frame := ⟨0x01#8, [0xAA#8]⟩
    let s := withStream [0x03#8, 0x02#8, 0xAA#8, 0xA9#8]
    let u := withStream [0x01#8, 0x02#8, 0xAA#8, 0x29#8]
    (Ready s ∧ s.bound = true ∧ Calm s.env ∧ Roomy s ∧ bufValid 2#8 s = true ∧ (drawResize s).1 = true ∧ f.wf = true ∧
        (frameBytes f)[0]? = some 0x01#8 ∧ 0 ≠ 1 ∧ 1 < 8 ∧
        stream s = (frameBytes f).set 0 (0x01#8 ^^^ (1#8 <<< 1)) ++ [] ∧ 4 ≤ (stream s).length) ∧
      ((frameBytes f)[3]? = some 0xA9#8 ∧ stream u = (frameBytes f).set 3 (0xA9#8 ^^^ (1#8 <<< 7)) ++ []) :=
  ⟨⟨⟨rfl, rfl⟩, rfl, Calm.nil, Nat.le_refl 51, rfl, rfl, by decide, by decide, by decide, by decide, by decide, by decide⟩,
    by decide, by decide⟩

/-- V-R10 and V-R11: the frame `01 03 00 03 01`, its length byte changed to 2 (a false success), to 4 (a hang), to 0 and to
52; and another frame, whose length byte is changed to 2 with a mismatch. -/
theorem witness_corruptedLength :
    let f : Frame := ⟨0x01#8, [0x00#8, 0x03#8]⟩
    let g : Frame := ⟨0x01#8, [0x10#8, 0x20#8]⟩
    let s := withStream [0x01#8, 0x02#8, 0x00#8, 0x03#8, 0x01#8]
    (Ready s ∧ s.bound = true ∧ Calm s.env ∧ Roomy s ∧ bufValid 2#8 s = true ∧ (drawResize s).1 = true ∧ f.wf = true ∧
        f.payload ≠ [] ∧ f.request ≠ 0x00#8 ∧ stream s = f.request :: 0x02#8 :: f.payload ++ [frameChecksum f]) ∧
      validLength 0x00#8 = false ∧ validLength 0x34#8 = false ∧
      (validLength 0x04#8 = true ∧ f.payload.length + 1 < (0x04#8 : Byte).toNat) ∧
      (validLength 0x02#8 = true ∧ f.payload[(0x02#8 : Byte).toNat - 1]? = some 0x03#8 ∧
        0x03#8 = xor8 (f.request :: 0x02#8 :: f.payload.take ((0x02#8 : Byte).toNat - 1))) ∧
      (g.payload[(0x02#8 : Byte).toNat - 1]? = some 0x20#8 ∧
        0x20#8 ≠ xor8 (g.request :: 0x02#8 :: g.payload.take ((0x02#8 : Byte).toNat - 1))) :=
  ⟨⟨⟨rfl, rfl⟩, rfl, Calm.nil, Nat.le_refl 51, rfl, rfl, by decide, by decide, by decide, by decide⟩, by decide, by decide, by decide,
    by decide, by decide⟩

theorem witness_recvFinishes :
    let s := withStream (List.replicate 53 0xFF#8)
    Ready s ∧ s.bound = true ∧ Calm s.env ∧ Roomy s ∧ 53 ≤ (stream s).length :=
  ⟨⟨rfl, rfl⟩, rfl, Calm.nil, Nat.le_refl 51, by decide⟩

/-! ## Witnesses: the sender -/

theorem Taking.of_quiet {s : State} (he : s.env = []) (hr : s.chan.ready = true) (hl : s.chan.lineUp = true) : Taking s :=
  ⟨he ▸ Willing.nil, hr, hl⟩

/-- Two bytes, and fifty. -/
theorem witness_sendSuccess :
    Ready open_ ∧ open_.bound = true ∧ Calm open_.env ∧ Taking open_ ∧
      (open_.bufs.find 1#8 = some [0x10#8, 0x20#8] ∧ 1 ≤ [0x10#8, 0x20#8].length) ∧
      (open_.bufs.find 3#8 = some (List.replicate 50 0xFF#8) ∧ (List.replicate 50 0xFF#8).length ≤ 50) :=
  ⟨⟨rfl, rfl⟩, rfl, Calm.nil, Taking.of_quiet rfl rfl rfl, by decide, by decide⟩

/-- No byte, and 51. -/
theorem witness_sendBadSize :
    Ready open_ ∧ open_.bound = true ∧ Calm open_.env ∧ open_.env = [] ∧
      (open_.bufs.find 2#8 = some [] ∧ ([] : List Byte).length = 0) ∧
      (open_.bufs.find 4#8 = some (List.replicate 51 0xFF#8) ∧ 51 ≤ (List.replicate 51 0xFF#8).length) :=
  ⟨⟨rfl, rfl⟩, rfl, Calm.nil, rfl, by decide, by decide⟩

/-- The channel takes bytes for so many visits and then stops. -/
def stopsAfter (k : Nat) : State := { open_ with env := List.replicate k [] ++ [[.ready false]] }

/-- One `SEND` that ends and one that stops in the middle of its payload. -/
theorem witness_sendNeverPartial :
    (Ready open_ ∧ Calm open_.env ∧ open_.bufs.find 1#8 = some [0x10#8, 0x20#8] ∧
        ∃ t, exec (.send 0xC3#8 1#8) open_ = .next t ∧ decide (t.st = .idle) = true) ∧
      (Ready (stopsAfter 4) ∧ Calm (stopsAfter 4).env ∧
        ∃ t, exec (.send 0xC3#8 1#8) (stopsAfter 4) = .next t ∧ decide (t.st = .sPayload) = true) :=
  ⟨⟨⟨rfl, rfl⟩, Calm.nil, rfl, next_of (P := fun t => decide (t.st = .idle)) (by decide)⟩,
    ⟨rfl, rfl⟩, by unfold Calm; decide, next_of (P := fun t => decide (t.st = .sPayload)) (by decide)⟩

theorem witness_sendHangs :
    let s := { open_ with chan := { open_.chan with ready := false } }
    let u := { s with st := .sReq }
    let v := { open_ with st := .sFlush, chan := { open_.chan with lineUp := false, txq := [0xC3#8] } }
    (Ready s ∧ s.bound = true ∧ s.env = [] ∧ s.chan.ready = false ∧ s.bufs.find 1#8 = some [0x10#8, 0x20#8]) ∧
      (u.env = [] ∧ txPush u = some 0x00#8 ∧ u.chan.ready = false) ∧
      (v.env = [] ∧ v.st = .sFlush ∧ canFlush v = false) :=
  ⟨⟨⟨rfl, rfl⟩, rfl, rfl, rfl, rfl⟩, ⟨rfl, rfl, rfl⟩, rfl, rfl, rfl⟩

theorem open_inv : Machine.Inv open_ :=
  ⟨by decide, by decide, by decide, ⟨[], rfl⟩, by decide, fun h => absurd rfl h, fun h => absurd rfl h, trivial,
    fun h => absurd rfl h, trivial⟩

/-- A `SEND` stopped in this state of the sequencer, and the channel taking bytes again. -/
theorem stopped_send {w : Seq} {e : List (List EnvMove)}
    (h : (nextOf (exec (.send 0xC3#8 1#8) { open_ with env := e })).any
      (fun t => decide (t.st = w) && decide (t.env = [])) = true) :
    ∃ s, Machine.Inv s ∧ Calm s.env ∧ Taking s ∧ s.st = w := by
  obtain ⟨t, ht, hP⟩ := next_of h
  simp only [Bool.and_eq_true, decide_eq_true_eq] at hP
  have hI : Machine.Inv { open_ with env := e } := open_inv
  have hI' := applyMove_inv (applyMove_inv (exec_inv hI rfl ht) (.ready true)) (.line true)
  exact ⟨_, hI', hP.2 ▸ Calm.nil, Taking.of_quiet hP.2 rfl rfl, hP.1⟩

/-- Each of the five states. -/
theorem witness_sendFinishesOnceTaken :
    ∀ w, w = Machine.Seq.sReq ∨ w = .sLen ∨ w = .sPayload ∨ w = .sCksum ∨ w = .sFlush →
      ∃ s, Machine.Inv s ∧ Calm s.env ∧ Taking s ∧ s.st = w := by
  rintro w (rfl | rfl | rfl | rfl | rfl)
  · exact stopped_send (e := List.replicate 1 [] ++ [[.ready false]]) (by decide)
  · exact stopped_send (e := List.replicate 2 [] ++ [[.ready false]]) (by decide)
  · exact stopped_send (e := List.replicate 4 [] ++ [[.ready false]]) (by decide)
  · exact stopped_send (e := List.replicate 6 [] ++ [[.ready false]]) (by decide)
  · exact stopped_send (e := [[.line false]]) (by decide)

/-- P1 and P2 step 1. -/
theorem witness_roundTrip :
    let l : Link := {
      master := calling (.command (encode (.send 0xC3#8 1#8))) open_
      slave := calling (.command (encode (.recv 2#8))) open_
      toSlave := 0, toMaster := 0 }
    Ready l.master ∧ l.master.phase = .ready ∧ l.master.bound = true ∧ Calm l.master.env ∧ Taking l.master ∧
      l.master.host = .command (encode (.send 0xC3#8 1#8)) :: [] ∧ l.master.bufs.find 1#8 = some [0x10#8, 0x20#8] ∧
      1 ≤ [0x10#8, 0x20#8].length ∧ [0x10#8, 0x20#8].length ≤ 50 ∧ 0xC3#8 ≠ 0x00#8 ∧
      l.toSlave = l.master.chan.wireOut.length ∧
      Ready l.slave ∧ l.slave.phase = .ready ∧ l.slave.bound = true ∧ Calm l.slave.env ∧ Roomy l.slave ∧ stream l.slave = [] ∧
      l.slave.host = .command (encode (.recv 2#8)) :: [] ∧ bufValid 2#8 l.slave = true ∧
      (drawResize l.slave).1 = true :=
  ⟨⟨rfl, rfl⟩, rfl, rfl, Calm.nil, Taking.of_quiet rfl rfl rfl, rfl, rfl, by decide, by decide, by decide, rfl,
    ⟨rfl, rfl⟩, rfl, rfl, Calm.nil, Nat.le_refl 51, rfl, rfl, rfl, rfl⟩

/-! ## Witnesses: the session and the procedures -/

/-- V-C1. -/
theorem witness_openDrains :
    let s := calling .openSession { withStream [0x55#8, 0xC1#8, 0x02#8] with bound := false }
    Ready s ∧ s.phase = .ready ∧ s.bound = false ∧ Calm s.env ∧ 0 < s.chan.capacity ∧ s.host = .openSession :: [] ∧ s.env = [] :=
  ⟨⟨rfl, rfl⟩, rfl, rfl, Calm.nil, by decide, rfl, rfl⟩

/-- V-C3: the channel taking bytes; a quiet one that can flush; and one whose line is stopped. -/
theorem witness_closeDrainsAndFlushes :
    let s := calling .closeSession (withStream [0xAA#8])
    let u := { s with chan := { s.chan with txq := [0xC3#8], lineUp := false } }
    (Ready s ∧ s.phase = .ready ∧ s.bound = true ∧ Calm s.env ∧ 0 < s.chan.capacity ∧ s.host = .closeSession :: [] ∧ Taking s ∧
        s.env = [] ∧ canFlush s = true) ∧
      (Ready u ∧ u.bound = true ∧ u.env = [] ∧ canFlush u = false) :=
  ⟨⟨⟨rfl, rfl⟩, rfl, rfl, Calm.nil, by decide, rfl, Taking.of_quiet rfl rfl rfl, rfl, rfl⟩, ⟨rfl, rfl⟩, rfl, rfl, rfl⟩

theorem witness_refusedOutsideSession :
    (Ready State.reset ∧ State.reset.bound = false) ∧ (Ready open_ ∧ open_.bound = true ∧ bufValid 9#8 open_ = false) :=
  ⟨⟨⟨rfl, rfl⟩, rfl⟩, ⟨rfl, rfl⟩, rfl, rfl⟩

/-- V-C4 and V-C5: an allocation that is granted handle 7, and one that is refused. -/
theorem witness_send1 :
    let s := calling (.send1 0x01#8 0xAA#8) { open_ with answers := { open_.answers with alloc := [some 7#8] } }
    let u := { s with answers := { open_.answers with alloc := [none] }, chan := { open_.chan with ready := false } }
    (Ready s ∧ s.phase = .ready ∧ s.bound = true ∧ Calm s.env ∧ Taking s ∧ s.host = .send1 0x01#8 0xAA#8 :: [] ∧
        (bufAlloc 1 s).1 = some 7#8) ∧
      (Ready u ∧ u.phase = .ready ∧ u.bound = true ∧ Calm u.env ∧ u.host = .send1 0x01#8 0xAA#8 :: [] ∧
        (bufAlloc 1 u).1 = none) :=
  ⟨⟨⟨rfl, rfl⟩, rfl, rfl, Calm.nil, Taking.of_quiet rfl rfl rfl, rfl, rfl⟩, ⟨rfl, rfl⟩, rfl, rfl, Calm.nil, rfl, rfl⟩

/-- V-C6, V-C7, V-C8 with the answer already there, and the same with no answer. -/
theorem witness_sendRecv :
    let s := calling (.sendRecv 0xC1#8 1#8 2#8) (withStream [0xD1#8, 0x02#8, 0x7F#8, 0xAC#8])
    let f : Frame := ⟨0xD1#8, [0x7F#8]⟩
    (Ready s ∧ s.phase = .ready ∧ s.bound = true ∧ Calm s.env ∧ Taking s ∧ bufValid 2#8 s = true ∧
        s.bufs.find 1#8 = some [0x10#8, 0x20#8] ∧ 1 ≤ [0x10#8, 0x20#8].length ∧ [0x10#8, 0x20#8].length ≤ 50 ∧
        f.wf = true ∧ f.request ≠ 0x00#8 ∧ stream s = frameBytes f ++ [] ∧ 4 ≤ (stream s).length ∧
        (drawResize s).1 = true ∧ Roomy s) ∧
      bufValid 9#8 s = false ∧
      (s.bufs.find 2#8 = some [] ∧ ([] : List Byte).length = 0 ∧ s.bufs.find 4#8 = some (List.replicate 51 0xFF#8) ∧
        51 ≤ (List.replicate 51 0xFF#8).length) ∧
      (stream open_).length < 4 :=
  ⟨⟨⟨rfl, rfl⟩, rfl, rfl, Calm.nil, Taking.of_quiet rfl rfl rfl, rfl, rfl, by decide, by decide, by decide, by decide,
    by decide, by decide, rfl, Nat.le_refl 51⟩, rfl, by decide, by decide⟩

theorem witness_send1Recv :
    let s := calling (.send1Recv 0xC8#8 0x07#8 2#8)
      { withStream [0xD1#8, 0x02#8, 0x7F#8, 0xAC#8] with answers := { open_.answers with alloc := [some 7#8] } }
    let f : Frame := ⟨0xD1#8, [0x7F#8]⟩
    (Ready s ∧ s.phase = .ready ∧ s.bound = true ∧ Calm s.env ∧ Taking s ∧ (bufAlloc 1 s).1 = some 7#8 ∧
        bufValid 2#8 s = true ∧ f.wf = true ∧ f.request ≠ 0x00#8 ∧ Roomy s ∧ stream s = frameBytes f ++ [] ∧
        4 ≤ (stream s).length ∧ s.answers.resizeOk = true :: [true]) ∧
      (bufValid 9#8 s = false ∧ 9#8 ≠ 7#8) ∧
      (bufAlloc 1 { s with answers := { open_.answers with alloc := [none] } }).1 = none :=
  ⟨⟨⟨rfl, rfl⟩, rfl, rfl, Calm.nil, Taking.of_quiet rfl rfl rfl, rfl, rfl, by decide, by decide, Nat.le_refl 51, by decide,
    by decide, rfl⟩, by decide, rfl⟩

/-- The two steps of a `SEND1RECV` whose response handle is the one just granted and whose receive fails: both steps are made,
and the second leaves the engine idle. -/
theorem witness_send1Recv_fails :
    let s := calling (.send1Recv 0xC8#8 0x07#8 7#8)
      { withStream [0x00#8, 0x00#8, 0x00#8, 0x00#8] with answers := { open_.answers with alloc := [some 7#8] } }
    (bufAlloc 1 s).1 = some 7#8 ∧ ∃ t, step s = .next t ∧ ((nextOf (step t)).map fun u => (u.st, u.cause)) =
      some (.idle, .badLength) :=
  ⟨rfl, by
    obtain ⟨t, ht, hP⟩ := next_of (o := step (calling (.send1Recv 0xC8#8 0x07#8 7#8)
      { withStream [0x00#8, 0x00#8, 0x00#8, 0x00#8] with answers := { open_.answers with alloc := [some 7#8] } }))
      (P := fun t => decide (((nextOf (step t)).map fun u => (u.st, u.cause)) = some (.idle, .badLength))) (by decide)
    exact ⟨t, ht, of_decide_eq_true hP⟩⟩

theorem witness_transientReleased :
    open_.st = .idle ∧ { open_ with phase := .sent1 7#8 }.phase = .sent1 7#8 ∧
      { open_ with phase := .received (some 7#8) }.phase = .received (some 7#8) ∧
      ({ open_ with phase := .sent 2#8 (some 7#8) }.phase = .sent 2#8 (some 7#8) ∧ open_.result = 0x00#8) ∧
      { open_ with phase := .received none }.phase = .received none ∧
      { open_ with phase := .sent 2#8 none }.phase = .sent 2#8 none :=
  ⟨rfl, rfl, rfl, ⟨rfl, rfl⟩, rfl, rfl⟩

/-- An `OPEN` and a `CLOSE`. -/
theorem witness_boundOnlyBySession :
    (Calm (calling .openSession State.reset).env ∧
        ∃ t, step (calling .openSession State.reset) = .next t ∧ (t.bound != State.reset.bound) = true) ∧
      (Calm (calling .closeSession open_).env ∧
        ∃ t, step (calling .closeSession open_) = .next t ∧ (t.bound != open_.bound) = true) :=
  ⟨⟨Calm.nil, next_of (P := fun t => t.bound != State.reset.bound) (by decide)⟩, Calm.nil,
    next_of (P := fun t => t.bound != open_.bound) (by decide)⟩

/-! ## Witnesses: the collaborators and the machine as a whole -/

/-- The last byte of a buffer of fifty. -/
theorem witness_bufferReadAfterWrite :
    (∃ t, bufSet 3#8 49 0x00#8 open_ = some t) ∧ bufSet 3#8 50 0x00#8 open_ = none ∧ open_.bufs.wf = true ∧
      (2#8, 49) ≠ ((3#8, 49) : Handle × Nat) :=
  ⟨⟨_, rfl⟩, rfl, rfl, by decide⟩

theorem witness_allocateResizeFree :
    (bufAlloc 5 { open_ with answers := { open_.answers with alloc := [none] } }).1 = none ∧
      (bufAlloc 5 { open_ with answers := { open_.answers with alloc := [some 4#8] } }).1 = some 5#8 ∧
      (bufValid 1#8 open_ = true ∧ (bufResize 1#8 7 open_).1 = true) := by decide

theorem witness_environmentOnlyAppends :
    NoReset { open_ with env := [[.arrive 0x01#8, .carry, .ready false, .line false, .again]] }.env ∧
      Calm { open_ with env := [[.arrive 0x01#8, .carry, .ready false, .line false]] }.env := by
  unfold Calm
  unfold NoReset; decide

/-- A request of each kind: a byte that is set, one that is got and written, a size, the validity of a handle, and a resize
answered true and false. -/
theorem witness_portsMatchVisit :
    let s := { withStream [0x55#8, 0x57#8] with st := .rPayload, rx := { open_.rx with h := 1#8, len := 3#8 } }
    let u := { open_ with st := .sPayload, tx := { open_.tx with h := 1#8, n := 2#8 } }
    let w := startCksum 1#8 open_
    let c := accept (encode (.recv 2#8)) .rCheck open_
    let r := { open_ with st := .rResize, rx := { open_.rx with h := 1#8, len := 51#8 } }
    let f := { r with answers := { open_.answers with resizeOk := [false] } }
    (∃ t, visit s = .go t) ∧ rxPop s = true ∧ s.chan.queue ≠ [] ∧ bufRequest s = some ⟨.set, 1#8, 0x00#8, 0x55#8⟩ ∧
      (∃ t, visit u = .go t) ∧ txPush u = some 0x10#8 ∧ txFlush { u with st := .sFlush } = true ∧
      (∃ t, visit w = .go t) ∧ bufRequest w = some ⟨.size, 1#8, 0x00#8, 0x00#8⟩ ∧
      bufRequest u = some ⟨.get, 1#8, 0x00#8, 0x00#8⟩ ∧
      (∃ t, visit c = .go t) ∧ bufRequest c = some ⟨.isValid, 2#8, 0x00#8, 0x00#8⟩ ∧
      (∃ t, visit r = .go t) ∧ bufRequest r = some ⟨.resize, 1#8, 50#8, 0x00#8⟩ ∧ (drawResize r).1 = true ∧
      (∃ t, visit f = .go t) ∧ (drawResize f).1 = false :=
  ⟨⟨_, rfl⟩, rfl, by decide, rfl, ⟨_, rfl⟩, rfl, rfl, ⟨_, rfl⟩, rfl, rfl, ⟨_, rfl⟩, rfl, ⟨_, rfl⟩, rfl, rfl, ⟨_, rfl⟩, rfl⟩

theorem witness_sequencerFollowsTable :
    (∃ t, visit { open_ with st := .eRun } = .go t) ∧ (∃ t, visit { open_ with st := .rWaitMin } = .wait t) :=
  ⟨⟨_, rfl⟩, _, rfl⟩

theorem witness_busyIgnoresCommand : { open_ with busy := true }.busy = true := rfl

theorem witness_stepRunsDecoded :
    let s := calling (.command 0x3C301#20) open_
    (s.st = .idle ∧ s.phase = .ready ∧ s.host = .command 0x3C301#20 :: [] ∧
        decode 0x3C301#20 = .op (.send 0xC3#8 0x01#8)) ∧
      { s with st := .rWaitMin }.st ≠ .idle ∧ decode (BitVec.ofNat 20 0x3C301) = .op (.send 0xC3#8 0x01#8) := by
  decide

theorem witness_finishedRests : Finished State.reset ∧ Calm State.reset.env := ⟨⟨rfl, rfl, rfl, rfl⟩, Calm.nil⟩

/-- A reset in the middle of a reception, in the middle of a drain, and of an engine at rest. -/
theorem witness_resetAtAnyTime :
    let s := { open_ with env := [[.rst]] }
    { s with st := .rWaitMin }.st ≠ .idle ∧ phaseActive { s with phase := .closing } = true ∧
      (s.env = [.rst] :: [] ∧ s.phase = .ready ∧ s.host = []) := by decide

/-- A whole `RECV` with a reset in the middle of it. -/
theorem witness_invKept :
    let s := calling (.command (encode (.recv 2#8)))
      { withStream [0xC3#8, 0x03#8, 0x10#8, 0x20#8, 0xF0#8] with env := [[], [], [], [.rst]] }
    Machine.Inv s ∧ ∃ t, step s = .next t ∧ (!t.bound) = true :=
  ⟨⟨by decide, by decide, by decide, ⟨[], rfl⟩, by decide, fun h => absurd rfl h, fun h => absurd rfl h, trivial,
      fun h => absurd rfl h, trivial⟩,
    next_of (P := fun t => !t.bound) (by decide)⟩

theorem witness_activeNeverRefused : ∃ s, Machine.Inv s ∧ s.st ≠ .idle := by
  obtain ⟨s, hI, -, -, hs⟩ := witness_sendFinishesOnceTaken .sLen (by simp)
  exact ⟨s, hI, by simp [hs]⟩

/-- A reception about to read its request byte, with just four bytes there, and a `CKSUM` about to get its first byte. -/
theorem witness_accessesCovered :
    let s := { withStream [0xC3#8, 0x03#8, 0x10#8, 0x20#8] with
      st := .rReq, busy := true, cmd := encode (.recv 2#8), rx := { open_.rx with h := 2#8 } }
    let u := { startCksum 1#8 open_ with tx := { open_.tx with h := 1#8, n := 2#8 }, kSize := false }
    (Machine.Inv s ∧ rxPop s = true) ∧ (Machine.Inv u ∧ bufRequest u = some ⟨.get, 1#8, 0x00#8, 0x00#8⟩) :=
  ⟨⟨⟨by decide, by decide, by decide, ⟨[], rfl⟩, by decide, fun h => absurd rfl h, fun h => absurd rfl h,
        opField_encode _, rfl, ⟨rfl, rfl, rfl, rfl, by decide⟩⟩, rfl⟩,
    ⟨by decide, by decide, by decide, ⟨[], rfl⟩, by decide, fun h => absurd rfl h, fun h => absurd rfl h,
      opField_encode _, fun h => absurd rfl h, ⟨(fun h => by cases h), fun _ => ⟨by decide, by decide, _, rfl, rfl, rfl⟩⟩⟩, rfl⟩

/-- A failed reception in its drain, fed for ever, which a `RECV` comes to in five visits; and an `OPEN` and a `CLOSE` fed for ever. -/
theorem witness_fedDrainNeverEnds :
    let fed := [[EnvMove.arrive 0x55#8, .again]]
    let s := { withStream [0x02#8, 0x00#8, 0x02#8, 0x77#8] with env := fed }
    let u := calling .openSession { State.reset with env := fed }
    let v := calling .closeSession { open_ with env := fed }
    (FedForEver s.env ∧ 0 < s.chan.capacity ∧ ∃ t, runEngineFor 6 (accept (encode (.recv 2#8)) .rCheck s) = .next t ∧
        (decide (t.st = .rCleanup) && decide (t.rx.res = 0x00#8) && decide (t.env = fed)) = true) ∧
      (FedForEver u.env ∧ 0 < u.chan.capacity ∧ Ready u ∧ u.phase = .ready ∧ u.bound = false ∧
        u.host = .openSession :: []) ∧
      (FedForEver v.env ∧ 0 < v.chan.capacity ∧ Ready v ∧ v.phase = .ready ∧ v.bound = true ∧
        v.host = .closeSession :: []) ∧
      { u with phase := .opening }.phase = .opening ∧ { v with phase := .closing }.phase = .closing :=
  have fed : FedForEver [[EnvMove.arrive 0x55#8, .again]] := ⟨_, _, 0x55#8, rfl, by decide, by decide, by decide⟩
  ⟨⟨fed, by decide, next_of (P := fun t => decide (t.st = .rCleanup) && decide (t.rx.res = 0x00#8) &&
      decide (t.env = [[EnvMove.arrive 0x55#8, .again]])) (by decide)⟩,
    ⟨fed, by decide, ⟨rfl, rfl⟩, rfl, rfl, rfl⟩, ⟨fed, by decide, ⟨rfl, rfl⟩, rfl, rfl, rfl⟩, rfl, rfl⟩

/-- The duties of all four operations. -/
theorem witness_dutiesSuffice :
    Machine.Inv open_ ∧ open_.st = .idle ∧ HostDuty (.encode true 0xFF#8) open_ ∧ HostDuty (.cksum 3#8) open_ ∧
      HostDuty (.recv 9#8) open_ ∧ HostDuty (.send 0xC3#8 1#8) open_ :=
  ⟨open_inv, rfl, trivial, ⟨_, rfl, by decide⟩, rfl, rfl, rfl⟩

end Sys2Proof.Machine.Tests
end

section
/-! SUPPORT. The proofs of the family 10_state: the invariant over every step, what a visit of the sequencer can do and what
its ports say, the session bit, the buffer collaborator, the waits, commands and reset. -/

namespace Sys2Proof.Machine

/-! ## The machine's invariant -/

/-- What the host does next when no procedure is in progress keeps the invariant. -/
theorem nextCall_inv {s t : State} (h : Inv s) (hst : s.st = .idle) (hph : s.phase = .ready)
    (he : nextCall s = .next t) : Inv t := by
  unfold nextCall at he
  split at he
  case h_1 => cases he; exact envStep_inv h
  case h_2 c rest hhost =>
    have hrest : Inv { s with host := rest } :=
      h.idle hst hst rfl rfl h.wf rfl rfl rfl rfl (fun hne => absurd hph hne)
    exact hostCall_inv hrest hst hph he

/-- The engine's run keeps the invariant. -/
theorem runEngine_inv {s t : State} (h : Inv s) (he : runEngine s = .next t) : Inv t := by
  obtain ⟨u, hu, hInv⟩ := runEngineFor_inv (visitBudget s) h
  cases (show runEngine s = .next u from hu).symm.trans he
  exact hInv

/-- Every step keeps the invariant. -/
theorem step_inv {s t : State} (h : Inv s) (he : step s = .next t) : Inv t := by
  by_cases hst : s.st = .idle
  case neg => rw [step_engine hst] at he; exact runEngine_inv h he
  have phase (ha : phaseActive s = true) : Inv t := by
    rw [step_phase hst ha] at he; exact runPhase_next_inv h hst he
  cases hph : s.phase with
  | ready => rw [step_ready hst hph] at he; exact nextCall_inv h hst hph he
  | opening => exact phase (by simp [phaseActive, hph])
  | closing => exact phase (by simp [phaseActive, hph])
  | flushing => exact phase (by simp [phaseActive, hph])
  | sent1 k => rw [step_sent1 hst hph] at he; exact afterOperation_inv h hst he
  | sent hr k => rw [step_sent hst hph] at he; exact afterOperation_inv h hst he
  | received k => rw [step_received hst hph] at he; exact afterOperation_inv h hst he

/-- Settles O55: the invariant is kept by each part of a step, and `step` takes one of them. -/
theorem invKept : Obligations.InvKept := by
  unfold Obligations.InvKept
  intro s t h he
  exact step_inv h he

/-- Settles O56: reset of the reset state changes nothing, and reset establishes the invariant. -/
theorem invReset : Obligations.InvReset := by
  unfold Obligations.InvReset
  have hwire : State.reset.chan.txq <:+ State.reset.chan.wireOut := List.suffix_rfl
  have hreset : resetEngine State.reset = State.reset := rfl
  rw [← hreset]
  exact resetEngine_inv reset_memory_wf hwire

/-! ## What `RECV` reports as success -/

/-- A reception that ends with a nonzero result read a checksum byte that matches, and reports the request byte. -/
theorem readFrame_success {r : Rx} {p : List Byte} {i : BitVec 6} {b : Byte} (hr : r.res = 0x00#8)
    (h : (r.readFrame p i b).res ≠ 0x00#8) :
    b = p.foldl foldByte r.ck ∧ (r.readFrame p i b).res = r.req := by
  by_cases hb : b = p.foldl foldByte r.ck
  · exact ⟨hb, if_pos hb⟩
  · exact absurd ((if_neg hb).trans hr) h

/-- The running checksum of a reception, from its start value over header and payload (41_checksum.md R76). -/
theorem header_ck (r l : Byte) (p : List Byte) :
    p.foldl foldByte (foldByte (foldByte 0x00#8 r) l) = xor8 (r :: l :: p) := rfl

/-- The bytes of a frame whose length byte is `l` (30_encoding.md R51 to R53). -/
theorem frameBytes_of_length {r l : Byte} {p : List Byte} (h50 : p.length ≤ 50) (hl : l.toNat = p.length + 1) :
    frameBytes ⟨r, p⟩ = r :: l :: p ++ [xor8 (r :: l :: p)] := by
  have hlen : frameLength ⟨r, p⟩ = l := by
    apply BitVec.eq_of_toNat_eq
    rw [hl]
    exact frameLength_toNat (d := p) (by omega)
  unfold frameBytes frameChecksum
  rw [hlen]

/-- What a reception that stands at the wait of step 5 has read when it finishes with a nonzero result. -/
theorem FrameOutcome.success {z t : State} (h : FrameOutcome z t) (hz : AtFrame z) (hst : t.st = .idle)
    (hres : t.result ≠ 0x00#8) :
    ∃ p, p.length = payloadSize z.rx.len ∧ stream z = p ++ p.foldl foldByte z.rx.ck :: stream t ∧
      t.result = z.rx.req ∧ t.bufs.find z.rx.h = some p ∧ t.cause = .none ∧ t.rx.len = z.rx.len := by
  cases h with
  | rests c short eq drift still => rw [eq, show State.st _ = z.st from rfl, hz.st] at hst; cases hst
  | refused e c e' enough answer eq drift later room => rw [eq] at hres; exact absurd rfl hres
  | frame p b S e c i B R answer str size eq drift good bad idx here others room =>
    subst eq
    obtain ⟨hb, hreq⟩ := readFrame_success (i := i) hz.res hres
    have hreq0 : z.rx.req ≠ 0x00#8 := fun h0 => hres (hreq.trans h0)
    refine ⟨p, size, ?_, hreq, here, ?_, rfl⟩
    · rw [str, ← hb, ← good hres]
      exact congrArg _ (congrArg _ drift.str.symm)
    · exact (if_pos hb).trans (if_neg hreq0)

/-- What `RECV` has read when it finishes with a nonzero result: its handle was valid, and a header with a good length,
its payload and the matching checksum byte stood at the head of the stream. -/
theorem exec_recv_success {s t : State} {h : Handle} (hs : Ready s) (hc : Calm s.env)
    (he : exec (.recv h) s = .next t) (hst : t.st = .idle) (hres : t.result ≠ 0x00#8) :
    ∃ l p, validLength l = true ∧ p.length = payloadSize l ∧
      stream s = t.result :: l :: p ++ xor8 (t.result :: l :: p) :: stream t ∧
      t.bufs.find h = some p ∧ t.cause = .none ∧ t.rx.len = l := by
  obtain ⟨-, hb⟩ := hs
  cases hbd : s.bound with
  | false => rw [exec_recv, execRecv, hb, hbd] at he; cases he
  | true =>
    cases hv : bufValid h s with
    | false =>
      obtain ⟨e, c, hr, -⟩ := exec_recv_invalid hb hbd hc hv
      cases hr.symm.trans he
      exact absurd rfl hres
    | true =>
      obtain ⟨u, hr, ho, -⟩ := exec_recv_outcome hb hbd hc hv
      cases hr.symm.trans he
      cases ho with
      | rests c short eq drift still => rw [eq] at hst; cases hst
      | badLength r l S e c e' str two length eq drift later room => rw [eq] at hres; exact absurd rfl hres
      | frame r l S e c str two length drift start next room =>
        obtain ⟨p, hp, hS, hreq, hfind, hcause, hlen⟩ := next.success start hst hres
        have hSz : S = p ++ xor8 (r :: l :: p) :: stream t := by
          rw [← drift.str, ← header_ck]; exact hS
        have hreq' : t.result = r := hreq
        refine ⟨l, p, length, hp, ?_, hfind, hcause, hlen⟩
        rw [← stream_atMin h s, str, hreq', hSz]
        rfl

/-- Settles O25: every way `RECV` can end but the one that read a whole correct frame reports 0x00 or is still waiting. -/
theorem recvSoundness : Obligations.RecvSoundness := by
  unfold Obligations.RecvSoundness
  intro s t h hs hc he hst hres
  obtain ⟨l, p, hl, hp, hS, hfind, hcause, hlen⟩ := exec_recv_success hs hc he hst hres
  obtain ⟨h50, hsucc⟩ := payloadSize_le hl
  have hlp : l.toNat = p.length + 1 := by rw [hp]; exact hsucc
  refine ⟨p, by omega, ?_, hfind, hcause, by rw [hlen, hlp]⟩
  rw [hS, frameBytes_of_length (by omega) hlp]
  simp

/-! ## The session bit -/

/-- With no reset asserted a slot leaves the session bit and the host procedure alone. -/
theorem envStep_host {s : State} (h : NoReset s.env) :
    (envStep s).bound = s.bound ∧ (envStep s).phase = s.phase ∧ (envStep s).env = laterSlots s.env := by
  rw [envStep_noReset h]
  exact ⟨rfl, rfl, rfl⟩

/-- How an `OPEN` or `CLOSE` that was in progress in `s` stands in `u`: the session bit is kept or cleared, and an `OPEN`
keeps it, being still an `OPEN` or over (40_session_control.md R70, R71). -/
structure SessionKept (s u : State) : Prop where
  env : NoReset u.env
  bound : u.bound = s.bound ∨ u.bound = false
  opening : s.phase = .opening → u.bound = s.bound ∧ (u.phase = .opening ∨ u.phase = .ready)

/-- What one round of `OPEN` or `CLOSE` does to the session bit. -/
theorem phaseVisit_bound {s t : State} (h : phaseVisit s = .go t ∨ phaseVisit s = .wait t) :
    t.env = s.env ∧ (t.bound = s.bound ∨ t.bound = false) ∧
      (s.phase = .opening → t.bound = s.bound ∧ (t.phase = .opening ∨ t.phase = .ready)) := by
  obtain ⟨⟨hbound, -, hphase, -⟩, henv, -, -⟩ := chanRead_host s
  unfold phaseVisit at h
  cases hph : s.phase <;> simp only [hph] at h
  case opening =>
    split at h <;> (rcases h with h | h <;> cases h)
    · exact ⟨henv, .inl hbound, fun _ => ⟨hbound, .inl (hphase.trans hph)⟩⟩
    · exact ⟨rfl, .inl rfl, fun _ => ⟨rfl, .inr rfl⟩⟩
  case closing =>
    split at h <;> (rcases h with h | h <;> cases h)
    · exact ⟨henv, .inl hbound, nofun⟩
    · exact ⟨rfl, .inl rfl, nofun⟩
  case flushing =>
    split at h <;> (rcases h with h | h <;> cases h)
    · exact ⟨rfl, .inr rfl, nofun⟩
    · exact ⟨rfl, .inl rfl, nofun⟩
  all_goals
    rcases h with h | h <;> cases h
    exact ⟨rfl, .inl rfl, nofun⟩

theorem SessionKept.visit {s u v : State} (h : SessionKept s u) (ha : phaseActive u = true)
    (hv : phaseVisit (envStep u) = .go v ∨ phaseVisit (envStep u) = .wait v) : SessionKept s v := by
  obtain ⟨hbound, hphase, henv⟩ := envStep_host h.env
  obtain ⟨henv', hbound', hopening'⟩ := phaseVisit_bound hv
  rw [henv] at henv'
  rw [hbound] at hbound' hopening'
  refine ⟨henv' ▸ h.env.later, ?_, fun hs => ?_⟩
  · rcases hbound' with hkept | hcleared
    · rw [hkept]; exact h.bound
    · exact .inr hcleared
  · obtain ⟨hkept, hopen | hover⟩ := h.opening hs
    · obtain ⟨hkept', hph⟩ := hopening' (hphase.trans hopen)
      exact ⟨hkept'.trans hkept, hph⟩
    · simp [phaseActive, hover] at ha

/-- A step of `OPEN` or `CLOSE` in progress changes the session bit only from 1, and never in an `OPEN`. -/
theorem runPhase_bound {s t : State} (hc : NoReset s.env) (h : runPhase s = .next t) :
    (t.bound = s.bound ∨ t.bound = false) ∧ (s.phase = .opening → t.bound = s.bound) := by
  have start : SessionKept s s := ⟨hc, .inl rfl, fun hs => ⟨rfl, .inl hs⟩⟩
  have kept : SessionKept s t :=
    runVisits_next_keeps (P := SessionKept s) (fun _ _ hu ha hv => hu.visit ha hv) _ s t start h
  exact ⟨kept.bound, fun hs => (kept.opening hs).1⟩

theorem startSendRecv_bound {r : Byte} {hp hr : Handle} {k : Option Handle} {s t : State} (hc : NoReset s.env)
    (h : startSendRecv r hp hr k s = .next t) : t.bound = s.bound := by
  unfold startSendRecv at h
  split at h
  · exact (exec_host (s := { s with phase := .sent hr k }) hc h).1
  · cases h; cases k <;> rfl

/-- The first lines of a composite leave the session bit and the slots to come alone. -/
theorem transient_bound {n : Nat} {o : Option Handle} {k : Handle} {v : Byte} {s u w : State}
    (hu : bufAlloc n s = (o, u)) (hw : bufSet k 0 v u = some w) : w.bound = s.bound ∧ w.env = s.env := by
  have halloc := bufAlloc_host n s
  rw [hu] at halloc
  obtain ⟨hhost, henv⟩ := halloc
  obtain ⟨hhost', henv'⟩ := bufSet_host hw
  exact ⟨hhost'.1.trans hhost.1, henv'.trans henv⟩

theorem bufAlloc_bound {n : Nat} {o : Option Handle} {s u : State} (hu : bufAlloc n s = (o, u)) :
    u.bound = s.bound := by
  have halloc := (bufAlloc_host n s).1
  rw [hu] at halloc
  exact halloc.1

theorem hostSend1_bound {r v : Byte} {s t : State} (hc : NoReset s.env) (h : hostSend1 r v s = .next t) :
    t.bound = s.bound := by
  unfold hostSend1 at h
  split at h
  case isFalse => cases h
  split at h
  case h_1 u hu =>
    have hbound := bufAlloc_bound hu
    cases h; exact hbound
  case h_2 k u hu =>
    split at h
    case h_1 w hw =>
      obtain ⟨hbound, henv⟩ := transient_bound hu hw
      have hn : NoReset w.env := henv ▸ hc
      exact (exec_host (s := { w with phase := .sent1 k }) hn h).1.trans hbound
    case h_2 => cases h

theorem hostSend1Recv_bound {r v : Byte} {hr : Handle} {s t : State} (hc : NoReset s.env)
    (h : hostSend1Recv r v hr s = .next t) : t.bound = s.bound := by
  unfold hostSend1Recv at h
  split at h
  case isFalse => cases h
  split at h
  case h_1 u hu =>
    have hbound := bufAlloc_bound hu
    cases h; exact hbound
  case h_2 k u hu =>
    split at h
    case h_1 w hw =>
      obtain ⟨hbound, henv⟩ := transient_bound hu hw
      exact (startSendRecv_bound (henv ▸ hc) h).trans hbound
    case h_2 => cases h

/-- With no reset asserted a call of the host that changes the session bit is `OPEN` of a closed session or `CLOSE` of an
open one (40_session_control.md R74). -/
theorem hostCall_bound {c : HostCall} {s t : State} (hc : NoReset s.env) (h : hostCall c s = .next t) :
    t.bound = s.bound ∨ (c = .openSession ∧ s.bound = false) ∨ (c = .closeSession ∧ s.bound = true) := by
  cases c with
  | openSession =>
    simp only [hostCall, hostOpen] at h
    split at h
    · cases h
    · rename_i hb; exact .inr (.inl ⟨rfl, Bool.eq_false_iff.2 hb⟩)
  | closeSession =>
    simp only [hostCall, hostClose] at h
    split at h
    · rename_i hb; exact .inr (.inr ⟨rfl, hb⟩)
    · cases h
  | command w =>
    simp only [hostCall, hostCommand] at h
    split at h
    · exact .inl (exec_host hc h).1
    · cases h; exact .inl rfl
  | send1 r v => exact .inl (hostSend1_bound hc h)
  | sendRecv r hp hr =>
    simp only [hostCall, hostSendRecv] at h
    split at h
    · exact .inl (startSendRecv_bound hc h)
    · cases h
  | send1Recv r v hr => exact .inl (hostSend1Recv_bound hc h)
  | bufAlloc n => cases h; exact .inl (bufAlloc_host n s).1.1
  | bufFree k => simp only [hostCall, hostOnBuffer] at h; split at h <;> cases h; exact .inl rfl
  | bufIsValid k => cases h; exact .inl rfl
  | bufSize k => simp only [hostCall, hostOnBuffer] at h; split at h <;> cases h; exact .inl rfl
  | bufResize k n =>
    simp only [hostCall, hostOnBuffer] at h
    split at h <;> cases h
    exact .inl (bufResize_host (h := k) (n := n) rfl).1.1
  | bufGet k i =>
    simp only [hostCall, hostOnBuffer] at h
    split at h
    · split at h <;> cases h; exact .inl rfl
    · cases h
  | bufSet k i v =>
    simp only [hostCall, hostOnBuffer] at h
    split at h
    · split at h
      · rename_i u hu; cases h; exact .inl (bufSet_host hu).1.1
      · cases h
    · cases h
  | pause => cases h; exact .inl (envStep_host hc).1

theorem afterOperation_bound {s t : State} (hc : NoReset s.env) (h : afterOperation s = .next t) :
    t.bound = s.bound := by
  have released (k : Option Handle) (r : HostRet) : (returnTo r (freeTransient k s)).bound = s.bound := by
    cases k <;> rfl
  unfold afterOperation at h
  split at h
  case h_1 => cases h; rfl
  case h_2 hr k _ =>
    split at h
    · cases h; exact released _ _
    · exact (exec_host (s := { s with phase := .received k }) hc h).1
  case h_3 => cases h; exact released _ _
  all_goals cases h; rfl

/-- Settles O44: of the parts of a step only `OPEN`'s call and `CLOSE`'s, from its call to its flush, change the bit. -/
theorem boundOnlyBySession : Obligations.BoundOnlyBySession := by
  unfold Obligations.BoundOnlyBySession
  intro s t hc he hne
  by_cases hst : s.st = .idle
  case neg =>
    rw [step_engine hst] at he
    exact absurd (runEngine_host hc he).1.1 hne
  refine ⟨hst, ?_⟩
  have closing (ha : phaseActive s = true) : s.bound = true ∧ s.phase ≠ .opening := by
    rw [step_phase hst ha] at he
    obtain ⟨hb, ho⟩ := runPhase_bound hc he
    refine ⟨?_, fun hs => hne (ho hs)⟩
    rcases hb with hb | hb
    · exact absurd hb hne
    · rw [hb] at hne; simpa using hne.symm
  cases hph : s.phase with
  | ready =>
    rw [step_ready hst hph] at he
    unfold nextCall at he
    split at he
    case h_1 => cases he; exact absurd (envStep_host hc).1 hne
    case h_2 c rest hhost =>
      rcases hostCall_bound (s := { s with host := rest }) hc he with hb | ⟨rfl, hb⟩ | ⟨rfl, hb⟩
      · exact absurd hb hne
      · exact .inl ⟨hb, rfl, rest, hhost⟩
      · exact .inr ⟨hb, .inl ⟨rfl, rest, hhost⟩⟩
  | opening => exact absurd hph (closing (by simp [phaseActive, hph])).2
  | closing => exact .inr ⟨(closing (by simp [phaseActive, hph])).1, .inr (.inl rfl)⟩
  | flushing => exact .inr ⟨(closing (by simp [phaseActive, hph])).1, .inr (.inr rfl)⟩
  | sent1 k => rw [step_sent1 hst hph] at he; exact absurd (afterOperation_bound hc he) hne
  | sent hr k => rw [step_sent hst hph] at he; exact absurd (afterOperation_bound hc he) hne
  | received k => rw [step_received hst hph] at he; exact absurd (afterOperation_bound hc he) hne

/-! ## The buffer collaborator -/

/-- A handle's byte after a write to its map. -/
theorem byteAt_put (m : Memory) (h j : Handle) (d : List Byte) (i : Nat) :
    (m.put h d).byteAt j i = if h = j then d[i]? else m.byteAt j i := by
  unfold Memory.byteAt
  rw [Memory.find_put]
  split <;> rfl

/-- One byte of a buffer set: that byte reads as set, every other byte and every size is as before (10_state.md R18). -/
theorem put_set_bytes {m : Memory} {h : Handle} {i : Nat} {d : List Byte} (hd : m.find h = some d) (hi : i < d.length)
    (v : Byte) :
    (m.put h (d.set i v)).byteAt h i = some v ∧
      (∀ j k, (j, k) ≠ (h, i) → (m.put h (d.set i v)).byteAt j k = m.byteAt j k) ∧
      ∀ j, ((m.put h (d.set i v)).find j).map List.length = (m.find j).map List.length := by
  refine ⟨?_, fun j k hne => ?_, fun j => ?_⟩
  · rw [byteAt_put, if_pos rfl, List.getElem?_set_self hi]
  · rw [byteAt_put]
    split
    · rename_i hj
      subst hj
      have hik : i ≠ k := fun hik => hne (by rw [hik])
      rw [List.getElem?_set_ne hik, Memory.byteAt, hd]
      rfl
    · rfl
  · rw [Memory.find_put]
    split
    · rename_i hj
      subst hj
      rw [hd, Option.map_some, Option.map_some, List.length_set]
    · rfl

/-- Settles O45: `set` is a write to the map, and the map's laws say what it reads afterwards. -/
theorem bufferReadAfterWrite : Obligations.BufferReadAfterWrite := by
  unfold Obligations.BufferReadAfterWrite
  intro s h i v
  refine ⟨⟨fun ⟨t, ht⟩ => ?_, fun ⟨d, hd, hi⟩ => ⟨_, bufSet_eq_some.2 ⟨d, hd, hi, rfl⟩⟩⟩, fun t ht => ?_⟩
  · obtain ⟨d, hd, hi, -⟩ := bufSet_eq_some.1 ht
    exact ⟨d, hd, hi⟩
  · have hwf : s.bufs.wf = true → t.bufs.wf = true := fun hs => bufSet_keeps_wf hs ht
    obtain ⟨d, hd, hi, rfl⟩ := bufSet_eq_some.1 ht
    obtain ⟨hread, hothers, hsizes⟩ := put_set_bytes hd hi v
    exact ⟨hread, hothers, hsizes, hwf⟩

/-- Every buffer but one is untouched when the map answers as before for every other handle. -/
theorem otherBuffersKept_of_find {h : Handle} {s t : State} (hf : ∀ j, j ≠ h → t.bufs.find j = s.bufs.find j) :
    OtherBuffersKept h s t :=
  fun j hj => ⟨hf j hj, fun i => by unfold Memory.byteAt; rw [hf j hj]⟩

/-- `allocate` fails and changes no buffer, or grants a handle that named none, of the size asked for. -/
theorem bufAlloc_spec (n : Nat) (s : State) :
    ((bufAlloc n s).1 = none → (bufAlloc n s).2.bufs = s.bufs) ∧
      ∀ k, (bufAlloc n s).1 = some k →
        s.bufs.find k = none ∧ (∃ d, (bufAlloc n s).2.bufs.find k = some d ∧ d.length = n) ∧
          OtherBuffersKept k s (bufAlloc n s).2 := by
  obtain ⟨a, c, heq | ⟨k, hk, heq⟩⟩ := bufAlloc_cases n s <;> rw [heq]
  · exact ⟨fun _ => rfl, nofun⟩
  · refine ⟨nofun, fun k' hk' => ?_⟩
    cases hk'
    exact ⟨hk, ⟨_, Memory.find_put_same _ _ _, length_freeBytes _ _⟩,
      otherBuffersKept_of_find fun j hj => Memory.find_put_of_ne _ _ hj.symm⟩

/-- `resize` gives the collaborator's answer, leaves the new size when it is true, and touches no other buffer. -/
theorem bufResize_spec (h : Handle) (n : Nat) (s : State) :
    (bufResize h n s).1 = (drawResize s).1 ∧
      ((bufResize h n s).1 = true → ∃ d, (bufResize h n s).2.bufs.find h = some d ∧ d.length = n) ∧
      OtherBuffersKept h s (bufResize h n s).2 := by
  refine ⟨?_, fun htrue => ?_, ?_⟩
  · obtain ⟨a, c, ⟨heq, hdraw⟩ | ⟨heq, hdraw⟩⟩ := bufResize_cases h n s <;> rw [heq, hdraw]
  · obtain ⟨a, c, ⟨heq, -⟩ | ⟨heq, -⟩⟩ := bufResize_cases h n s <;> rw [heq] at htrue ⊢
    · exact ⟨_, Memory.find_put_same _ _ _, length_freeBytes _ _⟩
    · cases htrue
  · obtain ⟨-, -, -, hothers, -⟩ := bufResize_host (h := h) (n := n) (s := s) rfl
    exact hothers

theorem bufFree_spec (h : Handle) (s : State) :
    bufValid h (bufFree h s) = false ∧ OtherBuffersKept h s (bufFree h s) := by
  refine ⟨?_, otherBuffersKept_of_find fun j hj => ?_⟩
  · unfold bufValid
    rw [bufFree_bufs, Memory.find_erase, if_pos rfl]
    rfl
  · rw [bufFree_bufs, Memory.find_erase, if_neg hj.symm]

/-- Settles O46: from what each of the three operations does to the map. -/
theorem allocateResizeFree : Obligations.AllocateResizeFree := by
  unfold Obligations.AllocateResizeFree
  intro s h n
  obtain ⟨hfailed, hgranted⟩ := bufAlloc_spec n s
  exact ⟨hfailed, hgranted, fun _ => bufResize_spec h n s, bufFree_spec h s⟩

/-! ## What a read of the channel and a resize leave alone -/

@[simp] theorem chanRead_st (s : State) : (chanRead s).2.st = s.st := by unfold chanRead; split <;> rfl

@[simp] theorem chanRead_rx (s : State) : (chanRead s).2.rx = s.rx := by unfold chanRead; split <;> rfl

@[simp] theorem chanRead_bufs (s : State) : (chanRead s).2.bufs = s.bufs := by unfold chanRead; split <;> rfl

theorem chanRead_rxq (s : State) :
    (chanRead s).2.chan.rxq = if s.chan.queue ≠ [] then s.chan.rxq.tail else s.chan.rxq := by
  unfold chanRead
  split <;> simp [*]

theorem chanRead_txSide (s : State) :
    (chanRead s).2.chan.txq = s.chan.txq ∧ (chanRead s).2.chan.wireOut = s.chan.wireOut := by
  unfold chanRead
  split <;> exact ⟨rfl, rfl⟩

/-- A read of a queue that is not empty gives the byte on `rx_data` (10_state.md R23). -/
theorem rxData_of_chanRead {s : State} (h : s.chan.queue ≠ []) : rxData s = some (chanRead s).1 := by
  unfold rxData chanRead
  split
  · rename_i b q hq; rw [hq]; rfl
  · rename_i hq; exact absurd hq h

theorem bufResize_chan (h : Handle) (n : Nat) (s : State) : (bufResize h n s).2.chan = s.chan := by
  obtain ⟨-, -, hchan, -⟩ := bufResize_host (h := h) (n := n) (s := s) rfl
  exact hchan

/-! ## What a visit can do -/

/-- Everything a visit that is made can come to: one constructor for each way through each state of the sequencer
(10_state.md R13). -/
inductive Visited (s : State) : State → Prop
  | idle (st : s.st = .idle) : Visited s s
  | handleValid (st : s.st = .rCheck) (valid : bufValid (handleOf s.cmd) s = true) :
    Visited s { s with rx := s.rx.started (handleOf s.cmd), st := .rWaitMin }
  | handleInvalid (st : s.st = .rCheck) (valid : bufValid (handleOf s.cmd) s = false) :
    Visited s (fail .invalidHandle .finish { s with rx := s.rx.started (handleOf s.cmd) })
  | minTick (st : s.st = .rWaitMin) (runs : s.pollT ≠ 0#5) : Visited s { s with pollT := s.pollT - 1#5 }
  | minOver (st : s.st = .rWaitMin) (out : s.pollT = 0#5) (enough : Config.minAvail ≤ chanAvail s) :
    Visited s { s with st := .rReq }
  | requestRead (st : s.st = .rReq) :
    Visited s { (chanRead s).2 with
      rx := { s.rx with req := (chanRead s).1, ck := foldByte s.rx.ck (chanRead s).1 }, st := .rLen }
  | lengthRead (st : s.st = .rLen) :
    Visited s { (chanRead s).2 with
      rx := { s.rx with len := (chanRead s).1, ck := foldByte s.rx.ck (chanRead s).1 }, st := .rValidate }
  | lengthValid (st : s.st = .rValidate) (valid : validLength s.rx.len = true) :
    Visited s { s with st := .rWaitFrame }
  | lengthBad (st : s.st = .rValidate) (valid : validLength s.rx.len = false) :
    Visited s (fail .badLength .rCleanup s)
  | frameTick (st : s.st = .rWaitFrame) (runs : s.pollT ≠ 0#5) : Visited s { s with pollT := s.pollT - 1#5 }
  | frameOver (st : s.st = .rWaitFrame) (out : s.pollT = 0#5) (enough : s.rx.len.toNat ≤ chanAvail s) :
    Visited s { s with st := .rResize }
  | resizedTo (st : s.st = .rResize) (valid : bufValid s.rx.h s = true) (answer : (drawResize s).1 = true) :
    Visited s { (bufResize s.rx.h (payloadSize s.rx.len) s).2 with st := .rPayload }
  | resizeFailed (st : s.st = .rResize) (valid : bufValid s.rx.h s = true) (answer : (drawResize s).1 = false) :
    Visited s (fail .resizeFail .rCleanup (bufResize s.rx.h (payloadSize s.rx.len) s).2)
  | payloadSet (st : s.st = .rPayload) (more : s.rx.idx.toNat < payloadSize s.rx.len) (u : State)
      (set : bufSet s.rx.h s.rx.idx.toNat (chanRead s).1 (chanRead s).2 = some u) :
    Visited s { u with rx := { u.rx with ck := foldByte u.rx.ck (chanRead s).1, idx := u.rx.idx + 1#6 } }
  | payloadOver (st : s.st = .rPayload) (last : ¬ s.rx.idx.toNat < payloadSize s.rx.len) :
    Visited s { s with st := .rCksum }
  | checksumMatches (st : s.st = .rCksum) (same : (chanRead s).1 = s.rx.ck) :
    Visited s { (chanRead s).2 with
      rx := { s.rx with res := s.rx.req }
      failCause := if s.rx.req = 0x00#8 then .zeroRequest else .none, st := .rCleanup }
  | checksumDiffers (st : s.st = .rCksum) (differs : (chanRead s).1 ≠ s.rx.ck) :
    Visited s (fail .checksum .rCleanup (chanRead s).2)
  | drained (st : s.st = .rCleanup) (failed : s.rx.res = 0x00#8) (left : 0 < chanAvail s) : Visited s (drainOne s)
  | cleaned (st : s.st = .rCleanup) (done : ¬ (s.rx.res = 0x00#8 ∧ 0 < chanAvail s)) :
    Visited s { s with st := .finish }
  | sizeValid (st : s.st = .sCheck) (d : List Byte) (find : s.bufs.find (handleOf s.cmd) = some d)
      (valid : validSize (sizeCount d) = true) :
    Visited s { s with
      tx := { s.tx with h := handleOf s.cmd, req := requestOf s.cmd, ok := false, idx := 0#6, n := sizeCount d }
      st := .sReq }
  | sizeBad (st : s.st = .sCheck) (d : List Byte) (find : s.bufs.find (handleOf s.cmd) = some d)
      (valid : validSize (sizeCount d) = false) :
    Visited s (fail .badSize .finish { s with
      tx := { s.tx with h := handleOf s.cmd, req := requestOf s.cmd, ok := false, idx := 0#6, n := sizeCount d } })
  | requestWritten (st : s.st = .sReq) (ready : s.chan.ready = true) :
    Visited s (chanWrite s.tx.req { s with tx := { s.tx with ck := foldByte 0x00#8 s.tx.req }, st := .sLen })
  | lengthWritten (st : s.st = .sLen) (ready : s.chan.ready = true) :
    Visited s (chanWrite (sendLength s.tx.n) { s with
      tx := { s.tx with len := sendLength s.tx.n, ck := foldByte s.tx.ck (sendLength s.tx.n) }, st := .sPayload })
  | payloadWritten (st : s.st = .sPayload) (more : s.tx.idx.toNat < s.tx.n.toNat) (v : Byte)
      (get : bufGet s.tx.h s.tx.idx.toNat s = some v) (ready : s.chan.ready = true) :
    Visited s (chanWrite v { s with tx := { s.tx with ck := foldByte s.tx.ck v, idx := s.tx.idx + 1#6 } })
  | sendOver (st : s.st = .sPayload) (last : ¬ s.tx.idx.toNat < s.tx.n.toNat) : Visited s { s with st := .sCksum }
  | checksumWritten (st : s.st = .sCksum) (ready : s.chan.ready = true) :
    Visited s (chanWrite s.tx.ck { s with st := .sFlush })
  | flushed (st : s.st = .sFlush) (can : canFlush s = true) :
    Visited s { chanFlush s with tx := { s.tx with ok := true }, failCause := .none, st := .finish }
  | cksumSize (st : s.st = .kRun) (size : s.kSize = true) (d : List Byte)
      (find : s.bufs.find (handleOf s.cmd) = some d) (short : d.length ≤ 50) :
    Visited s { s with
      tx := { s.tx with h := handleOf s.cmd, n := sizeCount d, ck := 0x00#8, idx := 0#6 }, kSize := false }
  | cksumGot (st : s.st = .kRun) (size : s.kSize = false) (more : s.tx.idx.toNat < s.tx.n.toNat) (v : Byte)
      (get : bufGet s.tx.h s.tx.idx.toNat s = some v) :
    Visited s { s with tx := { s.tx with ck := foldByte s.tx.ck v, idx := s.tx.idx + 1#6 } }
  | cksumOver (st : s.st = .kRun) (size : s.kSize = false) (last : ¬ s.tx.idx.toNat < s.tx.n.toNat) :
    Visited s { s with failCause := .none, st := .finish }
  | encoded (st : s.st = .eRun) : Visited s { s with failCause := .none, st := .finish }
  | finished (st : s.st = .finish) :
    Visited s { s with
      result := resultOf s, cause := s.failCause, done := true, busy := false, illegal := false, st := .idle }

theorem waitVisit_go {n : Nat} {next : Seq} {s t : State} (h : waitVisit n next s = .go t) :
    (s.pollT ≠ 0#5 ∧ t = { s with pollT := s.pollT - 1#5 }) ∨
      (s.pollT = 0#5 ∧ n ≤ chanAvail s ∧ t = { s with st := next }) := by
  unfold waitVisit at h
  split at h <;> rename_i timer
  · cases h; exact .inl ⟨timer, rfl⟩
  · split at h <;> rename_i enough <;> cases h
    exact .inr ⟨Decidable.not_not.1 timer, enough, rfl⟩

theorem writing_go {b : Byte} {s u t : State} (h : writing b s u = .go t) : s.chan.ready = true ∧ t = chanWrite b u := by
  unfold writing at h
  split at h <;> rename_i ready <;> cases h
  exact ⟨ready, rfl⟩

/-- A visit that is made comes to one of these. -/
theorem visited_of_visit {s t : State} (h : visit s = .go t) : Visited s t := by
  unfold visit at h
  cases st : s.st <;> simp only [st] at h
  case idle => cases h; exact .idle st
  case rCheck =>
    simp only [visitRCheck] at h
    split at h <;> rename_i valid <;> cases h
    · exact .handleValid st valid
    · exact .handleInvalid st (Bool.eq_false_iff.2 valid)
  case rWaitMin =>
    obtain ⟨runs, rfl⟩ | ⟨out, enough, rfl⟩ := waitVisit_go h
    · exact .minTick st runs
    · exact .minOver st out enough
  case rReq =>
    simp only [visitRReq, chanRead_rx] at h
    cases h; exact .requestRead st
  case rLen =>
    simp only [visitRLen, chanRead_rx] at h
    cases h; exact .lengthRead st
  case rValidate =>
    unfold visitRValidate at h
    split at h <;> rename_i valid <;> cases h
    · exact .lengthValid st valid
    · exact .lengthBad st (Bool.eq_false_iff.2 valid)
  case rWaitFrame =>
    obtain ⟨runs, rfl⟩ | ⟨out, enough, rfl⟩ := waitVisit_go h
    · exact .frameTick st runs
    · exact .frameOver st out enough
  case rResize =>
    have hdraw := (bufResize_spec s.rx.h (payloadSize s.rx.len) s).1
    unfold visitRResize at h
    split at h <;> rename_i valid
    · split at h <;> rename_i u hu <;> cases h <;> rw [hu] at hdraw
      · have := Visited.resizedTo st valid hdraw.symm
        rwa [hu] at this
      · have := Visited.resizeFailed st valid hdraw.symm
        rwa [hu] at this
    · cases h
  case rPayload =>
    unfold visitRPayload at h
    split at h
    · rename_i more
      simp only [chanRead_rx] at h
      split at h
      · rename_i u set; cases h; exact .payloadSet st more u set
      · cases h
    · rename_i last; cases h; exact .payloadOver st last
  case rCksum =>
    simp only [visitRCksum, chanRead_rx] at h
    split at h <;> rename_i same <;> cases h
    · exact .checksumMatches st same
    · exact .checksumDiffers st same
  case rCleanup =>
    unfold visitRCleanup at h
    split at h <;> rename_i hd <;> cases h
    · exact .drained st hd.1 hd.2
    · exact .cleaned st hd
  case sCheck =>
    unfold visitSCheck at h
    split at h
    · cases h
    · rename_i d find
      simp only at h
      split at h <;> rename_i valid <;> cases h
      · exact .sizeValid st d find valid
      · exact .sizeBad st d find (Bool.eq_false_iff.2 valid)
  case sReq => obtain ⟨ready, rfl⟩ := writing_go h; exact .requestWritten st ready
  case sLen => obtain ⟨ready, rfl⟩ := writing_go h; exact .lengthWritten st ready
  case sPayload =>
    unfold visitSPayload at h
    split at h
    · rename_i more
      split at h
      · rename_i v get; obtain ⟨ready, rfl⟩ := writing_go h; exact .payloadWritten st more v get ready
      · cases h
    · rename_i last; cases h; exact .sendOver st last
  case sCksum => obtain ⟨ready, rfl⟩ := writing_go h; exact .checksumWritten st ready
  case sFlush =>
    unfold visitSFlush at h
    split at h <;> rename_i can <;> cases h
    exact .flushed st can
  case kRun =>
    unfold visitKRun at h
    split at h <;> rename_i size
    · split at h
      · cases h
      · rename_i d ask
        obtain ⟨find, short⟩ := cksumBuffer_ok.1 ask
        cases h; exact .cksumSize st size d find short
    · have size := Bool.eq_false_iff.2 size
      split at h
      · rename_i more
        split at h
        · rename_i v get; cases h; exact .cksumGot st size more v get
        · cases h
      · rename_i last; cases h; exact .cksumOver st size last
  case eRun => cases h; exact .encoded st
  case finish => cases h; exact .finished st

theorem waitVisit_wait {n : Nat} {next : Seq} {s t : State} (h : waitVisit n next s = .wait t) :
    t = { s with pollT := Config.pollInterval } := by
  unfold waitVisit at h
  split at h
  · cases h
  · split at h <;> cases h
    rfl

theorem writing_wait {b : Byte} {s u t : State} (h : writing b s u = .wait t) : t = s := by
  unfold writing at h
  split at h <;> cases h
  rfl

/-- A visit that waits leaves the sequencer where it is: only the two waits of the receiver, a write and a flush wait. -/
theorem visit_wait_st {s t : State} (h : visit s = .wait t) : t.st = s.st := by
  unfold visit at h
  cases st : s.st <;> simp only [st] at h
  case rWaitMin => rw [waitVisit_wait h]; exact st
  case rWaitFrame => rw [waitVisit_wait h]; exact st
  case sReq => rw [writing_wait h]; exact st
  case sLen => rw [writing_wait h]; exact st
  case sCksum => rw [writing_wait h]; exact st
  case sPayload =>
    unfold visitSPayload at h
    split at h
    · split at h
      · rw [writing_wait h]; exact st
      · cases h
    · cases h
  case sFlush => unfold visitSFlush at h; split at h <;> cases h; exact st
  case idle => cases h
  case rCheck => simp only [visitRCheck] at h; split at h <;> cases h
  case rReq => cases h
  case rLen => cases h
  case rValidate => unfold visitRValidate at h; split at h <;> cases h
  case rResize => unfold visitRResize at h; (repeat' split at h) <;> cases h
  case rPayload => unfold visitRPayload at h; (repeat' split at h) <;> cases h
  case rCksum => simp only [visitRCksum] at h; split at h <;> cases h
  case rCleanup => unfold visitRCleanup at h; split at h <;> cases h
  case sCheck => simp only [visitSCheck] at h; (repeat' split at h) <;> cases h
  case kRun => unfold visitKRun at h; (repeat' split at h) <;> cases h
  case eRun => cases h
  case finish => cases h

/-! ## The sequencer's table -/

/-- A visit that is made goes to a successor of its state. -/
theorem Visited.successor {s t : State} (h : Visited s t) : t.st ∈ s.st.successors := by
  cases h
  case payloadSet st more u set =>
    obtain ⟨d, -, -, rfl⟩ := bufSet_eq_some.1 set
    simp [Seq.successors, st]
  all_goals simp [Seq.successors, drainOne, *]

/-- The states of the sequencer in the order of their codes (10_state.md R13). -/
def Seq.all : List Seq :=
  [.idle, .rCheck, .rWaitMin, .rReq, .rLen, .rValidate, .rWaitFrame, .rResize, .rPayload, .rCksum, .rCleanup,
    .sCheck, .sReq, .sLen, .sPayload, .sCksum, .sFlush, .kRun, .eRun, .finish]

/-- A state's code is its place in the list. -/
theorem Seq.all_code (a : Seq) : Seq.all[a.code.toNat]? = some a := by cases a <;> rfl

theorem Seq.code_lt (a : Seq) : a.code.toNat < 20 :=
  (List.getElem?_eq_some_iff.1 a.all_code).1

theorem Seq.code_injective {a b : Seq} (h : a.code = b.code) : a = b := by
  have hb := b.all_code
  rw [← h, a.all_code] at hb
  exact Option.some.inj hb

/-- Settles O49: from what a visit can come to, and from the list of the states by code. -/
theorem sequencerFollowsTable : Obligations.SequencerFollowsTable := by
  unfold Obligations.SequencerFollowsTable
  exact ⟨fun s t h => (visited_of_visit h).successor, fun s t h => visit_wait_st h, fun a b h => Seq.code_injective h,
    Seq.code_lt⟩

/-! ## The ports -/

/-- The receive side of a visit: the oldest byte leaves a queue that is not empty exactly when `rx_pop` is driven. -/
def ReceiveSide (s t : State) : Prop :=
  t.chan.rxq = if rxPop s = true ∧ s.chan.queue ≠ [] then s.chan.rxq.tail else s.chan.rxq

/-- The transmit side of a visit: `tx_data` is what is appended, while `tx_ready`; a confirmed flush empties the queue. -/
def TransmitSide (s t : State) : Prop :=
  t.chan.wireOut = s.chan.wireOut ++ (txPush s).toList ∧ (txPush s ≠ none → s.chan.ready = true) ∧
    (txFlush s = true → canFlush s = true ∧ t.chan.txq = []) ∧
    (txFlush s = false → t.chan.txq = s.chan.txq ++ (txPush s).toList)

/-- The buffer side of a visit: the request is answered as its port says, and without `set` or `resize` no buffer
changes. -/
def BufferSide (s t : State) : Prop :=
  (∀ q, bufRequest s = some q → BufAnswered q s t) ∧
    ((∀ q, bufRequest s = some q → q.op ≠ .set ∧ q.op ≠ .resize) → t.bufs = s.bufs)

theorem ReceiveSide.kept {s t : State} (hp : rxPop s = false) (h : t.chan.rxq = s.chan.rxq) : ReceiveSide s t := by
  simp [ReceiveSide, hp, h]

theorem ReceiveSide.popped {s t : State} (hp : rxPop s = true) (h : t.chan.rxq = (chanRead s).2.chan.rxq) :
    ReceiveSide s t := by
  simp [ReceiveSide, hp, h, chanRead_rxq]

theorem TransmitSide.kept {s t : State} (hp : txPush s = none) (hf : txFlush s = false)
    (h : t.chan.txq = s.chan.txq ∧ t.chan.wireOut = s.chan.wireOut) : TransmitSide s t := by
  simp [TransmitSide, hp, hf, h]

theorem TransmitSide.written {s u : State} {b : Byte} (hp : txPush s = some b) (hf : txFlush s = false)
    (hr : s.chan.ready = true) (h : u.chan = s.chan) : TransmitSide s (chanWrite b u) := by
  simp [TransmitSide, hp, hf, hr, h]

theorem BufferSide.kept {s t : State} (hq : bufRequest s = none) (h : t.bufs = s.bufs) : BufferSide s t := by
  simp [BufferSide, hq, h]

theorem BufferSide.answered {s t : State} {q : BufRequest} (hq : bufRequest s = some q) (ha : BufAnswered q s t)
    (h : q.op = .set ∨ q.op = .resize ∨ t.bufs = s.bufs) : BufferSide s t := by
  refine ⟨fun q' hq' => ?_, fun hno => ?_⟩
  · cases hq.symm.trans hq'; exact ha
  · obtain ⟨hset, hresize⟩ := hno q hq
    rcases h with h | h | h
    · exact absurd h hset
    · exact absurd h hresize
    · exact h

theorem rxPop_drain {s : State} (st : s.st = .rCleanup) :
    rxPop s = true ↔ s.rx.res = 0x00#8 ∧ 0 < chanAvail s := by
  simp [rxPop, st]

theorem Visited.receiveSide {s t : State} (h : Visited s t) : ReceiveSide s t := by
  cases h
  case requestRead st => exact .popped (by simp [rxPop, st]) rfl
  case lengthRead st => exact .popped (by simp [rxPop, st]) rfl
  case checksumMatches st same => exact .popped (by simp [rxPop, st]) rfl
  case checksumDiffers st differs => exact .popped (by simp [rxPop, st]) rfl
  case payloadSet st more u set =>
    obtain ⟨d, -, -, rfl⟩ := bufSet_eq_some.1 set
    exact .popped (by simp [rxPop, st, more]) rfl
  case drained st failed left => exact .popped (by simp [rxPop, st, failed, left]) rfl
  case cleaned st done => exact .kept (Bool.eq_false_iff.2 fun hp => done ((rxPop_drain st).1 hp)) rfl
  case resizedTo st valid answer =>
    exact .kept (by simp [rxPop, st]) (congrArg Chan.rxq (bufResize_chan ..))
  case resizeFailed st valid answer =>
    exact .kept (by simp [rxPop, st]) (congrArg Chan.rxq (bufResize_chan ..))
  all_goals exact .kept (by simp [rxPop, *]) rfl

theorem Visited.transmitSide {s t : State} (h : Visited s t) : TransmitSide s t := by
  have read := chanRead_txSide s
  have resize (h : Handle) (n : Nat) : (bufResize h n s).2.chan.txq = s.chan.txq ∧
      (bufResize h n s).2.chan.wireOut = s.chan.wireOut := by
    rw [bufResize_chan]; exact ⟨rfl, rfl⟩
  cases h
  case requestRead st => exact .kept (by simp [txPush, st]) (by simp [txFlush, st]) read
  case lengthRead st => exact .kept (by simp [txPush, st]) (by simp [txFlush, st]) read
  case checksumMatches st same => exact .kept (by simp [txPush, st]) (by simp [txFlush, st]) read
  case checksumDiffers st differs => exact .kept (by simp [txPush, st]) (by simp [txFlush, st]) read
  case drained st failed left => exact .kept (by simp [txPush, st]) (by simp [txFlush, st]) read
  case payloadSet st more u set =>
    obtain ⟨d, -, -, rfl⟩ := bufSet_eq_some.1 set
    exact .kept (by simp [txPush, st]) (by simp [txFlush, st]) read
  case resizedTo st valid answer => exact .kept (by simp [txPush, st]) (by simp [txFlush, st]) (resize _ _)
  case resizeFailed st valid answer => exact .kept (by simp [txPush, st]) (by simp [txFlush, st]) (resize _ _)
  case requestWritten st ready => exact .written (by simp [txPush, st]) (by simp [txFlush, st]) ready rfl
  case lengthWritten st ready => exact .written (by simp [txPush, st]) (by simp [txFlush, st]) ready rfl
  case payloadWritten st more v get ready =>
    exact .written (by simp [txPush, st, more, get]) (by simp [txFlush, st]) ready rfl
  case checksumWritten st ready => exact .written (by simp [txPush, st]) (by simp [txFlush, st]) ready rfl
  case flushed st can => simp [TransmitSide, txPush, txFlush, st, can]
  all_goals exact .kept (by simp [txPush, *]) (by simp [txFlush, *]) ⟨rfl, rfl⟩

/-- A payload index on the port `buf_arg` is not cut. -/
theorem arg_of_idx (i : BitVec 6) : (i.zeroExtend 8).toNat = i.toNat := by
  simp; omega

/-- Nor is a payload size. -/
theorem arg_of_payloadSize (l : Byte) : (BitVec.ofNat 8 (payloadSize l)).toNat = payloadSize l := by
  unfold payloadSize
  rw [BitVec.toNat_ofNat]
  omega

/-- The answer of `resize` is taken as its port says (43_frame_receiver.md R93). -/
theorem resize_answered {s t : State} (l : Byte) (hb : t.bufs = (bufResize s.rx.h (payloadSize l) s).2.bufs)
    (hst : t.st = if (drawResize s).1 = true then .rPayload else .rCleanup) :
    BufAnswered ⟨.resize, s.rx.h, BitVec.ofNat 8 (payloadSize l), 0x00#8⟩ s t := by
  obtain ⟨hans, hsize, hothers⟩ := bufResize_spec s.rx.h (payloadSize l) s
  refine ⟨?_, fun ha => ?_, fun ha => ?_⟩
  · unfold OtherBuffersKept; rw [hb]; exact hothers
  · rw [hb, hst, if_pos ha, arg_of_payloadSize]
    exact ⟨rfl, hsize (hans.trans ha)⟩
  · rw [hst, ha]; rfl

/-- The byte on `rx_data` is set and folded (43_frame_receiver.md R94). -/
theorem set_answered {s u : State} (set : bufSet s.rx.h s.rx.idx.toNat (chanRead s).1 (chanRead s).2 = some u) :
    BufAnswered ⟨.set, s.rx.h, s.rx.idx.zeroExtend 8, (chanRead s).1⟩ s
      { u with rx := { u.rx with ck := foldByte u.rx.ck (chanRead s).1, idx := u.rx.idx + 1#6 } } := by
  obtain ⟨d, hd, hi, rfl⟩ := bufSet_eq_some.1 set
  rw [chanRead_bufs] at hd
  obtain ⟨hread, hothers, hsizes⟩ := put_set_bytes hd hi (chanRead s).1
  simp only [BufAnswered, arg_of_idx, chanRead_bufs, chanRead_rx, true_and]
  exact ⟨hread, rxData_of_chanRead, hothers, hsizes⟩

/-- The byte got at the index is folded, and written by the sender (41_checksum.md R78, 44_frame_sender.md R107). -/
theorem get_answered {s t : State} {v : Byte} (get : bufGet s.tx.h s.tx.idx.toNat s = some v)
    (hck : t.tx.ck = foldByte s.tx.ck v) (hpush : s.st = .sPayload → txPush s = some v) :
    BufAnswered ⟨.get, s.tx.h, s.tx.idx.zeroExtend 8, 0x00#8⟩ s t :=
  ⟨v, by rw [arg_of_idx]; exact get, hck, hpush⟩

/-- The answer of `is_valid` decides where `R_CHECK` goes (43_frame_receiver.md R86). -/
theorem isValid_answered {s t : State} (hh : t.rx.h = handleOf s.cmd)
    (hst : t.st = if bufValid (handleOf s.cmd) s = true then .rWaitMin else .finish) :
    BufAnswered ⟨.isValid, handleOf s.cmd, 0x00#8, 0x00#8⟩ s t := ⟨hh, hst⟩

/-- A size becomes `tx.n`. -/
theorem size_answered {s t : State} {d : List Byte} (hd : s.bufs.find (handleOf s.cmd) = some d)
    (hh : t.tx.h = handleOf s.cmd) (hn : t.tx.n = sizeCount d) :
    BufAnswered ⟨.size, handleOf s.cmd, 0x00#8, 0x00#8⟩ s t := ⟨hh, d, hd, hn⟩

theorem Visited.bufferSide {s t : State} (h : Visited s t) : BufferSide s t := by
  cases h
  case handleValid st valid =>
    exact .answered (by simp [bufRequest, st]) (isValid_answered rfl (if_pos valid).symm) (.inr (.inr rfl))
  case handleInvalid st valid =>
    exact .answered (by simp [bufRequest, st]) (isValid_answered rfl (by simp [valid])) (.inr (.inr rfl))
  case resizedTo st valid answer =>
    exact .answered (by simp [bufRequest, st]) (resize_answered _ rfl (by rw [if_pos answer])) (.inr (.inl rfl))
  case resizeFailed st valid answer =>
    exact .answered (by simp [bufRequest, st]) (resize_answered _ rfl (by simp [answer])) (.inr (.inl rfl))
  case payloadSet st more u set =>
    exact .answered (by simp [bufRequest, st, more]) (set_answered set) (.inl rfl)
  case sizeValid st d find valid =>
    exact .answered (by simp [bufRequest, st]) (size_answered find rfl rfl) (.inr (.inr rfl))
  case sizeBad st d find valid =>
    exact .answered (by simp [bufRequest, st]) (size_answered find rfl rfl) (.inr (.inr rfl))
  case payloadWritten st more v get ready =>
    have hpush : txPush s = some v := by simp [txPush, st, more, get]
    exact .answered (by simp [bufRequest, st, more]) (get_answered get rfl fun _ => hpush) (.inr (.inr rfl))
  case cksumSize st size d find short =>
    exact .answered (by simp [bufRequest, st, size]) (size_answered find rfl rfl) (.inr (.inr rfl))
  case cksumGot st size more v get =>
    have hst : s.st ≠ .sPayload := by simp [st]
    exact .answered (by simp [bufRequest, st, size, more]) (get_answered get rfl fun h => absurd h hst) (.inr (.inr rfl))
  all_goals exact .kept (by simp [bufRequest, *]) (by simp [drainOne])

/-- Settles O48: the receive, transmit and buffer side of each visit agree with the ports. -/
theorem portsMatchVisit : Obligations.PortsMatchVisit := by
  unfold Obligations.PortsMatchVisit
  refine ⟨fun s t h => ?_, fun s => ⟨rfl, rfl, rfl, rfl, rfl, rfl⟩, rfl, rfl⟩
  have hv := visited_of_visit h
  obtain ⟨hwire, hready, hflush, hkept⟩ := hv.transmitSide
  exact ⟨hv.receiveSide, hwire, hready, hflush, hkept, hv.bufferSide⟩

/-! ## The waits -/

theorem waitVisit_runs {s : State} (n : Nat) (next : Seq) (h : s.pollT ≠ 0#5) :
    waitVisit n next s = .go { s with pollT := s.pollT - 1#5 } := if_pos h

theorem waitVisit_ends {n : Nat} {s : State} (next : Seq) (hn : n ≤ 255) (h : s.pollT = 0#5)
    (hq : n ≤ s.chan.queue.length) : waitVisit n next s = .go { s with st := next } := by
  unfold waitVisit
  rw [if_neg (not_not_intro h), if_pos ((le_chanAvail hn s).2 hq)]

theorem waitVisit_reloads {n : Nat} {s : State} (next : Seq) (hn : n ≤ 255) (h : s.pollT = 0#5)
    (hq : s.chan.queue.length < n) : waitVisit n next s = .wait { s with pollT := 25#5 } := by
  unfold waitVisit
  rw [if_neg (not_not_intro h), if_neg (fun ha => Nat.not_le.2 hq ((le_chanAvail hn s).1 ha))]
  rfl

/-- Settles O13: both waits are `waitVisit`, for 4 bytes and for `rx.len`. -/
theorem pollTimerPacesWaits : Obligations.PollTimerPacesWaits := by
  unfold Obligations.PollTimerPacesWaits
  intro s
  refine ⟨fun hst => ?_, fun hst => ?_⟩
  · have hv : visit s = waitVisit 4 .rReq s := by unfold visit; rw [hst]; rfl
    rw [hv]
    exact ⟨waitVisit_runs _ _, waitVisit_ends _ (by decide), waitVisit_reloads _ (by decide)⟩
  · have hv : visit s = waitVisit s.rx.len.toNat .rResize s := by unfold visit; rw [hst]; rfl
    have hn : s.rx.len.toNat ≤ 255 := Nat.le_of_lt_succ s.rx.len.isLt
    rw [hv]
    exact ⟨waitVisit_runs _ _, waitVisit_ends _ hn, waitVisit_reloads _ hn⟩

/-! ## Commands -/

/-- Settles O50: each operation tests `busy` first. -/
theorem busyIgnoresCommand : Obligations.BusyIgnoresCommand := by
  unfold Obligations.BusyIgnoresCommand
  intro i s hb
  cases i with
  | encode isSlave action => exact if_pos hb
  | cksum h => exact if_pos hb
  | recv h => exact if_pos hb
  | send req h => exact if_pos hb

/-- A command word presented to the idle engine runs its operation (10_state.md R24). -/
theorem step_command {s : State} {w : CmdWord} {i : Instr} {rest : List HostCall} (hst : s.st = .idle)
    (hph : s.phase = .ready) (hhost : s.host = .command w :: rest) (hd : decode w = .op i) :
    step s = exec i { s with host := rest } := by
  rw [step_call hst hph hhost]
  simp only [hostCall, hostCommand, hd]

/-- The host that issues a word next has met its duties: the engine can take it, in a session (60_exceptions.md R146). -/
theorem hostIssues_ready (w : CmdWord) (s : State) :
    Ready (hostIssues w s) ∧ (hostIssues w s).bound = true ∧ (hostIssues w s).phase = .ready ∧
      (hostIssues w s).host = .command w :: s.host := by
  unfold hostIssues
  simp only
  split
  case h_1 => split <;> exact ⟨⟨rfl, rfl⟩, rfl, rfl, rfl⟩
  case h_2 => split <;> exact ⟨⟨rfl, rfl⟩, rfl, rfl, rfl⟩
  all_goals exact ⟨⟨rfl, rfl⟩, rfl, rfl, rfl⟩

/-- Settles O51: `withFetchWord` is a state in which the host's next call is the word. -/
theorem stepRunsDecoded : Obligations.StepRunsDecoded := by
  unfold Obligations.StepRunsDecoded
  refine ⟨fun s w i rest hst hph hhost hd => step_command hst hph hhost hd, fun s hst => step_engine hst,
    fun s nbits w i hd => ?_⟩
  obtain ⟨hready, hbound, hph, hhost⟩ := hostIssues_ready (BitVec.ofNat 20 w) s
  exact ⟨step_command hready.1 hph hhost hd, hready, hbound⟩

/-- Settles O53: each register of `State.reset` and each constant is as R22 and R15 say. -/
theorem resetValues : Obligations.ResetValues := by
  unfold Obligations.ResetValues
  have hregs : RegistersReset State.reset := ⟨rfl, rfl, rfl, rfl, rfl, rfl, rfl, rfl, rfl⟩
  exact ⟨hregs, ⟨rfl, rfl⟩, rfl, rfl, rfl, rfl, rfl, rfl, rfl⟩

end Sys2Proof.Machine
end

section
/-! SUPPORT. The proofs of the family 20_memory: what the world outside does to the receive stream, that an operation in
progress is never refused, and that every read and every index of the engine is covered. -/

namespace Sys2Proof.Machine

/-! ## The moves of the world outside -/

/-- More bytes in the queue are never counted as fewer (20_memory.md R44). -/
theorem chanAvail_mono {s t : State} (h : s.chan.queue.length ≤ t.chan.queue.length) : chanAvail s ≤ chanAvail t :=
  min_le_min_right _ h

/-- Settles O47: a slot without a reset changes the channel and the slots to come only, and on the channel it is the fold
of its moves. -/
theorem environmentOnlyAppends : Obligations.EnvironmentOnlyAppends := by
  unfold Obligations.EnvironmentOnlyAppends
  intro s h
  have hstream (hc : Calm s.env) : stream (envStep s) = stream s := by
    rw [envStep_calm hc]; exact slotChan_stream s
  rw [envStep_noReset h] at hstream ⊢
  have havail := chanAvail_mono (t := { s with env := laterSlots s.env, chan := slotChan s }) (slotChan_queue_length s)
  have hwritten : NothingWritten s { s with env := laterSlots s.env, chan := slotChan s } :=
    ⟨slotChan_wireOut s, slotChan_txq s⟩
  exact ⟨slotChan_rxq_prefix s, havail, hstream, slotChan_capacity s, hwritten,
    ⟨rfl, rfl, rfl, rfl, rfl, rfl, rfl, rfl, rfl, rfl, rfl, rfl⟩, ⟨rfl, rfl, rfl, rfl⟩, ⟨rfl, rfl, rfl, fun _ _ => rfl⟩⟩

/-! ## The engine is never refused -/

/-- Settles O57: with an operation in progress the step is the engine's run, which the invariant carries from visit to
visit. -/
theorem activeNeverRefused : Obligations.ActiveNeverRefused := by
  unfold Obligations.ActiveNeverRefused
  intro s h hst
  obtain ⟨t, ht, -⟩ := runEngineFor_inv (visitBudget s) h
  exact ⟨t, (step_engine hst).trans ht⟩

/-! ## The engine's reads of the channel -/

/-- Where the engine drives `rx_pop`, a byte is there (20_memory.md R35). -/
theorem Inv.queue_of_rxPop {s : State} (h : Inv s) (hp : rxPop s = true) : 1 ≤ s.chan.queue.length := by
  cases hst : s.st
  case rReq =>
    obtain ⟨-, -, ⟨-, -, -, -, hq⟩⟩ := h.at hst
    exact le_trans (by decide) hq
  case rLen =>
    obtain ⟨-, -, ⟨-, -, -, -, hq⟩⟩ := h.at hst
    exact le_trans (by decide) hq
  case rPayload =>
    obtain ⟨-, -, ⟨hvalid, -, -, hq, -⟩⟩ := h.at hst
    have hmore : s.rx.idx.toNat < payloadSize s.rx.len := by simpa [rxPop, hst] using hp
    have hcover : s.rx.len.toNat ≤ s.chan.queue.length + s.rx.idx.toNat := hq
    have hlen : s.rx.len.toNat = payloadSize s.rx.len + 1 := (payloadSize_le hvalid).2
    omega
  case rCksum =>
    obtain ⟨-, -, ⟨-, -, hq, -⟩⟩ := h.at hst
    exact hq
  case rCleanup =>
    obtain ⟨-, hleft⟩ := (rxPop_drain hst).1 hp
    exact (le_chanAvail (by decide) s).1 hleft
  all_goals simp [rxPop, hst] at hp

/-- A byte in the queue shows on `rx_avail` and on `rx_data` (10_state.md R23). -/
theorem rxPorts_of_queue {s : State} (h : 1 ≤ s.chan.queue.length) :
    0 < (rxAvail s).toNat ∧ ∃ b, rxData s = some b := by
  obtain ⟨b, -, -, hhead, -⟩ := chanRead_covered h
  have hpos : 1 ≤ chanAvail s := (le_chanAvail (by decide) s).2 h
  have hmax : chanAvail s ≤ 255 := min_le_right _ _
  refine ⟨?_, b, hhead⟩
  rw [rxAvail, BitVec.toNat_ofNat]
  omega

/-! ## The engine's accesses to a buffer -/

/-- The engine requests a byte of a buffer in three states only: the receiver's `set` at `rx.idx` below the payload's
size, and the `get` of `SEND` and `CKSUM` at `tx.idx` below `tx.n` (20_memory.md R37). -/
theorem bufRequest_byte {s : State} {q : BufRequest} (hq : bufRequest s = some q) (hop : q.op = .get ∨ q.op = .set) :
    (s.st = .rPayload ∧ s.rx.idx.toNat < payloadSize s.rx.len ∧ q.h = s.rx.h ∧ q.arg.toNat = s.rx.idx.toNat) ∨
      ((s.st = .sPayload ∨ (s.st = .kRun ∧ s.kSize = false)) ∧ s.tx.idx.toNat < s.tx.n.toNat ∧ q.h = s.tx.h ∧
        q.arg.toNat = s.tx.idx.toNat) := by
  unfold bufRequest at hq
  cases hst : s.st <;> simp only [hst] at hq
  case rPayload =>
    split at hq <;> rename_i more <;> cases hq
    exact .inl ⟨rfl, more, rfl, arg_of_idx _⟩
  case sPayload =>
    split at hq <;> rename_i more <;> cases hq
    exact .inr ⟨.inl rfl, more, rfl, arg_of_idx _⟩
  case kRun =>
    split at hq
    · cases hq; simp at hop
    · rename_i size
      split at hq <;> rename_i more <;> cases hq
      exact .inr ⟨.inr ⟨rfl, Bool.eq_false_iff.2 size⟩, more, rfl, arg_of_idx _⟩
  case rCheck => cases hq; simp at hop
  case rResize => cases hq; simp at hop
  case sCheck => cases hq; simp at hop
  all_goals cases hq

/-- While the payload is read the receiver's buffer has the payload's size (10_state.md R21). -/
theorem Inv.rx_buffer {s : State} (h : Inv s) (hst : s.st = .rPayload) :
    ∃ d, s.bufs.find s.rx.h = some d ∧ d.length = payloadSize s.rx.len ∧ payloadSize s.rx.len ≤ 50 := by
  obtain ⟨-, -, ⟨hvalid, -, -, -, d, hfind, hlen, -⟩⟩ := h.at hst
  exact ⟨d, hfind, hlen, (payloadSize_le hvalid).1⟩

/-- While `SEND` or `CKSUM` reads its buffer, `tx.n` is the buffer's size (20_memory.md R37). -/
theorem Inv.tx_buffer {s : State} (h : Inv s) (hst : s.st = .sPayload ∨ (s.st = .kRun ∧ s.kSize = false)) :
    ∃ d, s.bufs.find s.tx.h = some d ∧ d.length = s.tx.n.toNat ∧ s.tx.n.toNat ≤ 50 := by
  obtain hst | ⟨hst, hsize⟩ := hst
  · obtain ⟨-, -, ⟨hvalid, -, -, -, d, hfind, hlen, -⟩⟩ := h.at hst
    exact ⟨d, hfind, hlen, ((validSize_iff _).1 hvalid).2⟩
  · obtain ⟨-, -, ⟨-, hread⟩⟩ := h.at hst
    obtain ⟨hmax, -, d, hfind, hlen, -⟩ := hread hsize
    exact ⟨d, hfind, hlen, hmax⟩

/-- Every `get` and `set` the engine requests is of a byte the buffer has (20_memory.md R37). -/
theorem Inv.bufRequest_covered {s : State} {q : BufRequest} (h : Inv s) (hq : bufRequest s = some q)
    (hop : q.op = .get ∨ q.op = .set) :
    ∃ d, s.bufs.find q.h = some d ∧ q.arg.toNat < d.length ∧ q.arg.toNat ≤ 49 := by
  obtain ⟨hst, hmore, hh, harg⟩ | ⟨hst, hmore, hh, harg⟩ := bufRequest_byte hq hop
  · obtain ⟨d, hfind, hlen, hmax⟩ := h.rx_buffer hst
    exact ⟨d, hh ▸ hfind, by omega, by omega⟩
  · obtain ⟨d, hfind, hlen, hmax⟩ := h.tx_buffer hst
    exact ⟨d, hh ▸ hfind, by omega, by omega⟩

/-- Settles O58: the invariant says in each state of the sequencer what the channel and the buffer hold. -/
theorem accessesCovered : Obligations.AccessesCovered := by
  unfold Obligations.AccessesCovered
  intro s h
  exact ⟨fun hp => rxPorts_of_queue (h.queue_of_rxPop hp), fun q hq hop => h.bufRequest_covered hq hop⟩

end Sys2Proof.Machine
end

section
/-! SUPPORT. The proofs of the family 30_encoding: what the decoder answers for each opcode, the bits of a word an operation
uses and the bits it ignores, the operands, a reserved command word, and the bytes that are a frame. -/

namespace Sys2Proof

/-! ## What the decoder answers, one equation for each opcode (30_encoding.md R56, R57) -/

theorem decode_opcode_encode {w : CmdWord} (h : opField w = 0#4) :
    decode w = .op (.encode ((aField w).getLsbD 0) (bField w)) := by unfold decode; rw [h]; rfl

theorem decode_opcode_cksum {w : CmdWord} (h : opField w = 1#4) : decode w = .op (.cksum (bField w)) := by
  unfold decode; rw [h]; rfl

theorem decode_opcode_recv {w : CmdWord} (h : opField w = 2#4) : decode w = .op (.recv (bField w)) := by
  unfold decode; rw [h]; rfl

theorem decode_opcode_send {w : CmdWord} (h : opField w = 3#4) :
    decode w = .op (.send (aField w) (bField w)) := by unfold decode; rw [h]; rfl

/-- Everything the decoder can answer: an operation whose opcode the word holds, or the reserved opcode it holds. -/
theorem decode_cases (w : CmdWord) :
    (∃ i, decode w = .op i ∧ opField w = opcode i) ∨
      (decode w = .reservedOpcode (opField w) ∧ 4 ≤ (opField w).toNat) := by
  have hop (o : BitVec 4) (h : (opField w).toNat = o.toNat) : opField w = o := BitVec.eq_of_toNat_eq h
  unfold decode
  split
  next h => exact .inl ⟨_, rfl, hop 0#4 h⟩
  next h => exact .inl ⟨_, rfl, hop 1#4 h⟩
  next h => exact .inl ⟨_, rfl, hop 2#4 h⟩
  next h => exact .inl ⟨_, rfl, hop 3#4 h⟩
  next h0 h1 h2 h3 =>
    simp only [imp_false] at h0 h1 h2 h3
    exact .inr ⟨rfl, by omega⟩

theorem opcode_lt (i : Instr) : (opcode i).toNat < 4 := by cases i <;> simp [opcode]

/-- A word that decodes to an operation holds its opcode. -/
theorem opField_of_decode {w : CmdWord} {i : Instr} (h : decode w = .op i) : opField w = opcode i := by
  obtain ⟨j, hj, ho⟩ | ⟨hr, -⟩ := decode_cases w
  · obtain rfl := Decoded.op.inj (hj.symm.trans h)
    exact ho
  · cases hr.symm.trans h

/-- The reserved opcodes are 4 to 15 (30_encoding.md R57). -/
theorem decode_reserved_iff (w : CmdWord) : decode w = .reservedOpcode (opField w) ↔ 4 ≤ (opField w).toNat := by
  obtain ⟨i, hi, ho⟩ | ⟨hr, h4⟩ := decode_cases w
  · have hlt := opcode_lt i
    rw [hi, ho]
    exact ⟨fun h => (nomatch h), fun h => absurd h (by omega)⟩
  · exact iff_of_true hr h4

/-- A word decodes to an operation exactly when its fields, as far as the operation uses them, are the operation's. -/
theorem decode_op_iff (w : CmdWord) (i : Instr) :
    decode w = .op i ↔ opField w = opcode i ∧ aField w &&& usedA i = operandA i ∧ bField w = operandB i := by
  by_cases ho : opField w = opcode i
  · cases i with
    | encode sl act =>
      have hrole : aField w &&& 1#8 = (0#7 ++ BitVec.ofBool sl : BitVec 8) ↔ (aField w).getLsbD 0 = sl := by
        rw [and_one]
        exact ⟨fun h => by simpa only [roleBit_operandA] using congrArg (·.getLsbD 0) h, fun h => by rw [h]⟩
      simp [decode_opcode_encode ho, ho, usedA, operandA, operandB, hrole]
    | cksum h => simp [decode_opcode_cksum ho, ho, usedA, operandA, operandB]
    | recv h => simp [decode_opcode_recv ho, ho, usedA, operandA, operandB]
    | send req h =>
      have hall : aField w &&& 0xFF#8 = aField w := BitVec.and_allOnes
      simp [decode_opcode_send ho, ho, usedA, operandA, operandB, hall]
  · exact iff_of_false (fun h => ho (opField_of_decode h)) (fun h => ho h.1)

/-! ## Masks of a command word -/

theorem cmdWord_eq_iff {o o' : BitVec 4} {a a' b b' : Byte} :
    cmdWord o a b = cmdWord o' a' b' ↔ o = o' ∧ a = a' ∧ b = b' :=
  ⟨cmdWord_inj, fun ⟨ho, ha, hb⟩ => by rw [ho, ha, hb]⟩

/-- The bits that an operation uses decide whether a word decodes to it (30_encoding.md R56). -/
theorem decode_op_iff_usedBits (w : CmdWord) (i : Instr) : decode w = .op i ↔ w &&& usedBits i = encode i := by
  rw [decode_op_iff, usedBits_word, encode, cmdWord_eq_iff]

/-- The encoder writes nothing outside the bits the operation uses. -/
theorem encode_and_usedBits (i : Instr) : encode i &&& usedBits i = encode i := by
  cases i with
  | encode sl act => exact (Laws.Opcode.encode sl act).1
  | cksum h => exact (Laws.Opcode.cksum h).1
  | recv h => exact (Laws.Opcode.recv h).1
  | send req h => exact (Laws.Opcode.send req h).1

/-- The encoder writes ignored bits as 0 (30_encoding.md R56). -/
theorem encode_and_ignoredBits (i : Instr) {m : CmdWord} (h : usedBits i &&& m = 0#20) : encode i &&& m = 0#20 := by
  rw [← encode_and_usedBits i, BitVec.and_assoc, h, BitVec.and_zero]

theorem decode_encode (i : Instr) : decode (encode i) = .op i :=
  (decode_op_iff_usedBits _ i).2 (encode_and_usedBits i)

/-- The mask 0xF0000 leaves the opcode field alone, so a match against it is a match of the opcode (30_encoding.md R56). -/
theorem opcodeMask_iff (w : CmdWord) (o : BitVec 4) : w &&& 0xF0000#20 = cmdWord o 0#8 0#8 ↔ opField w = o := by
  have hmask : w &&& 0xF0000#20 = cmdWord (opField w) 0#8 0#8 := by
    calc w &&& 0xF0000#20
      _ = cmdWord (opField w) (aField w) (bField w) &&& cmdWord 0xF#4 0#8 0#8 := by
        rw [cmdWord_fields, show cmdWord 0xF#4 0#8 0#8 = 0xF0000#20 by decide]
      _ = cmdWord (opField w &&& 0xF#4) (aField w &&& 0#8) (bField w &&& 0#8) := by
        unfold cmdWord; rw [BitVec.and_append, BitVec.and_append]
      _ = cmdWord (opField w) 0#8 0#8 := by
        rw [show opField w &&& 0xF#4 = opField w from BitVec.and_allOnes, BitVec.and_zero, BitVec.and_zero]
  simp [hmask, cmdWord_eq_iff]

/-- Settles O1: a word decodes to an operation exactly when the bits it uses are the encoder's, and the encoder's own word
is such a word. -/
theorem decodeInvertsEncode : Obligations.DecodeInvertsEncode := by
  unfold Obligations.DecodeInvertsEncode
  exact ⟨fun i _ => decode_encode i, decode_op_iff_usedBits, fun w => (decode_reserved_iff w).symm⟩

end Sys2Proof

namespace Sys2Proof.Machine

/-! ## The opcode map (30_encoding.md R56) -/

/-- A host that presents a word runs the operation the word decodes to. -/
theorem hostCommand_of_op {w : CmdWord} {i : Instr} (h : decode w = .op i) (s : State) : hostCommand w s = exec i s := by
  unfold hostCommand; rw [h]

/-- A reserved word is accepted with its pulse. -/
theorem hostCommand_of_reserved {w : CmdWord} (h : 4 ≤ (opField w).toNat) (s : State) :
    hostCommand w s = .next (acceptIllegal w s) := by
  unfold hostCommand; rw [(decode_reserved_iff w).2 h]

/-- The operation of a word given by its fields. -/
theorem decode_cmdWord (a b : Byte) :
    decode (cmdWord 0#4 a b) = .op (.encode (a.getLsbD 0) b) ∧ decode (cmdWord 1#4 a b) = .op (.cksum b) ∧
      decode (cmdWord 2#4 a b) = .op (.recv b) ∧ decode (cmdWord 3#4 a b) = .op (.send a b) := by
  refine ⟨?_, ?_, ?_, ?_⟩
  · simpa only [aField_cmdWord, bField_cmdWord] using decode_opcode_encode (opField_cmdWord 0#4 a b)
  · simpa only [bField_cmdWord] using decode_opcode_cksum (opField_cmdWord 1#4 a b)
  · simpa only [bField_cmdWord] using decode_opcode_recv (opField_cmdWord 2#4 a b)
  · simpa only [aField_cmdWord, bField_cmdWord] using decode_opcode_send (opField_cmdWord 3#4 a b)

theorem decode_cmdWord_reserved {op : BitVec 4} (a b : Byte) (h : 4 ≤ op.toNat) :
    decode (cmdWord op a b) = .reservedOpcode op := by
  have := (decode_reserved_iff (cmdWord op a b)).2
  rw [opField_cmdWord] at this
  exact this h

/-- Settles O2: the decoder's equations, the opcode mask, and the encoder's ignored bits. -/
theorem opcodeMap : Obligations.OpcodeMap := by
  unfold Obligations.OpcodeMap
  refine ⟨fun a b s => ?_, fun w => ⟨?_, ?_, ?_, ?_⟩, fun sl act h => ?_⟩
  · obtain ⟨hencode, hcksum, hrecv, hsend⟩ := decode_cmdWord a b
    exact ⟨hencode, hcksum, hrecv, hsend, hostCommand_of_op hencode s, hostCommand_of_op hcksum s,
      hostCommand_of_op hrecv s, hostCommand_of_op hsend s, fun _ h => decode_cmdWord_reserved a b h⟩
  · rw [show 0x00000#20 = cmdWord 0#4 0#8 0#8 by decide, opcodeMask_iff]
    exact ⟨fun h => ⟨_, _, decode_opcode_encode h⟩, fun ⟨_, _, h⟩ => opField_of_decode h⟩
  · rw [show 0x10000#20 = cmdWord 1#4 0#8 0#8 by decide, opcodeMask_iff]
    exact ⟨fun h => ⟨_, decode_opcode_cksum h⟩, fun ⟨_, h⟩ => opField_of_decode h⟩
  · rw [show 0x20000#20 = cmdWord 2#4 0#8 0#8 by decide, opcodeMask_iff]
    exact ⟨fun h => ⟨_, decode_opcode_recv h⟩, fun ⟨_, h⟩ => opField_of_decode h⟩
  · rw [show 0x30000#20 = cmdWord 3#4 0#8 0#8 by decide, opcodeMask_iff]
    exact ⟨fun h => ⟨_, _, decode_opcode_send h⟩, fun ⟨_, _, h⟩ => opField_of_decode h⟩
  · exact ⟨encode_and_ignoredBits (.encode sl act) (show 0xF01FF#20 &&& 0x0FE00#20 = 0#20 by decide),
      encode_and_ignoredBits (.cksum h) (show 0xF00FF#20 &&& 0x0FF00#20 = 0#20 by decide),
      encode_and_ignoredBits (.recv h) (show 0xF00FF#20 &&& 0x0FF00#20 = 0#20 by decide)⟩

/-! ## The operands (30_encoding.md R60) -/

/-- Bit 8 of the word is bit 0 of its field `a`. -/
theorem isSlaveOf_eq_getLsbD (w : CmdWord) : isSlaveOf w = w.getLsbD 8 := by simp [isSlaveOf, aField]

/-- The encoder masks the action itself (42_header_encoding.md R81). -/
theorem encodeRequest_mask (sl : Bool) (act : Byte) : encodeRequest sl act = encodeRequest sl (act &&& 0x0F#8) := by
  have hmask : act &&& 0x0F#8 &&& Config.actionMask = act &&& Config.actionMask := by
    rw [BitVec.and_assoc]; rfl
  unfold encodeRequest
  rw [hmask]

/-- Settles O4: the fields are the word's bits, and neither length computation leaves its range. -/
theorem operandAssembly : Obligations.OperandAssembly := by
  unfold Obligations.OperandAssembly
  refine ⟨fun w => ⟨isSlaveOf_eq_getLsbD w, rfl, rfl, rfl⟩, encodeRequest_mask, fun n h1 h50 => ?_, fun len h1 h51 => ?_⟩
  · have hn := sendLength_toNat h50
    exact ⟨hn, by omega, by omega⟩
  · obtain ⟨hmax, hlen⟩ := payloadSize_le ((validLength_iff len).2 ⟨h1, h51⟩)
    exact ⟨hlen.symm, hmax⟩

/-! ## A reserved command word (30_encoding.md R57) -/

/-- The engine's run from FINISH is the one visit that writes the outputs (10_state.md R24). -/
theorem runEngine_finish {s : State} (hst : s.st = .finish) (hc : Calm s.env) :
    runEngine s = .next (finished (resultOf s) s.failCause (moved s)) := by
  obtain ⟨k, hk, -⟩ := visitBudget_visits s
  rw [runEngine_eq, hk, finish_go hst hc]
  rfl

/-- A latched word with a reserved opcode reports 0x00 (30_encoding.md R63). -/
theorem resultOf_reserved {s : State} (h : 4 ≤ (opField s.cmd).toNat) : resultOf s = 0x00#8 := by
  unfold resultOf
  split
  case h_5 => rfl
  all_goals omega

/-- The moves of a calm slot leave alone all that `ENCODE` and `CKSUM` do. -/
theorem pureKeeps_moved (s : State) : PureKeeps s (moved s) := by
  have hd := Drift.moved s
  exact ⟨⟨rfl, rfl, ⟨rfl, rfl, rfl, rfl⟩, ⟨hd.str, hd.env, hd.cap⟩, rfl, rfl, rfl, fun _ _ => rfl⟩, ⟨hd.wire, hd.txq⟩,
    slotChan_of_env_nil⟩

/-- Settles O5: the acceptance of the word, then FINISH. -/
theorem reservedWordIsIllegal : Obligations.ReservedWordIsIllegal := by
  unfold Obligations.ReservedWordIsIllegal
  intro s w rest hready hph hc hhost hop
  obtain ⟨hst, -⟩ := hready
  let s' : State := { s with host := rest }
  have haccept : step s = .next (acceptIllegal w s') :=
    (step_call hst hph hhost).trans (hostCommand_of_reserved hop s')
  have hfinish : step (acceptIllegal w s') = .next (finished 0x00#8 .illegalCmd (moved (acceptIllegal w s'))) := by
    have hres : resultOf (acceptIllegal w s') = 0x00#8 := resultOf_reserved hop
    rw [step_engine (by simp), runEngine_finish (acceptIllegal_st w s') hc, hres, acceptIllegal_failCause]
  exact ⟨_, _, haccept, hfinish, rfl, rfl, rfl, rfl, rfl, ⟨rfl, rfl, rfl, fun _ _ => rfl⟩, finished_completed _ _ _, rfl,
    pureKeeps_moved s'⟩

/-! ## The bytes that are a frame (30_encoding.md R51 to R54) -/

theorem frame_wf_iff (f : Frame) : f.wf = true ↔ f.payload.length ≤ 50 := decide_eq_true_iff

theorem frameLength_eq {f : Frame} (h : f.wf = true) : (frameLength f).toNat = f.payload.length + 1 := by
  have h50 := (frame_wf_iff f).1 h
  exact frameLength_toNat (by omega)

/-- A byte sequence is a frame exactly when it is a header with a good length byte, a payload of that length less 1, and
their checksum. -/
theorem isFrame_iff (bs : List Byte) :
    isFrame bs = true ↔ ∃ r l p, bs = r :: l :: p ++ [xor8 (r :: l :: p)] ∧ validLength l = true ∧ l.toNat = p.length + 1 := by
  constructor
  · intro h
    unfold isFrame at h
    split at h
    next r l rest =>
      simp only [Bool.and_eq_true, decide_eq_true_iff] at h
      obtain ⟨⟨hvalid, hlen⟩, hlast⟩ := h
      obtain rfl | ⟨p, c, rfl⟩ := rest.eq_nil_or_concat'
      · have hpos := ((validLength_iff l).1 hvalid).1
        simp at hlen
        omega
      · rw [← List.cons_append, ← List.cons_append, List.getLast?_concat, List.dropLast_concat] at hlast
        obtain rfl := Option.some.inj hlast
        exact ⟨r, l, p, rfl, hvalid, by simpa using hlen.symm⟩
    next => cases h
  · rintro ⟨r, l, p, rfl, hvalid, hlen⟩
    have hlast : (r :: l :: p ++ [xor8 (r :: l :: p)]).getLast? =
        some (xor8 (r :: l :: p ++ [xor8 (r :: l :: p)]).dropLast) := by
      rw [List.getLast?_concat, List.dropLast_concat]
    show (validLength l && decide ((p ++ [xor8 (r :: l :: p)]).length = l.toNat) && decide _) = true
    simp only [Bool.and_eq_true, decide_eq_true_iff]
    exact ⟨⟨hvalid, by simp [hlen]⟩, hlast⟩

/-- The correct frames are the bytes of the frames a receiver can take. -/
theorem isFrame_iff_frameBytes (bs : List Byte) : isFrame bs = true ↔ ∃ f : Frame, f.wf = true ∧ bs = frameBytes f := by
  rw [isFrame_iff]
  constructor
  · rintro ⟨r, l, p, rfl, hvalid, hlen⟩
    have hmax := ((validLength_iff l).1 hvalid).2
    have h50 : p.length ≤ 50 := by omega
    exact ⟨⟨r, p⟩, (frame_wf_iff _).2 h50, (frameBytes_of_length h50 hlen).symm⟩
  · rintro ⟨f, hf, rfl⟩
    have h50 := (frame_wf_iff f).1 hf
    have hlen := frameLength_eq hf
    exact ⟨f.request, frameLength f, f.payload, rfl, (validLength_iff _).2 (by omega), hlen⟩

/-- A frame's checksum byte makes the XOR of the whole 0 (30_encoding.md R53). -/
theorem xor8_frameBytes (f : Frame) : xor8 (frameBytes f) = 0x00#8 := by
  unfold frameBytes
  rw [xor8_snoc]
  exact BitVec.xor_self

/-- The bytes give back the request, and the payload as what stands between the header and the checksum. -/
theorem frameBytes_injective {f g : Frame} (h : frameBytes f = frameBytes g) : f = g := by
  obtain ⟨hheader, -⟩ := List.append_inj' h rfl
  obtain ⟨hrequest, hrest⟩ := List.cons.inj hheader
  obtain ⟨-, hpayload⟩ := List.cons.inj hrest
  cases f; cases g
  exact congrArg₂ Frame.mk hrequest hpayload

/-- Settles O11: the frame test, the bounds of a frame's length, its XOR, and that its bytes give it back. -/
theorem framesAreFrameBytes : Obligations.FramesAreFrameBytes := by
  unfold Obligations.FramesAreFrameBytes
  refine ⟨isFrame_iff_frameBytes, fun f hf => ?_, fun f g => frameBytes_injective⟩
  have h50 := (frame_wf_iff f).1 hf
  have hlen := frameLength_eq hf
  have htotal := frameBytes_length f
  exact ⟨hlen, by omega, by omega, by omega, by omega, by omega, xor8_frameBytes f⟩

end Sys2Proof.Machine
end

section
/-! SUPPORT. The proofs of the family 40_session_control: what is refused by the session bit, what `OPEN` and `CLOSE` come to
in calm slots, and the drain under a peer that keeps feeding it. -/

namespace Sys2Proof.Machine

/-! ## What is refused (40_session_control.md R73) -/

theorem exec_recv_noSession {s : State} (hbusy : s.busy = false) (hb : s.bound = false) (h : Handle) :
    exec (.recv h) s = .refused .noSession := by
  rw [exec_recv, execRecv, hbusy, hb]; rfl

theorem exec_send_noSession {s : State} (hbusy : s.busy = false) (hb : s.bound = false) (req : Byte) (h : Handle) :
    exec (.send req h) s = .refused .noSession := by
  rw [exec_send, execSend, hbusy, hb]; rfl

theorem exec_send_invalidHandle {s : State} {h : Handle} (hbusy : s.busy = false) (hb : s.bound = true)
    (hv : bufValid h s = false) (req : Byte) : exec (.send req h) s = .refused .invalidHandle := by
  rw [exec_send, execSend, hbusy, hb, hv]; rfl

/-- Settles O39: each of them tests the session bit first, and `SEND` the handle next. -/
theorem refusedOutsideSession : Obligations.RefusedOutsideSession := by
  unfold Obligations.RefusedOutsideSession
  rintro s ⟨-, hbusy⟩
  refine ⟨fun hb => ?_, fun hb => ⟨if_pos hb, fun req h hv => exec_send_invalidHandle hbusy hb hv req⟩⟩
  have hno : ¬ s.bound = true := by simp [hb]
  exact ⟨exec_recv_noSession hbusy hb, exec_send_noSession hbusy hb, if_neg hno, fun _ _ => if_neg hno,
    fun _ _ _ => if_neg hno, fun _ _ _ => if_neg hno⟩

/-! ## `OPEN` and `CLOSE` in calm slots (40_session_control.md R70, R71) -/

/-- `OPEN` and `CLOSE` work on the host's side and the channel: the engine and the buffers are left alone. -/
theorem hostSide_kept (s : State) (b : Bool) (calls : List HostCall) (p : HostPhase) (r : HostRet)
    (e : List (List EnvMove)) (c : Chan) :
    EngineKept s { s with bound := b, host := calls, phase := p, ret := r, env := e, chan := c } ∧
      BuffersKept s { s with bound := b, host := calls, phase := p, ret := r, env := e, chan := c } :=
  ⟨⟨rfl, rfl, rfl, rfl, rfl, rfl, rfl, rfl, rfl, rfl, rfl, rfl⟩, rfl, rfl, rfl, fun _ _ => rfl⟩

/-- Settles O37: the step is `OPEN`'s call, whose drain ends in calm slots. -/
theorem openDrains : Obligations.OpenDrains := by
  unfold Obligations.OpenDrains
  rintro s rest ⟨hst, -⟩ hph hb hc hq hhost
  obtain ⟨e, c, hrun, hd, hnil, hquiet⟩ := hostOpen_drains (s := { s with host := rest }) hb hc hq
  have hdrained : Drained s { s with
      host := rest, bound := true, phase := .ready, ret := .unit, env := e, chan := c } :=
    ⟨e, hd.env, List.suffix_rfl, Nat.le_succ _, hd.str⟩
  exact ⟨_, (step_call hst hph hhost).trans hrun, rfl, rfl, rfl, rfl, hdrained, hnil, ⟨hd.wire, hd.txq⟩, hquiet,
    hostSide_kept s true rest .ready .unit e c⟩

theorem canFlush_of_lineUp {s : State} (h : s.chan.lineUp = true) : canFlush s = true := by
  unfold canFlush; rw [h]; rfl

/-- The drain of `CLOSE` leaves the flush to what it was: it touches neither the line nor what is queued on it. -/
theorem canFlush_emptied {s t : State} (h : t.chan = { s.chan with rxq := [] }) : canFlush t = canFlush s := by
  unfold canFlush; rw [h]

/-- A channel that takes bytes, or a quiet one that can flush, confirms the flush that follows the drain. -/
theorem canFlush_after_drain {s f : State} (hcan : Taking s ∨ s.env = [] ∧ canFlush s = true)
    (htaking : Taking s → Taking f) (henv : f.env <:+ s.env)
    (hquiet : s.env = [] → f.chan = { s.chan with rxq := [] }) : canFlush (moved f) = true := by
  rcases hcan with htk | ⟨he, hf⟩
  · exact canFlush_of_lineUp (htaking htk).moved.line
  · have hfenv : f.env = [] := List.suffix_nil.1 (he ▸ henv)
    have hmoved : (moved f).chan = f.chan := slotChan_of_env_nil hfenv
    rw [canFlush_emptied (hmoved.trans (hquiet he)), hf]

/-- Settles O38: the step is `CLOSE`'s call, which comes to its flush; there the channel confirms, or the step rests. -/
theorem closeDrainsAndFlushes : Obligations.CloseDrainsAndFlushes := by
  unfold Obligations.CloseDrainsAndFlushes
  rintro s rest ⟨hst, -⟩ hph hb hc hq hhost
  obtain ⟨e, c, k, hrun, hd, -, hnil, hquiet, htk⟩ := hostClose_flushing (s := { s with host := rest }) hb hc hq
  let f : State := { s with host := rest, phase := .flushing, env := e, chan := c }
  have hstep : step s = runVisits phaseActive phaseVisit (k + 1) f := (step_call hst hph hhost).trans hrun
  constructor
  · intro hcan
    have htk' (h : Taking s) : Taking f := htk ⟨h.willing, h.ready, h.line⟩
    have hends := flushing_ends (k := k) (s := f) rfl (hd.calm hc) (canFlush_after_drain hcan htk' hd.env hquiet)
    have hstream : (slotChan f).rxq ++ arrivals e.tail = arrivals e := (slotChan_stream f).trans hd.str
    have hdrained : Drained s { f with
        bound := false, phase := .ready, ret := .unit, env := e.tail, chan := { slotChan f with txq := [] } } :=
      ⟨e, hd.env, List.tail_suffix _, by simp; omega, hstream⟩
    exact ⟨_, hstep.trans hends, rfl, rfl, rfl, rfl, hdrained, rfl, (slotChan_wireOut f).trans hd.wire,
      hostSide_kept s false rest .ready .unit e.tail { slotChan f with txq := [] }⟩
  · intro he hno
    have hfenv : f.env = [] := List.suffix_nil.1 (he ▸ hd.env)
    have hfno : canFlush f = false := (canFlush_emptied (hquiet he)).trans hno
    have hrests (j : Nat) : runVisits phaseActive phaseVisit (j + 1) f = .next f := flushing_rests rfl hfenv hfno
    have hagain : step f = .next f := (step_phase (s := f) hst rfl).trans (hrests _)
    obtain ⟨hengine, hbufs⟩ := hostSide_kept s s.bound rest .flushing s.ret e c
    exact ⟨f, hstep.trans (hrests k), rfl, hb, hquiet he, hengine, hbufs, hagain⟩

/-! ## A drain that a peer keeps feeding (40_session_control.md R72, 70_reset_and_hazards.md R164) -/

/-- How a drain of `s` stands in `u` while a peer feeds it: only the channel is another, and there only the receive stream and
what the line has carried away. -/
def StillDraining (s u : State) : Prop :=
  (∃ c, u = { s with chan := c }) ∧ NothingWritten s u ∧ u.chan.capacity = s.chan.capacity

theorem StillDraining.refl (s : State) : StillDraining s s := ⟨⟨s.chan, rfl⟩, ⟨rfl, List.suffix_rfl⟩, rfl⟩

/-- All that a fed drain leaves alone. -/
theorem StillDraining.kept {s u : State} (h : StillDraining s u) :
    EngineKept s u ∧ SameHost s u ∧ u.env = s.env ∧ u.chan.capacity = s.chan.capacity ∧ NothingWritten s u ∧
      BuffersKept s u := by
  obtain ⟨⟨c, rfl⟩, hwritten, hcap⟩ := h
  obtain ⟨hengine, hbufs⟩ := hostSide_kept s s.bound s.host s.phase s.ret s.env c
  exact ⟨hengine, ⟨rfl, rfl, rfl, rfl⟩, rfl, hcap, hwritten, hbufs⟩

/-- A slot that brings a byte and comes again: the slots to come are as before, and a byte is there. -/
theorem envStep_fed {s : State} (hf : FedForEver s.env) :
    envStep s = { s with chan := slotChan s } ∧ (slotChan s).rxq ≠ [] := by
  obtain ⟨slot, rest, b, henv, hagain, harrive, hrst⟩ := hf
  have hlater : laterSlots s.env = s.env := by rw [henv]; exact if_pos hagain
  have hhead : s.env.headD [] = slot := by rw [henv]; rfl
  constructor
  · unfold envStep slotChan
    rw [hlater, hhead, foldl_applyMove_calm slot hrst]
  · have hb : b ∈ slot.filterMap EnvMove.byte? := List.mem_filterMap.2 ⟨_, harrive, rfl⟩
    unfold slotChan
    rw [hhead, foldl_onChan_rxq]
    exact List.append_ne_nil_of_right_ne_nil _ (List.ne_nil_of_mem hb)

/-- One round of a fed drain: a byte is there to discard, and the drain stands as before. -/
theorem StillDraining.round {s u : State} (hf : FedForEver s.env) (hq : 0 < s.chan.capacity) (h : StillDraining s u) :
    StillDraining s (envStep u) ∧ 0 < chanAvail (envStep u) ∧ StillDraining s (drainOne (envStep u)) := by
  obtain ⟨⟨c, rfl⟩, ⟨hwire, htxq⟩, hcap⟩ := h
  let u : State := { s with chan := c }
  obtain ⟨hslot, hbyte⟩ : envStep u = { u with chan := slotChan u } ∧ (slotChan u).rxq ≠ [] := envStep_fed hf
  have hwire' : (slotChan u).wireOut = s.chan.wireOut := (slotChan_wireOut u).trans hwire
  have htxq' : (slotChan u).txq <:+ s.chan.txq := (slotChan_txq u).trans htxq
  have hcap' : (slotChan u).capacity = s.chan.capacity := (slotChan_capacity u).trans hcap
  have hqueue : 1 ≤ (slotChan u).queue.length := by
    have := List.length_pos_of_ne_nil hbyte
    rw [queue_length, hcap']
    omega
  obtain ⟨b, q, -, -, hread, -⟩ := chanRead_covered (s := { u with chan := slotChan u }) hqueue
  rw [hslot, drainOne, hread]
  exact ⟨⟨⟨_, rfl⟩, ⟨hwire', htxq'⟩, hcap'⟩, (le_chanAvail (by decide) _).2 hqueue, ⟨_, rfl⟩, ⟨hwire', htxq'⟩, hcap'⟩

/-- However many visits a fed drain is given, it is still draining after them. -/
theorem runVisits_fed {act : State → Bool} {v : State → Visit} {s : State} (hf : FedForEver s.env)
    (hq : 0 < s.chan.capacity)
    (hv : ∀ u, StillDraining s u → 0 < chanAvail u → v u = .go (drainOne u)) (k : Nat) :
    ∃ t, runVisits act v k s = .next t ∧ StillDraining s t := by
  refine runVisits_keeps (P := StillDraining s) (fun u hu _ => ?_) k s (.refl s)
  obtain ⟨hmoved, havail, hdrained⟩ := hu.round hf hq
  exact ⟨_, .inl (hv _ hmoved havail), hdrained⟩

/-- A failed reception that is fed stays in its cleanup (43_frame_receiver.md R96). -/
theorem runEngine_fed {s : State} (hf : FedForEver s.env) (hq : 0 < s.chan.capacity) (hst : s.st = .rCleanup)
    (hres : s.rx.res = 0x00#8) : ∃ t, runEngine s = .next t ∧ StillDraining s t := by
  refine runVisits_fed hf hq ?_ _
  rintro u ⟨⟨c, rfl⟩, -⟩ havail
  unfold visit
  rw [hst]
  exact if_pos ⟨hres, havail⟩

/-- An `OPEN` or a `CLOSE` that is fed stays in its drain. -/
theorem runPhase_fed {s : State} (hf : FedForEver s.env) (hq : 0 < s.chan.capacity)
    (hph : s.phase = .opening ∨ s.phase = .closing) : ∃ t, runPhase s = .next t ∧ StillDraining s t := by
  refine runVisits_fed hf hq ?_ _
  rintro u ⟨⟨c, rfl⟩, -⟩ havail
  unfold phaseVisit
  rcases hph with hph | hph <;> (rw [hph]; exact if_pos havail)

/-- Settles O60: each of the drains is a run of visits that discard a byte apiece, from the call of `OPEN` or `CLOSE` too. -/
theorem fedDrainNeverEnds : Obligations.FedDrainNeverEnds := by
  unfold Obligations.FedDrainNeverEnds
  intro s hf hq
  refine ⟨fun hst hres => ?cleanup, fun hst hph => ?phase, fun rest hready hph =>
    ⟨fun hb hhost => ?opens, fun hb hhost => ?closes⟩⟩
  case cleanup =>
    obtain ⟨t, hrun, hdrain⟩ := runEngine_fed hf hq hst hres
    obtain ⟨hengine, hside⟩ := hdrain.kept
    exact ⟨t, (step_engine (by simp [hst])).trans hrun, hengine.1.trans hst, hengine, hside⟩
  case phase =>
    have hact : phaseActive s = true := by rcases hph with hph | hph <;> simp [phaseActive, hph]
    obtain ⟨t, hrun, hdrain⟩ := runPhase_fed hf hq hph
    obtain ⟨hengine, hhost, hrest⟩ := hdrain.kept
    exact ⟨t, (step_phase hst hact).trans hrun, hhost, hengine, hrest⟩
  case opens =>
    let a : State := { s with host := rest, bound := true, phase := .opening }
    have hcall : step s = runPhase a := (step_call hready.1 hph hhost).trans (if_neg (by simp [hb]))
    obtain ⟨t, hrun, hdrain⟩ := runPhase_fed (s := a) hf hq (.inl rfl)
    obtain ⟨hengine, ⟨hbound, hcalls, hphase, hret⟩, hrest⟩ := hdrain.kept
    exact ⟨t, hcall.trans hrun, hphase, hbound, hcalls, hret, hengine, hrest⟩
  case closes =>
    let a : State := { s with host := rest, phase := .closing }
    have hcall : step s = runPhase a := (step_call hready.1 hph hhost).trans (if_pos hb)
    obtain ⟨t, hrun, hdrain⟩ := runPhase_fed (s := a) hf hq (.inr rfl)
    obtain ⟨hengine, ⟨hbound, hcalls, hphase, hret⟩, hrest⟩ := hdrain.kept
    exact ⟨t, hcall.trans hrun, hphase, hbound.trans hb, hcalls, hret, hengine, hrest⟩

end Sys2Proof.Machine
end

section
/-! SUPPORT. The proofs of the family 41_checksum: the laws of the XOR reduction, its bits as parities, what `CKSUM` answers
and leaves alone, and which alterations of a frame the receiver's comparison tells from a correct one. -/

namespace Sys2Proof.Machine

/-! ## The laws of the checksum (41_checksum.md R75, R77) -/

theorem xor8_append (s t : List Byte) : xor8 (s ++ t) = xor8 s ^^^ xor8 t := by
  rw [xor8_split, foldl_foldByte]

/-- Two folds may be made in either order, so the order of the bytes does not matter (90_conflicts.md C4). -/
theorem xor8_perm {s t : List Byte} (h : s.Perm t) : xor8 s = xor8 t := by
  have hcomm : RightCommutative foldByte := ⟨fun c a b => by unfold foldByte; ac_rfl⟩
  exact h.foldl_eq _

theorem xor8_append_self (s : List Byte) : xor8 (s ++ s) = 0x00#8 := by
  rw [xor8_append, BitVec.xor_self]

/-- A byte that occurs twice contributes nothing. -/
theorem xor8_twice (s t u : List Byte) (b : Byte) : xor8 (s ++ b :: t ++ b :: u) = xor8 (s ++ t ++ u) := by
  calc xor8 (s ++ b :: t ++ b :: u)
    _ = (b ^^^ b) ^^^ xor8 (s ++ t ++ u) := by simp only [xor8_append, xor8_cons]; ac_rfl
    _ = xor8 (s ++ t ++ u) := by simp

theorem xor8_insert_zero (s t : List Byte) : xor8 (s ++ 0x00#8 :: t) = xor8 (s ++ t) := by
  simp [xor8_append, xor8_cons]

/-- Bits altered in one byte are altered in the checksum. -/
theorem xor8_set {s : List Byte} {i : Nat} (h : i < s.length) (m : Byte) :
    xor8 (s.set i (s[i] ^^^ m)) = xor8 s ^^^ m := by
  induction s generalizing i with
  | nil => cases h
  | cons b s ih =>
    cases i with
    | zero => simp only [List.set_cons_zero, List.getElem_cons_zero, xor8_cons]; ac_rfl
    | succ i =>
      simp only [List.set_cons_succ, List.getElem_cons_succ, xor8_cons]
      rw [ih (Nat.lt_of_succ_lt_succ h), BitVec.xor_assoc]

theorem oneBit_ne_zero : ∀ k < 8, 1#8 <<< k ≠ 0#8 := by decide

/-- The same bits altered in two bytes cancel. -/
theorem xor8_set_set {s : List Byte} {i j : Nat} (hi : i < s.length) (hj : j < s.length) (hij : i ≠ j) (m : Byte) :
    xor8 ((s.set i (s[i] ^^^ m)).set j (s[j] ^^^ m)) = xor8 s := by
  have hj' : j < (s.set i (s[i] ^^^ m)).length := by rwa [List.length_set]
  have hsame : (s.set i (s[i] ^^^ m))[j] = s[j] := List.getElem_set_ne hij hj'
  have hsecond := xor8_set hj' m
  rw [hsame, xor8_set hi, BitVec.xor_assoc, BitVec.xor_self, BitVec.xor_zero] at hsecond
  exact hsecond

/-- Settles O9: the laws above; a single altered bit is seen because a mask of one bit is not 0. -/
theorem checksumLaws : Obligations.ChecksumLaws := by
  unfold Obligations.ChecksumLaws
  refine ⟨xor8_nil, fun _ => rfl, xor8_snoc, xor8_append, fun _ _ => xor8_perm, xor8_append_self, xor8_twice,
    xor8_insert_zero, fun f _ => xor8_frameBytes f, fun s i k hi hk => ⟨xor8_set hi _, ?_⟩,
    fun s i j k hi hj hij _ => xor8_set_set hi hj hij _⟩
  rw [xor8_set hi]
  simpa using oneBit_ne_zero k hk

/-! ## The bits of the checksum (41_checksum.md R75) -/

/-- The parity of a count turns over with each byte that is counted. -/
theorem getLsbD_xor8 (s : List Byte) (k : Nat) :
    (xor8 s).getLsbD k = (s.countP (fun b => b.getLsbD k) % 2 == 1) := by
  induction s with
  | nil => simp
  | cons b s ih =>
    rw [xor8_cons, BitVec.getLsbD_xor, ih, List.countP_cons]
    cases b.getLsbD k with
    | false => simp
    | true =>
      rcases Nat.mod_two_eq_zero_or_one (s.countP fun b => b.getLsbD k) with h | h <;> simp [h, Nat.add_mod]

/-- Settles O8: `xor8` is the fold by definition; the parity is by induction on the bytes. -/
theorem checksumParity : Obligations.ChecksumParity := by
  unfold Obligations.ChecksumParity
  exact ⟨fun _ => rfl, xor8_nil, fun x => by simp [xor8_cons], by decide, getLsbD_xor8⟩

/-! ## `CKSUM` (41_checksum.md R78) -/

/-- What an operation leaves alone that writes no byte to the channel or a buffer and reads none from the channel. -/
theorem PureKeeps.of_drift {s t : State} (d : Drift s t.env t.chan (stream s)) (hrx : t.rx = s.rx)
    (hpoll : t.pollT = s.pollT) (hhost : SameHost s t) (hbufs : t.bufs = s.bufs) (hans : t.answers = s.answers)
    (hctr : t.freeCtr = s.freeCtr) (hquiet : s.env = [] → t.chan = s.chan) : PureKeeps s t :=
  ⟨⟨hrx, hpoll, hhost, ⟨d.str, d.env, d.cap⟩, hbufs, hans, hctr, fun _ _ => by rw [hbufs]⟩, ⟨d.wire, d.txq⟩, hquiet⟩

theorem sizeCount_eq {d : List Byte} (h : d.length ≤ 255) : sizeCount d = BitVec.ofNat 8 d.length := by
  unfold sizeCount Config.countMax
  rw [Nat.min_eq_left h]

/-- `CKSUM` is refused with the reason its buffer gives. -/
theorem exec_cksum_refused {s : State} {h : Handle} {r : Refusal} (hbusy : s.busy = false)
    (hbuffer : cksumBuffer h s = .error r) : exec (.cksum h) s = .refused r := by
  rw [exec_cksum, execCksum, hbusy, hbuffer]
  rfl

theorem cksumBuffer_invalidHandle {s : State} {h : Handle} (hfind : s.bufs.find h = none) :
    cksumBuffer h s = .error .invalidHandle := by
  rw [cksumBuffer, hfind]

theorem cksumBuffer_tooLong {s : State} {h : Handle} {d : List Byte} (hfind : s.bufs.find h = some d)
    (hlong : 50 < d.length) : cksumBuffer h s = .error .tooLong := by
  rw [cksumBuffer, hfind]
  exact if_neg (Nat.not_le_of_lt hlong)

/-- Settles O10: the run to its end, the two refusals, and the word that `CKSUM` stands for. -/
theorem cksumOperation : Obligations.CksumOperation := by
  unfold Obligations.CksumOperation
  rintro s h ⟨-, hbusy⟩ hc
  refine ⟨fun d hfind h50 => ?completes, fun hfind => exec_cksum_refused hbusy (cksumBuffer_invalidHandle hfind),
    fun d hfind hlong => exec_cksum_refused hbusy (cksumBuffer_tooLong hfind hlong), fun a => ?word⟩
  case completes =>
    obtain ⟨e, c, hrun, hdrift, hquiet⟩ := exec_cksum_ok hbusy hc hfind h50
    rw [sizeCount_eq (by omega)] at hrun
    exact ⟨_, hrun, finished_completed _ _ _, rfl,
      .of_drift hdrift rfl rfl ⟨rfl, rfl, rfl, rfl⟩ rfl rfl rfl hquiet⟩
  case word =>
    obtain ⟨-, hdecode, -, -⟩ := decode_cmdWord a h
    exact hostCommand_of_op hdecode s

/-! ## What the frame checksum detects (41_checksum.md R79) -/

theorem xor8_zipWith {bs cs : List Byte} (h : bs.length = cs.length) :
    xor8 (List.zipWith (· ^^^ ·) bs cs) = xor8 bs ^^^ xor8 cs := by
  induction bs generalizing cs with
  | nil => obtain rfl := List.eq_nil_of_length_eq_zero h.symm; rfl
  | cons b bs ih =>
    cases cs with
    | nil => cases h
    | cons c cs =>
      rw [List.zipWith_cons_cons, xor8_cons, xor8_cons, xor8_cons, ih (Nat.succ.inj h)]
      ac_rfl

/-- The altered bits of a column are the bits set in that column of the difference. -/
theorem columnFlips_eq_countP (bs cs : List Byte) (k : Nat) :
    columnFlips bs cs k = (List.zipWith (· ^^^ ·) bs cs).countP (fun b => b.getLsbD k) := by
  unfold columnFlips
  rw [← List.map_uncurry_zip_eq_zipWith, List.countP_map]
  exact congrArg (List.countP · _) (funext fun e => by simp [Function.uncurry, BitVec.getLsbD_xor])

/-- Bytes that are as many as those of a frame fold to 0x00 exactly when every bit column has an even number of altered
bits: bit `k` of their checksum is the parity of column `k`, since the frame's own checksum is 0x00. -/
theorem xor8_altered_eq_zero_iff {bs : List Byte} {f : Frame} (h : bs.length = (frameBytes f).length) :
    xor8 bs = 0x00#8 ↔ ∀ k, k < 8 → columnFlips bs (frameBytes f) k % 2 = 0 := by
  have hbit (k : Nat) : (xor8 bs).getLsbD k = (columnFlips bs (frameBytes f) k % 2 == 1) := by
    rw [columnFlips_eq_countP, ← getLsbD_xor8, xor8_zipWith h, xor8_frameBytes, BitVec.xor_zero]
  constructor
  · intro hzero k _
    have hk := hbit k
    rw [hzero, BitVec.getLsbD_zero] at hk
    simpa using hk.symm
  · intro heven
    refine BitVec.eq_of_getLsbD_eq fun k hk => ?_
    rw [hbit k, heven k hk, BitVec.getLsbD_zero]
    rfl

/-- Bytes as many as those of a frame with its length byte in place: a header, a payload as long as the frame's, and a byte
that the receiver takes as the checksum. -/
theorem altered_shape {bs : List Byte} {f : Frame} (hlen : bs.length = (frameBytes f).length)
    (hlength : bs[1]? = some (frameLength f)) :
    ∃ r p c, bs = r :: frameLength f :: p ++ [c] ∧ p.length = f.payload.length := by
  rw [frameBytes_length] at hlen
  match bs, hlen, hlength with
  | r :: l :: rest, hlen, hlength =>
    obtain rfl : l = frameLength f := by simpa using hlength
    obtain rfl | ⟨p, c, rfl⟩ := rest.eq_nil_or_concat'
    · simp at hlen
    · exact ⟨r, p, c, rfl, by simpa using hlen⟩

/-- The receiver's comparison holds exactly when everything it has read folds to 0x00 (43_frame_receiver.md R95). -/
theorem checksum_matches_iff (bs : List Byte) (c : Byte) : c = xor8 bs ↔ xor8 (bs ++ [c]) = 0x00#8 := by
  rw [xor8_snoc, foldByte, BitVec.xor_eq_zero_iff]
  exact eq_comm

/-- Settles O27: the receiver reads the altered bytes as a frame, and its comparison is the parity of the columns. -/
theorem alteredFrameDetected : Obligations.AlteredFrameDetected := by
  unfold Obligations.AlteredFrameDetected
  rintro s h f bs rest ⟨-, hbusy⟩ hb hc hroom hv hans hf hlen hlength hstream h4
  obtain ⟨r, p, c, rfl, hp⟩ := altered_shape hlen hlength
  have heven := xor8_altered_eq_zero_iff hlen
  rw [← checksum_matches_iff] at heven
  have hlenByte := frameLength_eq hf
  have h50 := (frame_wf_iff f).1 hf
  obtain ⟨t, hrun, hcompleted, -, hgood, hbad, -⟩ := exec_recv_frame (b := c) (p := p) (S := rest) hbusy hb hc hv hans
    (by rw [hstream, List.append_assoc]; rfl) (by omega) (by omega) hroom h4
  constructor
  · rintro ⟨k, hk, hodd⟩
    have hdiffers : c ≠ xor8 (r :: frameLength f :: p) := fun hsame => by
      have := heven.1 hsame k hk
      omega
    rw [frameCause, if_neg hdiffers, if_neg hdiffers] at hcompleted
    exact ⟨t, hrun, hcompleted, hbad (if_neg hdiffers)⟩
  · intro hflips r' hr' hne
    obtain rfl : r = r' := by simpa using hr'
    have hsame := heven.2 hflips
    rw [frameCause, if_pos hsame, if_pos hsame, if_neg hne] at hcompleted
    exact ⟨t, hrun, hcompleted, hgood (by rwa [if_pos hsame])⟩

end Sys2Proof.Machine
end

section
/-! SUPPORT. The proofs of the family 42_header_encoding: the request byte as its formula and as its three fields, and what
`ENCODE` answers and leaves alone. -/

namespace Sys2Proof.Machine

/-! ## The request byte (42_header_encoding.md R80, R82) -/

/-- The request byte as R80 writes it: the tag in place, the role bit shifted to its place, the action masked. -/
theorem encodeRequest_eq_or (sl : Bool) (act : Byte) :
    encodeRequest sl act = 0xC0#8 ||| ((BitVec.ofBool sl).zeroExtend 8 <<< 4) ||| (act &&& 0x0F#8) := by
  cases sl with
  | false => rfl
  | true =>
    show 0xC0#8 ||| (act &&& 0x0F#8) ||| 0x10#8 = 0xC0#8 ||| 0x10#8 ||| (act &&& 0x0F#8)
    ac_rfl

/-- The mask of the action keeps its low four bits. -/
theorem actionMask_eq_append (act : Byte) : act &&& 0x0F#8 = (0#4 ++ act.extractLsb' 0 4 : BitVec 8) := by
  have hact : (act.extractLsb' 4 4 ++ act.extractLsb' 0 4 : BitVec 8) = act :=
    (BitVec.extractLsb'_append_extractLsb'_eq_extractLsb' (start₁ := 0) (len₁ := 4) rfl).trans BitVec.extractLsb'_eq_self
  calc act &&& 0x0F#8
    _ = (act.extractLsb' 4 4 ++ act.extractLsb' 0 4 : BitVec 8) &&& (0#4 ++ 0xF#4 : BitVec 8) := by rw [hact]; rfl
    _ = (0#4 ++ act.extractLsb' 0 4 : BitVec 8) := by
      rw [BitVec.and_append, BitVec.and_zero, show 0xF#4 = BitVec.allOnes 4 from rfl, BitVec.and_allOnes]

/-- The request byte is its three fields side by side: the tag, the role, and the low four bits of the action. -/
theorem encodeRequest_eq_append (sl : Bool) (act : Byte) :
    encodeRequest sl act =
      (0b110#3 ++ (BitVec.ofBool sl ++ act.extractLsb' 0 4 : BitVec 5) : BitVec 8) := by
  rw [encodeRequest_eq_or, actionMask_eq_append]
  generalize act.extractLsb' 0 4 = low
  revert sl low
  decide

theorem encodeRequest_tag (sl : Bool) (act : Byte) : (encodeRequest sl act).extractLsb' 5 3 = 0b110#3 := by
  rw [encodeRequest_eq_append]
  exact BitVec.extractLsb'_append_eq_left

theorem encodeRequest_role (sl : Bool) (act : Byte) : (encodeRequest sl act).getLsbD 4 = sl := by
  rw [encodeRequest_eq_append, BitVec.getLsbD_append, BitVec.getLsbD_append]
  simp

theorem encodeRequest_action (sl : Bool) (act : Byte) : encodeRequest sl act &&& 0x0F#8 = act &&& 0x0F#8 := by
  rw [encodeRequest_eq_or, BitVec.and_or_distrib_right, BitVec.and_assoc]
  have hhigh : (0xC0#8 ||| ((BitVec.ofBool sl).zeroExtend 8 <<< 4)) &&& 0x0F#8 = 0#8 := by cases sl <;> rfl
  rw [hhigh, BitVec.zero_or]
  rfl

/-- Fields side by side do not overlap, so their values add up. -/
theorem toNat_append_eq_add {m n : Nat} (x : BitVec m) (y : BitVec n) : (x ++ y).toNat = x.toNat * 2 ^ n + y.toNat := by
  rw [BitVec.toNat_append, ← Nat.shiftLeft_add_eq_or_of_lt y.isLt, Nat.shiftLeft_eq]

theorem encodeRequest_toNat (sl : Bool) (act : Byte) :
    (encodeRequest sl act).toNat = 0xC0 + 16 * sl.toNat + act.toNat % 16 := by
  rw [encodeRequest_eq_append, toNat_append_eq_add, toNat_append_eq_add, BitVec.toNat_ofBool, BitVec.extractLsb'_toNat,
    Nat.shiftRight_zero, Nat.mul_comm sl.toNat, ← Nat.add_assoc]
  rfl

/-- The role and the low four bits of the action can be read back, and nothing else goes into the byte. -/
theorem encodeRequest_eq_iff (sl sl' : Bool) (act act' : Byte) :
    encodeRequest sl act = encodeRequest sl' act' ↔ sl = sl' ∧ act &&& 0x0F#8 = act' &&& 0x0F#8 := by
  constructor
  · intro h
    have hrole := congrArg (·.getLsbD 4) h
    have haction := congrArg (· &&& 0x0F#8) h
    simp only [encodeRequest_role, encodeRequest_action] at hrole haction
    exact ⟨hrole, haction⟩
  · rintro ⟨rfl, haction⟩
    rw [encodeRequest_mask, haction, ← encodeRequest_mask]

/-- Settles O6: the three fields, the value, and that role and action are read back. -/
theorem encodeRequestFields : Obligations.EncodeRequestFields := by
  unfold Obligations.EncodeRequestFields
  exact fun sl act => ⟨encodeRequest_tag sl act, encodeRequest_role sl act, encodeRequest_action sl act,
    encodeRequest_toNat sl act, fun sl' act' => encodeRequest_eq_iff sl sl' act act'⟩

/-! ## `ENCODE` (42_header_encoding.md R83) -/

/-- Settles O7: the run to its end with the request byte as R80 writes it, and the word that `ENCODE` stands for. -/
theorem encodeOperation : Obligations.EncodeOperation := by
  unfold Obligations.EncodeOperation
  rintro s sl act ⟨-, hbusy⟩ hc
  refine ⟨?completes, fun a ha => ?word⟩
  case completes =>
    obtain ⟨e, c, hrun, hdrift, hquiet⟩ := exec_encode_ok sl act hbusy hc
    rw [encodeRequest_eq_or] at hrun
    exact ⟨_, hrun, finished_completed _ _ _, rfl,
      .of_drift hdrift rfl rfl ⟨rfl, rfl, rfl, rfl⟩ rfl rfl rfl hquiet⟩
  case word =>
    obtain ⟨hdecode, -, -, -⟩ := decode_cmdWord a act
    rw [ha] at hdecode
    exact hostCommand_of_op hdecode s

end Sys2Proof.Machine
end

section
/-! SUPPORT. The proofs of the family 43_frame_receiver: what `RECV` comes to by the header it finds, what it leaves alone at
every visit, its rests and how they go on, and the frame that crosses a link. -/

namespace Sys2Proof.Machine

/-! ## The handle and the header (43_frame_receiver.md R86 to R91) -/

/-- Settles O14: R_CHECK fails, and FINISH follows. -/
theorem recvInvalidHandle : Obligations.RecvInvalidHandle := by
  unfold Obligations.RecvInvalidHandle
  rintro s h ⟨-, hbusy⟩ hb hc hv
  obtain ⟨e, c, hrun, hd, hquiet⟩ := exec_recv_invalid hbusy hb hc hv
  exact ⟨_, hrun, finished_completed _ _ _, ⟨hd.str, hd.env, hd.cap⟩, hquiet, ⟨rfl, rfl, rfl, fun _ _ => rfl⟩,
    .of_drift hd rfl ⟨rfl, rfl, rfl, rfl⟩ (fun _ _ => rfl) rfl, rfl, rfl⟩

/-- What has drifted to the end of a drain was drained. -/
theorem Drained.of_drift {s t : State} {e' : List (List EnvMove)} (hd : Drift s t.env t.chan (arrivals e'))
    (he : DrainEnd s.env t.env e') : Drained s t :=
  ⟨e', he.since, he.left, he.one, hd.str⟩

/-- The receiver's registers once the two header bytes are read (R86, R89, R90). -/
theorem atMin_readHeader (h : Handle) (s : State) (r l : Byte) :
    (atMin h s).rx.readHeader r l = { h := h, req := r, len := l, ck := r ^^^ l, idx := 0#6, res := 0x00#8 } := by
  show ({ h := h, req := r, len := l, ck := xor8 [r, l], idx := 0#6, res := 0x00#8 } : Rx) = _
  simp [xor8_cons]

/-- Four bytes are there or come, in a queue that holds them: what `RECV` comes to is decided by the length byte
(R88 to R91). -/
theorem exec_recv_header {s : State} {h : Handle} {r l : Byte} {S : List Byte} (hbusy : s.busy = false)
    (hb : s.bound = true) (hc : Calm s.env) (hv : bufValid h s = true) (hS : stream s = r :: l :: S) (h2 : 2 ≤ S.length)
    (hcap : 4 ≤ s.chan.capacity) :
    ∃ t, exec (.recv h) s = .next t ∧
      ((validLength l = false ∧ ∃ e c e', t = finished 0x00#8 .badLength { atMin h s with
          env := e, chan := c, pollT := 0#5, rx := (atMin h s).rx.readHeader r l } ∧
        Drift s e c (arrivals e') ∧ DrainEnd s.env e e') ∨
      (validLength l = true ∧ ∃ e c, Drift s e c S ∧ AtFrame ((atMin h s).headerRead r l e c) ∧
        FrameOutcome ((atMin h s).headerRead r l e c) t)) := by
  obtain ⟨t, hrun, ho, -⟩ := exec_recv_outcome hbusy hb hc hv
  refine ⟨t, hrun, ?_⟩
  cases ho with
  | rests c short =>
    rw [stream_atMin, capacity_atMin, hS] at short
    simp only [List.length_cons] at short
    omega
  | badLength r' l' S' e c e' str two length eq drift later =>
    rw [stream_atMin, hS] at str
    obtain ⟨rfl, rfl, rfl⟩ : r = r' ∧ l = l' ∧ S = S' := by simpa using str
    exact .inl ⟨length, e, c, e', eq, drift.atMin, later.mono (List.tail_suffix _)⟩
  | frame r' l' S' e c str two length drift start next =>
    rw [stream_atMin, hS] at str
    obtain ⟨rfl, rfl, rfl⟩ : r = r' ∧ l = l' ∧ S = S' := by simpa using str
    exact .inr ⟨length, e, c, drift.atMin, start, next⟩

/-- A bad length byte: the reception fails and drains, no buffer touched (R91). -/
theorem exec_recv_badLength {s : State} {h : Handle} {r l : Byte} {S : List Byte} (hbusy : s.busy = false)
    (hb : s.bound = true) (hc : Calm s.env) (hv : bufValid h s = true) (hS : stream s = r :: l :: S) (h2 : 2 ≤ S.length)
    (hcap : 4 ≤ s.chan.capacity) (hl : validLength l = false) :
    ∃ t, exec (.recv h) s = .next t ∧ Completed 0x00#8 .badLength t ∧ Drained s t ∧ BuffersKept s t ∧
      ReceiveKeeps h s t ∧ t.pollT = 0#5 ∧
      t.rx = { h := h, req := r, len := l, ck := r ^^^ l, idx := 0#6, res := 0x00#8 } := by
  obtain ⟨t, hrun, ⟨-, e, c, e', rfl, hd, he⟩ | ⟨hl', -⟩⟩ := exec_recv_header hbusy hb hc hv hS h2 hcap
  · exact ⟨_, hrun, finished_completed _ _ _, .of_drift hd he, ⟨rfl, rfl, rfl, fun _ _ => rfl⟩,
      .of_drift hd rfl ⟨rfl, rfl, rfl, rfl⟩ (fun _ _ => rfl) rfl, rfl, atMin_readHeader h s r l⟩
  · simp [hl] at hl'

/-- A good length byte: the reception comes to the wait of step 5, and goes on from there (R91, R92). -/
theorem exec_recv_atFrame {s : State} {h : Handle} {r l : Byte} {S : List Byte} (hbusy : s.busy = false)
    (hb : s.bound = true) (hc : Calm s.env) (hv : bufValid h s = true) (hS : stream s = r :: l :: S) (h2 : 2 ≤ S.length)
    (hcap : 4 ≤ s.chan.capacity) (hl : validLength l = true) :
    ∃ e c t, exec (.recv h) s = .next t ∧ Drift s e c S ∧ AtFrame ((atMin h s).headerRead r l e c) ∧
      FrameOutcome ((atMin h s).headerRead r l e c) t := by
  obtain ⟨t, hrun, ⟨hl', -⟩ | ⟨-, e, c, hd, hz, ho⟩⟩ := exec_recv_header hbusy hb hc hv hS h2 hcap
  · simp [hl] at hl'
  · exact ⟨e, c, t, hrun, hd, hz, ho⟩

theorem validLength_false_iff (l : Byte) : validLength l = false ↔ l = 0x00#8 ∨ 0x34 ≤ l.toNat := by
  rw [Bool.eq_false_iff, ne_eq, validLength_iff, ← BitVec.toNat_inj]
  simp
  omega

/-- Settles O15: the two ways of R_VALIDATE, the first to the end of the reception. -/
theorem recvBadLength : Obligations.RecvBadLength := by
  unfold Obligations.RecvBadLength
  constructor
  · rintro s h r l S ⟨-, hbusy⟩ hb hc hroom hv hS h2 hl
    unfold Roomy at hroom
    exact exec_recv_badLength hbusy hb hc hv hS h2 (by omega) ((validLength_false_iff l).2 hl)
  · intro s hst h1 h51
    unfold visit
    rw [hst]
    exact if_pos ((validLength_iff _).2 ⟨h1, h51⟩)

/-! ## A whole frame (43_frame_receiver.md R92 to R98) -/

/-- A correct frame at the head of the stream, its request byte not 0x00, is received (R95, R98). -/
theorem exec_recv_correct {s : State} {h : Handle} {f : Frame} {rest : List Byte} (hs : Ready s) (hb : s.bound = true)
    (hc : Calm s.env) (hroom : Roomy s) (hv : bufValid h s = true) (ha : (drawResize s).1 = true) (hf : f.wf = true)
    (hreq : f.request ≠ 0x00#8) (hS : stream s = frameBytes f ++ rest) (h4 : 4 ≤ (stream s).length) :
    ∃ t, exec (.recv h) s = .next t ∧ Completed f.request .none t ∧ t.bufs.find h = some f.payload ∧ stream t = rest ∧
      t.rx = { h := h, req := f.request, len := frameLength f, ck := frameChecksum f
               idx := BitVec.ofNat 6 f.payload.length, res := f.request } ∧
      t.pollT = 0#5 ∧ t.answers.resizeOk = s.answers.resizeOk.tail ∧ ReceiveKeeps h s t := by
  have hlen := frameLength_eq hf
  have h50 := (frame_wf_iff f).1 hf
  have hstream : stream s = f.request :: frameLength f :: f.payload ++ frameChecksum f :: rest := by
    rw [hS]; simp [frameBytes]
  obtain ⟨t, hrun, hcomp, hrx, hgood, -, hfind, hpoll, hans, hkeeps⟩ :=
    exec_recv_frame hs.2 hb hc hv ha hstream hlen.symm (by omega) hroom h4
  have hsame : frameChecksum f = xor8 (f.request :: frameLength f :: f.payload) := rfl
  rw [if_pos hsame] at hcomp hrx hgood
  rw [frameCause, if_pos hsame, if_neg hreq] at hcomp
  exact ⟨t, hrun, hcomp, hfind, hgood hreq, hrx, hpoll, hans, hkeeps⟩

/-- Settles O16: the run of a correct frame. -/
theorem recvSuccess : Obligations.RecvSuccess := by
  unfold Obligations.RecvSuccess
  intro s h f rest hs hb hc hroom hv ha hf hreq hS h4
  exact exec_recv_correct hs hb hc hroom hv ha hf hreq hS h4

theorem drawResize_of_script {s : State} {b : Bool} {a : List Bool} (h : s.answers.resizeOk = b :: a) :
    (drawResize s).1 = b := by
  unfold drawResize; rw [h]

/-- A state with the same answers to come draws the same one. -/
theorem drawResize_granted {s t : State} (ha : (drawResize s).1 = true) (hans : t.answers = s.answers)
    (hctr : t.freeCtr = s.freeCtr) : (drawResize t).1 = true :=
  (drawResize_congr hans hctr).1.trans ha

/-- A buffer that was valid still is after an operation that left one in `h` and kept the others. -/
theorem OtherBuffersKept.bufValid {h k : Handle} {s t : State} {d : List Byte} (ho : OtherBuffersKept h s t)
    (hd : t.bufs.find h = some d) (hv : bufValid k s = true) : bufValid k t = true := by
  rw [bufValid_iff] at hv ⊢
  by_cases hk : k = h
  · exact ⟨d, hk ▸ hd⟩
  · rwa [(ho k hk).1]

/-- Settles O17: the state that the first reception leaves meets the premises of the second. -/
theorem backToBackFrames : Obligations.BackToBackFrames := by
  unfold Obligations.BackToBackFrames
  intro s h h' f g rest a hs hb hc hroom hv hv' hscript hf hf0 hg hg0 hS h4
  obtain ⟨t, hrun, hcomp, hfind, hrest, -, -, hans, -, ⟨hbound, -⟩, -, hothers, -, henv, hcap⟩ :=
    exec_recv_correct (rest := frameBytes g ++ rest) hs hb hc hroom hv (drawResize_of_script hscript) hf hf0
      (by rw [hS, List.append_assoc]) (by rw [hS, List.append_assoc, List.length_append]; omega)
  have hready : Ready t := ⟨hcomp.1, hcomp.2.1⟩
  have hroom' : Roomy t := by unfold Roomy; rwa [hcap]
  have hscript' : t.answers.resizeOk = true :: a := by rw [hans, hscript]; rfl
  obtain ⟨u, hrun', hcomp', hfind', hrest', -⟩ := exec_recv_correct (h := h') hready (hbound.trans hb)
    (hc.of_suffix henv) hroom' (hothers.bufValid hfind hv') (drawResize_of_script hscript') hg hg0 hrest (hrest ▸ h4)
  exact ⟨t, u, hrun, hrun', hcomp, hrest, hfind, hcomp', hrest', hfind'⟩

/-- Settles O18: the comparison of R_CKSUM fails. -/
theorem recvChecksumMismatch : Obligations.RecvChecksumMismatch := by
  unfold Obligations.RecvChecksumMismatch
  rintro s h r l c p rest ⟨-, hbusy⟩ hb hc hroom hv ha hS hp h51 h4 hne
  obtain ⟨t, hrun, hcomp, hrx, -, hbad, hfind, hpoll, -, hkeeps⟩ :=
    exec_recv_frame hbusy hb hc hv ha hS hp h51 hroom h4
  rw [if_neg hne] at hcomp hrx hbad
  rw [frameCause, if_neg hne] at hcomp
  exact ⟨t, hrun, hcomp, hbad rfl, hfind, hkeeps, hpoll, hrx⟩

/-- Settles O20: at the wait of step 5 the bytes are enough, so the buffer is asked, and it refuses. -/
theorem recvResizeFailure : Obligations.RecvResizeFailure := by
  unfold Obligations.RecvResizeFailure
  rintro s h r l S ⟨-, hbusy⟩ hb hc hroom hv ha hS h1 h51 hlS h2
  unfold Roomy at hroom
  obtain ⟨e, c, t, hrun, hd, -, ho⟩ :=
    exec_recv_atFrame hbusy hb hc hv hS h2 (by omega) ((validLength_iff l).2 ⟨h1, h51⟩)
  obtain ⟨hans, -, hctr⟩ := drawResize_headerRead (atMin h s) r l e c
  obtain ⟨hans', -, hctr'⟩ := drawResize_atMin h s
  refine ⟨t, hrun, ?_⟩
  cases ho with
  | rests c' short =>
    have hshort : (c.rxq ++ arrivals e).length < l.toNat ∨ c.capacity < l.toNat := short
    rw [hd.str, hd.cap] at hshort
    omega
  | refused e1 c1 e' enough answer eq drift later room =>
    subst eq
    have hd1 : Drift s e1 c1 (arrivals e') := Drift.trans (t := (atMin h s).headerRead r l e c) hd drift
    have hbufs : (notResized h ((atMin h s).headerRead r l e c)).bufs =
        s.bufs.assign h (Config.failedResize (drawResize s).2.freeCtr) := by rw [← hctr', ← hctr]; rfl
    have hothers (j : Handle) (hj : j ≠ h) :
        (notResized h ((atMin h s).headerRead r l e c)).bufs.find j = s.bufs.find j := by
      rw [hbufs, Memory.find_assign_of_ne _ _ hj.symm]
    have halloc := (drawResize_answers ((atMin h s).headerRead r l e c)).2
    exact ⟨finished_completed _ _ _, .of_drift hd1 (later.mono hd.env), hbufs,
      .of_drift hd1 rfl ⟨rfl, rfl, rfl, rfl⟩ hothers halloc, rfl, atMin_readHeader h s r l⟩
  | frame p b S' e1 c1 i B R answer =>
    rw [hans, hans', ha] at answer
    cases answer

/-! ## What `RECV` leaves alone at every visit (43_frame_receiver.md R85, 10_state.md R19) -/

theorem OtherBuffersKept.trans {h : Handle} {s u t : State} (hu : OtherBuffersKept h s u) (ht : OtherBuffersKept h u t) :
    OtherBuffersKept h s t := fun j hj =>
  ⟨(ht j hj).1.trans (hu j hj).1, fun i => ((ht j hj).2 i).trans ((hu j hj).2 i)⟩

theorem ReceiveKeeps.refl (h : Handle) (s : State) : ReceiveKeeps h s s :=
  .of_drift (.refl s) rfl ⟨rfl, rfl, rfl, rfl⟩ (fun _ _ => rfl) rfl

theorem ReceiveKeeps.trans {h : Handle} {s u t : State} (hu : ReceiveKeeps h s u) (ht : ReceiveKeeps h u t) :
    ReceiveKeeps h s t := by
  obtain ⟨utx, ⟨ubound, uhost, uphase, uret⟩, ⟨uwire, utxq⟩, uothers, ualloc, uenv, ucap⟩ := hu
  obtain ⟨ttx, ⟨tbound, thost, tphase, tret⟩, ⟨twire, ttxq⟩, tothers, talloc, tenv, tcap⟩ := ht
  exact ⟨ttx.trans utx, ⟨tbound.trans ubound, thost.trans uhost, tphase.trans uphase, tret.trans uret⟩,
    ⟨twire.trans uwire, ttxq.trans utxq⟩, uothers.trans tothers, talloc.trans ualloc, tenv.trans uenv, tcap.trans ucap⟩

theorem envStep_receiveKeeps (h : Handle) {s : State} (hn : NoReset s.env) : ReceiveKeeps h s (envStep s) := by
  rw [envStep_noReset hn]
  exact ⟨rfl, ⟨rfl, rfl, rfl, rfl⟩, ⟨slotChan_wireOut s, slotChan_txq s⟩, fun _ _ => ⟨rfl, fun _ => rfl⟩, rfl,
    laterSlots_suffix _, slotChan_capacity s⟩

theorem chanRead_receiveKeeps (h : Handle) (s : State) : ReceiveKeeps h s (chanRead s).2 := by
  unfold chanRead
  split
  · exact ⟨rfl, ⟨rfl, rfl, rfl, rfl⟩, ⟨rfl, List.suffix_rfl⟩, fun _ _ => ⟨rfl, fun _ => rfl⟩, rfl, List.suffix_rfl, rfl⟩
  · exact .refl h s

/-- A `resize` touches its own buffer and takes an answer of its own script, not of `allocate`'s (10_state.md R18). -/
theorem bufResize_receiveKeeps (h : Handle) (n : Nat) (s : State) : ReceiveKeeps h s (bufResize h n s).2 := by
  have halloc := (drawResize_answers s).2
  cases ha : (drawResize s).1 with
  | true =>
    rw [bufResize_true h n ha]
    exact .of_drift (.refl s) rfl ⟨rfl, rfl, rfl, rfl⟩ (fun j hj => Memory.find_put_of_ne _ _ hj.symm) halloc
  | false =>
    rw [bufResize_false h n ha]
    exact .of_drift (.refl s) rfl ⟨rfl, rfl, rfl, rfl⟩ (fun j hj => Memory.find_assign_of_ne _ _ hj.symm) halloc

@[simp] theorem bufResize_rx (h : Handle) (n : Nat) (s : State) : (bufResize h n s).2.rx = s.rx := by
  obtain ⟨-, -, -, -, -, -, hrx, -⟩ := bufResize_host (h := h) (n := n) (s := s) rfl
  exact hrx

theorem bufSet_receiveKeeps {h : Handle} {i : Nat} {v : Byte} {s t : State} (hset : bufSet h i v s = some t) :
    ReceiveKeeps h s t := by
  obtain ⟨d, -, -, rfl⟩ := bufSet_eq_some.1 hset
  exact .of_drift (.refl s) rfl ⟨rfl, rfl, rfl, rfl⟩ (fun j hj => Memory.find_put_of_ne _ _ hj.symm) rfl

/-- The engine is at work on a `RECV h`, or done with it: `h` is the latched operand, and from R_CHECK on in `rx.h`. -/
def Receiving (h : Handle) (s : State) : Prop :=
  match s.st with
  | .rCheck => handleOf s.cmd = h
  | .rWaitMin | .rReq | .rLen | .rValidate | .rWaitFrame | .rResize | .rPayload | .rCksum | .rCleanup => s.rx.h = h
  | .idle | .finish => True
  | .sCheck | .sReq | .sLen | .sPayload | .sCksum | .sFlush | .kRun | .eRun => False

/-- A visit that is made in a reception stays in it. -/
theorem Visited.receiving {h : Handle} {s t : State} (hs : Receiving h s) (hv : Visited s t) : Receiving h t := by
  unfold Receiving at hs
  cases hv
  case payloadSet st more u set =>
    obtain ⟨d, -, -, rfl⟩ := bufSet_eq_some.1 set
    simpa [Receiving, st] using hs
  all_goals simp_all [Receiving, Rx.started, drainOne]

/-- What a visit that is made in a reception leaves alone: it reads the channel, asks for the operand's buffer, or writes
registers of the engine that are none of it. -/
theorem Visited.receiveKeeps {h : Handle} {s t : State} (hs : Receiving h s) (hv : Visited s t) : ReceiveKeeps h s t := by
  unfold Receiving at hs
  cases hv
  case requestRead | lengthRead | checksumMatches | checksumDiffers | drained => exact chanRead_receiveKeeps h s
  case resizedTo st _ _ | resizeFailed st _ _ =>
    obtain rfl : s.rx.h = h := by simpa only [st] using hs
    exact bufResize_receiveKeeps _ _ s
  case payloadSet st more u set =>
    obtain rfl : s.rx.h = h := by simpa only [st] using hs
    have hset : ReceiveKeeps s.rx.h (chanRead s).2 u := bufSet_receiveKeeps set
    exact (chanRead_receiveKeeps _ s).trans hset
  case sizeValid st _ _ _ | sizeBad st _ _ _ | requestWritten st _ | lengthWritten st _ | payloadWritten st _ _ _ _ |
      checksumWritten st _ | flushed st _ | cksumSize st _ _ _ _ | cksumGot st _ _ _ _ =>
    simp [st] at hs
  all_goals exact .refl h s

/-- A visit of a reception that waits loads the poll timer: only its two waits do. -/
theorem Receiving.waits {h : Handle} {s t : State} (hs : Receiving h s) (hv : visit s = .wait t) :
    t = { s with pollT := Config.pollInterval } := by
  unfold Receiving at hs
  unfold visit at hv
  obtain ⟨w, st⟩ : ∃ w, s.st = w := ⟨_, rfl⟩
  rw [st] at hs hv
  cases w
  case rWaitMin | rWaitFrame => exact waitVisit_wait hv
  case sCheck | sReq | sLen | sPayload | sCksum | sFlush | kRun | eRun => exact hs.elim
  case idle | rReq | rLen | finish => cases hv
  case rCheck | rValidate | rResize | rPayload | rCksum | rCleanup =>
    simp only [visitRCheck, visitRValidate, visitRResize, visitRPayload, visitRCksum, visitRCleanup] at hv
    (repeat' split at hv) <;> cases hv

/-- How a `RECV h` begun in `s` stands in `u`: still at work or done, what it leaves alone unchanged. -/
structure StillReceiving (h : Handle) (s u : State) : Prop where
  keeps : ReceiveKeeps h s u
  receiving : Receiving h u

/-- A visit, after the moves of a slot without a reset, carries the reception on. -/
theorem StillReceiving.visit {h : Handle} {s u v : State} (hn : NoReset s.env) (hu : StillReceiving h s u)
    (hv : visit (envStep u) = .go v ∨ visit (envStep u) = .wait v) : StillReceiving h s v := by
  obtain ⟨-, -, -, -, -, henv, -⟩ := hu.keeps
  have hnu : NoReset u.env := fun slot hslot => hn slot (henv.subset hslot)
  have hkeeps := hu.keeps.trans (envStep_receiveKeeps h hnu)
  have hreceiving : Receiving h (envStep u) := by rw [envStep_noReset hnu]; exact hu.receiving
  rcases hv with hv | hv
  · have hv := visited_of_visit hv
    exact ⟨hkeeps.trans (hv.receiveKeeps hreceiving), hv.receiving hreceiving⟩
  · obtain rfl := hreceiving.waits hv
    exact ⟨hkeeps, hreceiving⟩

/-- Settles O26: what each visit of a reception leaves alone, the whole run does. -/
theorem recvFrame : Obligations.RecvFrame := by
  unfold Obligations.RecvFrame
  rintro s t h ⟨-, hbusy⟩ hn he
  cases hb : s.bound with
  | false => rw [exec_recv_noSession hbusy hb] at he; cases he
  | true =>
    have hrun : runEngine (accept (encode (.recv h)) .rCheck s) = .next t := by
      rwa [exec_recv, execRecv, if_neg (by simp [hbusy]), if_pos hb] at he
    have hstart : StillReceiving h s (accept (encode (.recv h)) .rCheck s) := ⟨.refl h s, handleOf_encode _⟩
    exact (runVisits_next_keeps (P := StillReceiving h s) (fun _ _ hu _ hv => hu.visit hn hv) _ _ _ hstart hrun).keeps

/-! ## The rests (43_frame_receiver.md R99, 70_reset_and_hazards.md R156, R160) -/

/-- A reception that rests at the wait of step 1 still stands there, whatever the channel holds. -/
theorem AtMin.rested {y : State} (h : AtMin y) (c : Chan) :
    AtMin { y with pollT := Config.pollInterval, env := [], chan := c } :=
  ⟨h.st, Calm.nil, h.op, h.valid, h.idx, h.res⟩

/-- A reception that rests at the wait of step 5 still stands there, whatever the channel holds. -/
theorem AtFrame.rested {z : State} (h : AtFrame z) (c : Chan) :
    AtFrame { z with pollT := Config.pollInterval, env := [], chan := c } :=
  ⟨h.st, Calm.nil, h.op, h.valid, h.idx, h.res, h.len⟩

/-- A wait whose timer has just been loaded, with no slot to come, is where a run that rests leaves it. -/
theorem step_rests {t : State} (hst : t.st ≠ .idle) (hp : t.pollT = Config.pollInterval) (he : t.env = [])
    (hrun : ∃ c, runEngineFor (visitBudget t) t = .next { t with pollT := Config.pollInterval, env := [], chan := c } ∧
      Drift t [] c (stream t) ∧ (t.env = [] → c = t.chan)) : step t = .next t := by
  obtain ⟨c, hrun, -, hquiet⟩ := hrun
  have hsame : ({ t with pollT := Config.pollInterval, env := [], chan := c } : State) = t := by
    rw [hquiet he, ← hp, ← he]
  rw [step_engine hst, runEngine_eq, hrun, hsame]

theorem visitBudget_covers_rest (s : State) : s.env.length + 32 ≤ visitBudget s := by
  have := visitBudget_ge s
  omega

/-- A rest at the wait of step 1 is for ever. -/
theorem AtMin.step_rested {y : State} {c : Chan} (h : AtMin y) (hd : Drift y [] c (stream y))
    (short : (stream y).length < 4 ∨ y.chan.capacity < 4) :
    step { y with pollT := Config.pollInterval, env := [], chan := c } =
      .next { y with pollT := Config.pollInterval, env := [], chan := c } := by
  rw [← hd.str, ← hd.cap] at short
  exact step_rests (by simp [h.st]) rfl rfl (min_rests (h.rested c) short (visitBudget_covers_rest _))

/-- A rest at the wait of step 5 is for ever. -/
theorem AtFrame.step_rested {z : State} {c : Chan} (h : AtFrame z) (hd : Drift z [] c (stream z))
    (short : (stream z).length < z.rx.len.toNat ∨ z.chan.capacity < z.rx.len.toNat) :
    step { z with pollT := Config.pollInterval, env := [], chan := c } =
      .next { z with pollT := Config.pollInterval, env := [], chan := c } := by
  rw [← hd.str, ← hd.cap] at short
  exact step_rests (by simp [h.st]) rfl rfl (frame_rests (h.rested c) short (visitBudget_covers_rest _))

/-- Settles O21: the wait of step 1 rests, and a step from its rest is the same wait again. -/
theorem recvWaitsForFour : Obligations.RecvWaitsForFour := by
  unfold Obligations.RecvWaitsForFour
  rintro s h ⟨-, hbusy⟩ hb hc hv hshort
  obtain ⟨t, hrun, ho, hm⟩ := exec_recv_outcome hbusy hb hc hv
  refine ⟨t, hrun, ?_⟩
  have four {r l : Byte} {S : List Byte} (str : stream (atMin h s) = r :: l :: S) (two : 2 ≤ S.length) :
      4 ≤ (stream s).length := by
    rw [← stream_atMin h s, str]
    simpa using two
  cases ho with
  | rests c short eq drift still =>
    have hd : Drift s [] c (stream s) := stream_atMin h s ▸ drift.atMin
    subst eq
    exact ⟨⟨rfl, rfl, rfl, rfl, rfl, rfl, rfl⟩, ⟨hd.str, hd.env, hd.cap⟩, ⟨rfl, rfl, rfl, fun _ _ => rfl⟩,
      .of_drift hd rfl ⟨rfl, rfl, rfl, rfl⟩ (fun _ _ => rfl) rfl, hm.step_rested drift short⟩
  | badLength r l S e c e' str two length eq drift later room =>
    rw [capacity_atMin] at room
    have := four str two
    omega
  | frame r l S e c str two length drift start next room =>
    rw [capacity_atMin] at room
    have := four str two
    omega

/-- Settles O22: the wait of step 5 rests, and a step from its rest is the same wait again. -/
theorem recvWaitsForFrame : Obligations.RecvWaitsForFrame := by
  unfold Obligations.RecvWaitsForFrame
  rintro s h r l S ⟨-, hbusy⟩ hb hc hv hS h2 h51 hcap hshort
  obtain ⟨e, c, t, hrun, hd, hz, ho⟩ :=
    exec_recv_atFrame hbusy hb hc hv hS h2 hcap ((validLength_iff l).2 (by omega))
  have hstream : stream ((atMin h s).headerRead r l e c) = S := hd.str
  have hcapz : ((atMin h s).headerRead r l e c).chan.capacity = s.chan.capacity := hd.cap
  have hlen : ((atMin h s).headerRead r l e c).rx.len = l := rfl
  refine ⟨t, hrun, ?_⟩
  cases ho with
  | rests c' short eq drift still =>
    have hd' : Drift s [] c' S := hstream ▸ Drift.trans (t := (atMin h s).headerRead r l e c) hd drift
    subst eq
    exact ⟨⟨rfl, rfl, rfl, rfl, rfl, rfl, rfl⟩, hd'.str, ⟨rfl, rfl, rfl, fun _ _ => rfl⟩,
      .of_drift hd' rfl ⟨rfl, rfl, rfl, rfl⟩ (fun _ _ => rfl) rfl, hz.step_rested drift short⟩
  | refused e1 c1 e' enough answer eq drift later room =>
    rw [hstream, hlen] at enough
    rw [hcapz, hlen] at room
    omega
  | frame p b S' e1 c1 i B R answer str size eq drift good bad idx here others room =>
    have hlong := congrArg List.length str
    rw [hstream, List.length_append, List.length_cons, size] at hlong
    have hlen' := hz.len_toNat
    rw [hcapz] at room
    rw [hlen] at room hlen' hlong
    omega

/-! ## A rest that goes on (43_frame_receiver.md R99) -/

/-- One step carries a reception from the wait of step 1 as far as it goes. -/
theorem step_atMin {y : State} (h : AtMin y) : ∃ u, step y = .next u ∧ MinOutcome y u := by
  have hbudget := visitBudget_ge y
  obtain ⟨u, hrun, ho⟩ := min_outcome (k := visitBudget y) h (by omega)
  exact ⟨u, (step_engine (by simp [h.st])).trans hrun, ho⟩

/-- One step carries a reception from the wait of step 5 as far as it goes. -/
theorem step_atFrame {z : State} (h : AtFrame z) : ∃ u, step z = .next u ∧ FrameOutcome z u := by
  have hbudget := visitBudget_ge z
  obtain ⟨u, hrun, ho⟩ := frame_outcome (k := visitBudget z) h (by omega)
  exact ⟨u, (step_engine (by simp [h.st])).trans hrun, ho⟩

/-- What the reception of a correct frame with payload `p` leaves, from a state `y` that it has come to. -/
structure Received (y : State) (req : Byte) (p rest : List Byte) (u : State) : Prop where
  completed : Completed req .none u
  payload : u.bufs.find y.rx.h = some p
  left : stream u = rest
  others : OtherBuffersKept y.rx.h y u
  written : NothingWritten y u

/-- From the wait of step 5, when the rest of a correct frame is there (R92 to R98). -/
theorem FrameOutcome.received {z u : State} {p S : List Byte} (ho : FrameOutcome z u) (hz : AtFrame z)
    (ha : (drawResize z).1 = true) (hS : stream z = p ++ p.foldl foldByte z.rx.ck :: S)
    (hp : p.length + 1 = z.rx.len.toNat) (hroom : z.rx.len.toNat ≤ z.chan.capacity) (hreq : z.rx.req ≠ 0x00#8) :
    Received z z.rx.req p S u := by
  have hlen := hz.len_toNat
  cases ho with
  | rests c short =>
    rw [hS, List.length_append, List.length_cons] at short
    omega
  | refused e c e' enough answer => rw [ha] at answer; cases answer
  | frame p' b S' e c i B R answer str size eq drift good bad idx here others room =>
    rw [hS] at str
    obtain ⟨rfl, htail⟩ := List.append_inj str (by omega)
    obtain ⟨rfl, rfl⟩ := List.cons.inj htail
    have hres : (z.rx.readFrame p i (p.foldl foldByte z.rx.ck)).res = z.rx.req := if_pos rfl
    have hcause : frameCause z.rx.req (p.foldl foldByte z.rx.ck) (p.foldl foldByte z.rx.ck) = .none :=
      (if_pos rfl).trans (if_neg hreq)
    rw [hres, hcause] at eq
    subst eq
    exact ⟨finished_completed _ _ _, here, drift.str.trans (good (hres.trans_ne hreq)),
      fun j hj => ⟨others j hj, fun k => congrArg (Option.bind · _) (others j hj)⟩, drift.wire, drift.txq⟩

/-- From the wait of step 1, when a whole correct frame is there (R88 to R98). -/
theorem MinOutcome.received {y u : State} {f : Frame} {rest : List Byte} (ho : MinOutcome y u) (hck : y.rx.ck = 0x00#8)
    (hroom : Roomy y) (ha : (drawResize y).1 = true) (hf : f.wf = true) (hreq : f.request ≠ 0x00#8)
    (hS : stream y = frameBytes f ++ rest) (h4 : 4 ≤ (stream y).length) : Received y f.request f.payload rest u := by
  have hlen := frameLength_eq hf
  have h50 := (frame_wf_iff f).1 hf
  unfold Roomy at hroom
  cases ho with
  | rests c short => omega
  | badLength r l S e c e' str two length =>
    rw [hS] at str
    obtain ⟨-, rfl, -⟩ : f.request = r ∧ frameLength f = l ∧ _ = S := by simpa [frameBytes] using str
    have hgood := (validLength_iff (frameLength f)).2 (by omega)
    rw [hgood] at length
    cases length
  | frame r l S e c str two length drift start next room =>
    rw [hS] at str
    obtain ⟨rfl, rfl, rfl⟩ : f.request = r ∧ frameLength f = l ∧ f.payload ++ frameChecksum f :: rest = S := by
      simpa [frameBytes] using str
    have hfold : f.payload.foldl foldByte (foldByte (foldByte y.rx.ck f.request) (frameLength f)) = frameChecksum f := by
      rw [hck]; rfl
    have hcap : (y.headerRead f.request (frameLength f) e c).chan.capacity = y.chan.capacity := drift.cap
    obtain ⟨hcomp, hfind, hleft, hothers, hwire, htxq⟩ := next.received (p := f.payload) (S := rest) start
      ((drawResize_headerRead y _ _ e c).1.trans ha) (drift.str.trans (by rw [← hfold]; rfl)) hlen.symm
      (hcap ▸ (show (frameLength f).toNat ≤ _ by omega)) hreq
    exact ⟨hcomp, hfind, hleft, hothers, hwire.trans drift.wire, htxq.trans drift.txq⟩

/-- Bytes that arrive at a rest stand behind those that were there. -/
theorem Drift.arriving {s : State} {c : Chan} {S : List Byte} (hd : Drift s [] c S) (more : List Byte) :
    Drift s [] { c with rxq := c.rxq ++ more } (S ++ more) :=
  ⟨hd.env, by rw [← hd.str]; simp, hd.wire, hd.txq, hd.cap⟩

/-- A rest at the wait of step 1 ends in one step when the missing bytes of a correct frame arrive. -/
theorem AtMin.resumes {y : State} {c : Chan} {f : Frame} {more rest : List Byte} (h : AtMin y)
    (hd : Drift y [] c (stream y)) (hck : y.rx.ck = 0x00#8) (hroom : Roomy y) (ha : (drawResize y).1 = true)
    (hf : f.wf = true) (hreq : f.request ≠ 0x00#8) (hS : stream y ++ more = frameBytes f ++ rest)
    (h4 : 4 ≤ (stream y ++ more).length) :
    ∃ u, step (State.arriving more { y with pollT := Config.pollInterval, env := [], chan := c }) = .next u ∧
      Received y f.request f.payload rest u := by
  have hmore := hd.arriving more
  obtain ⟨u, hstep, ho⟩ := step_atMin (h.rested { c with rxq := c.rxq ++ more })
  obtain ⟨hcomp, hfind, hleft, hothers, hwire, htxq⟩ := ho.received hck (hroom.trans_eq hmore.cap.symm)
    (drawResize_granted ha rfl rfl) hf hreq (hmore.str.trans hS) (h4.trans_eq (congrArg List.length hmore.str.symm))
  exact ⟨u, hstep, hcomp, hfind, hleft, hothers, hwire.trans hmore.wire, htxq.trans hmore.txq⟩

/-- A rest at the wait of step 5 ends in one step when the missing bytes of a correct frame arrive. -/
theorem AtFrame.resumes {z : State} {c : Chan} {p more S : List Byte} (h : AtFrame z) (hd : Drift z [] c (stream z))
    (ha : (drawResize z).1 = true) (hS : stream z ++ more = p ++ p.foldl foldByte z.rx.ck :: S)
    (hp : p.length + 1 = z.rx.len.toNat) (hroom : z.rx.len.toNat ≤ z.chan.capacity) (hreq : z.rx.req ≠ 0x00#8) :
    ∃ u, step (State.arriving more { z with pollT := Config.pollInterval, env := [], chan := c }) = .next u ∧
      Received z z.rx.req p S u := by
  have hmore := hd.arriving more
  obtain ⟨u, hstep, ho⟩ := step_atFrame (h.rested { c with rxq := c.rxq ++ more })
  obtain ⟨hcomp, hfind, hleft, hothers, hwire, htxq⟩ := ho.received (h.rested _) (drawResize_granted ha rfl rfl)
    (hmore.str.trans hS) hp (hroom.trans_eq hmore.cap.symm) hreq
  exact ⟨u, hstep, hcomp, hfind, hleft, hothers, hwire.trans hmore.wire, htxq.trans hmore.txq⟩

/-- Settles O24: the rest stands at one of the two waits, and goes on from there. -/
theorem recvResumes : Obligations.RecvResumes := by
  unfold Obligations.RecvResumes
  rintro s t h f more rest ⟨-, hbusy⟩ hb hc hroom hv ha hf hreq hS h4 hrun hrests
  obtain ⟨t', hrun', ho, hm⟩ := exec_recv_outcome hbusy hb hc hv
  obtain rfl : t' = t := by simpa [hrun'] using hrun
  have hstart := Drift.moved s
  have hroom' : Roomy (atMin h s) := hroom.trans_eq (capacity_atMin h s).symm
  rw [← stream_atMin h s] at hS h4
  cases ho with
  | rests c short eq drift still =>
    subst eq
    obtain ⟨u, hstep, hcomp, hfind, hleft, hothers, hwire, htxq⟩ :=
      hm.resumes drift rfl hroom' (drawResize_granted ha rfl rfl) hf hreq hS h4
    exact ⟨u, hstep, hcomp, hfind, hleft, hothers, hwire.trans hstart.wire, htxq.trans hstart.txq⟩
  | badLength r l S e c e' str two length eq => subst eq; cases hrests
  | frame r l S e c str two length drift start next room =>
    have hd := drift.atMin
    cases next with
    | rests c' short eq drift' still =>
      subst eq
      rw [str] at hS
      obtain ⟨rfl, rfl, htail⟩ : r = f.request ∧ l = frameLength f ∧
          S ++ more = f.payload ++ frameChecksum f :: rest := by simpa [frameBytes] using hS
      have hlen := frameLength_eq hf
      have h51 := ((validLength_iff _).1 length).2
      obtain ⟨u, hstep, hcomp, hfind, hleft, hothers, hwire, htxq⟩ :=
        start.resumes (p := f.payload) (S := rest) drift' (drawResize_granted ha rfl rfl)
          ((congrArg (· ++ more) drift.str).trans htail) hlen.symm (h51.trans (hroom.trans_eq hd.cap.symm)) hreq
      exact ⟨u, hstep, hcomp, hfind, hleft, hothers, hwire.trans hd.wire, htxq.trans hd.txq⟩
    | refused e1 c1 e' enough answer eq => subst eq; cases hrests
    | frame p b S' e1 c1 i B R answer str' size eq => subst eq; cases hrests

/-! ## An end for every stream that is long enough (43_frame_receiver.md R101) -/

/-- Settles O30: with that many bytes neither wait rests, whatever the length byte. -/
theorem recvFinishes : Obligations.RecvFinishes := by
  unfold Obligations.RecvFinishes
  rintro s h ⟨-, hbusy⟩ hb hc hroom h53
  unfold Roomy at hroom
  cases hv : bufValid h s with
  | false =>
    obtain ⟨e, c, hrun, -⟩ := exec_recv_invalid hbusy hb hc hv
    exact ⟨_, _, _, hrun, finished_completed _ _ _⟩
  | true =>
    match hS : stream s with
    | [] => simp [hS] at h53
    | [_] => simp [hS] at h53
    | r :: l :: S =>
      rw [hS, List.length_cons, List.length_cons] at h53
      obtain ⟨t, hrun, ⟨-, e, c, e', rfl, -⟩ | ⟨hl, e, c, hd, -, ho⟩⟩ :=
        exec_recv_header hbusy hb hc hv hS (by omega) (by omega)
      · exact ⟨_, _, _, hrun, finished_completed _ _ _⟩
      · refine ⟨t, ?_⟩
        cases ho with
        | rests c' short =>
          have hshort : (c.rxq ++ arrivals e).length < l.toNat ∨ c.capacity < l.toNat := short
          have h51 := ((validLength_iff l).1 hl).2
          rw [hd.str, hd.cap] at hshort
          omega
        | refused e1 c1 e' enough answer eq => exact ⟨_, _, hrun, eq ▸ finished_completed _ _ _⟩
        | frame p b S' e1 c1 i B R answer str size eq => exact ⟨_, _, hrun, eq ▸ finished_completed _ _ _⟩

/-! ## What a transmission error does (43_frame_receiver.md R102, R104) -/

theorem columnFlips_cons (b c : Byte) (bs cs : List Byte) (k : Nat) :
    columnFlips (b :: bs) (c :: cs) k = columnFlips bs cs k + if b.getLsbD k != c.getLsbD k then 1 else 0 := by
  unfold columnFlips
  rw [List.zip_cons_cons, List.countP_cons]

theorem columnFlips_self (bs : List Byte) (k : Nat) : columnFlips bs bs k = 0 := by
  induction bs with
  | nil => rfl
  | cons b bs ih => rw [columnFlips_cons, ih]; simp

/-- A mask put on one byte alters each column whose bit it holds, once. -/
theorem columnFlips_set {bs : List Byte} {i : Nat} {b : Byte} (hb : bs[i]? = some b) (m : Byte) (k : Nat) :
    columnFlips (bs.set i (b ^^^ m)) bs k = if m.getLsbD k then 1 else 0 := by
  induction bs generalizing i with
  | nil => simp at hb
  | cons c bs ih =>
    cases i with
    | zero =>
      obtain rfl : c = b := by simpa using hb
      rw [List.set_cons_zero, columnFlips_cons, columnFlips_self, BitVec.getLsbD_xor]
      cases c.getLsbD k <;> cases m.getLsbD k <;> rfl
    | succ i =>
      rw [List.set_cons_succ, columnFlips_cons, ih (by simpa using hb)]
      simp

/-- Settles O28: one altered bit is an odd number of them in its column. -/
theorem singleBitFlipDetected : Obligations.SingleBitFlipDetected := by
  unfold Obligations.SingleBitFlipDetected
  intro s h f i k b rest hs hb hc hroom hv ha hf hget hi hk hS h4
  have hlength : ((frameBytes f).set i (b ^^^ (1#8 <<< k)))[1]? = some (frameLength f) := by
    rw [List.getElem?_set_ne hi]; rfl
  have hodd : columnFlips ((frameBytes f).set i (b ^^^ (1#8 <<< k))) (frameBytes f) k % 2 = 1 := by
    rw [columnFlips_set hget, if_pos (by simp [hk])]
  exact (alteredFrameDetected s h f _ rest hs hb hc hroom hv ha hf List.length_set hlength hS h4).1 ⟨k, hk, hodd⟩

/-- Settles O29: R_VALIDATE fails, R_WAIT_FRAME rests, or what the length byte says is a frame is read as one. -/
theorem corruptedLength : Obligations.CorruptedLength := by
  unfold Obligations.CorruptedLength
  intro s h f l hs hb hc hroom hv ha hf hne hreq hS
  have hcap : 51 ≤ s.chan.capacity := hroom
  have hpos := List.length_pos_of_ne_nil hne
  have h2 : 2 ≤ (f.payload ++ [frameChecksum f]).length := by simp; omega
  refine ⟨fun hl => ?invalid, fun hl hlong => ?longer, fun b hl hget => ?shorter⟩
  case invalid =>
    obtain ⟨t, hrun, hcomp, hdrained, -⟩ := exec_recv_badLength hs.2 hb hc hv hS h2 (by omega) hl
    exact ⟨t, hrun, hcomp, hdrained⟩
  case longer =>
    have h51 := ((validLength_iff l).1 hl).2
    obtain ⟨t, hrun, hrests, -, -, -, hstep⟩ :=
      recvWaitsForFrame s h f.request l _ hs hb hc hv hS h2 h51 (by omega) (.inl (by simpa using hlong))
    exact ⟨t, hrun, hrests, hstep⟩
  case shorter =>
    obtain ⟨h1, h51⟩ := (validLength_iff l).1 hl
    obtain ⟨n, hn⟩ : ∃ n, l.toNat = n + 1 := ⟨l.toNat - 1, by omega⟩
    rw [hn, Nat.add_sub_cancel] at hget ⊢
    obtain ⟨hlt, rfl⟩ := List.getElem?_eq_some_iff.1 hget
    have hp : (f.payload.take n).length + 1 = l.toNat := by rw [List.length_take]; omega
    have hsplit : f.payload.take n ++ f.payload[n] :: (f.payload.drop (n + 1) ++ [frameChecksum f]) =
        f.payload ++ [frameChecksum f] := by
      rw [← List.cons_append, ← List.append_assoc, ← List.drop_eq_getElem_cons hlt, List.take_append_drop]
    have hstream : stream s = f.request :: l :: f.payload.take n ++ f.payload[n] ::
        (f.payload.drop (n + 1) ++ [frameChecksum f]) := hS.trans (congrArg (f.request :: l :: ·) hsplit.symm)
    obtain ⟨t, hrun, hcomp, -, hgood, hbad, hfind, -⟩ :=
      exec_recv_frame hs.2 hb hc hv ha hstream hp h51 hroom (by rw [hS]; simp; omega)
    constructor
    · intro hsame
      rw [frameCause, if_pos hsame, if_pos hsame, if_neg hreq] at hcomp
      refine ⟨t, hrun, hcomp, hfind, ?_⟩
      rw [hgood (by rwa [if_pos hsame])]
      simp; omega
    · intro hdiffers
      rw [frameCause, if_neg hdiffers, if_neg hdiffers] at hcomp
      exact ⟨t, hrun, hcomp, hbad (if_neg hdiffers)⟩

/-! ## From one engine to the other (43_frame_receiver.md R104, 20_memory.md R45) -/

theorem Link.stepMaster_of_next {l : Link} {t : State} (h : step l.master = .next t) :
    l.stepMaster = some { l with master := t } := by
  unfold Link.stepMaster; rw [h]

theorem Link.stepSlave_of_next {l : Link} {t : State} (h : step l.slave = .next t) :
    l.stepSlave = some { l with slave := t } := by
  unfold Link.stepSlave; rw [h]

/-- With everything flushed, all that was written is on the line. -/
theorem Sent.onLine {s : State} {e : List (List EnvMove)} {c : Chan} {W : List Byte} (h : Sent s e c W) :
    c.onLine = s.chan.wireOut ++ W := by
  unfold Chan.onLine
  rw [h.wire, h.txq]
  exact List.take_length

/-- Settles O36: the master's step leaves the frame on the line, the delivery makes it the slave's stream, and the slave's
step receives it. -/
theorem roundTrip : Obligations.RoundTrip := by
  unfold Obligations.RoundTrip
  intro l req hp hr d mh sh hm hmph hmb hmc htaking hmhost hfind h1 h50 hreq hto hs hsph hsb hsc hroom hnil hshost hv ha
  -- the master
  obtain ⟨e, c, hsend, hsent⟩ := exec_send_ok (s := { l.master with host := mh }) (req := req) hm.2 hmb hmc
    ⟨htaking.willing, htaking.ready, htaking.line⟩ hfind h1 h50
  have hmaster := (step_command hm.1 hmph hmhost (decode_encode _)).trans hsend
  have hline : c.onLine.drop l.toSlave = frameBytes ⟨req, d⟩ := by
    rw [hsent.onLine, hto]
    exact List.drop_left
  -- the slave
  have hf : (⟨req, d⟩ : Frame).wf = true := (frame_wf_iff _).2 h50
  have hstream : stream (l.slave.arriving (frameBytes ⟨req, d⟩)) = frameBytes ⟨req, d⟩ ++ [] := by
    obtain ⟨hrxq, harrivals⟩ := List.append_eq_nil_iff.1 hnil
    unfold stream
    simp [hrxq, harrivals]
  have h4 : 4 ≤ (stream (l.slave.arriving (frameBytes ⟨req, d⟩))).length := by
    rw [hstream, List.append_nil, frameBytes_length]
    exact Nat.add_le_add_right h1 3
  obtain ⟨t, hrecv, hcomp, hbuf, hleft, -⟩ := exec_recv_correct (h := hr)
    (s := { l.slave.arriving (frameBytes ⟨req, d⟩) with host := sh }) hs hsb hsc hroom hv
    (drawResize_granted ha rfl rfl) hf hreq hstream h4
  have hslave : step (l.slave.arriving (frameBytes ⟨req, d⟩)) = .next t :=
    (step_command (s := l.slave.arriving (frameBytes ⟨req, d⟩)) hs.1 hsph hshost (decode_encode _)).trans hrecv
  refine ⟨_, _, l.stepMaster_of_next hmaster, Link.stepSlave_of_next (t := t) ?_, finished_completed _ _ _, hcomp, hbuf,
    hleft⟩
  show step (l.slave.arriving (c.onLine.drop l.toSlave)) = _
  rw [hline]
  exact hslave

end Sys2Proof.Machine
end

section
/-! SUPPORT. The proofs of the family 44_frame_sender: what `SEND` leaves alone, how the bytes it has written and the bytes it
has still to write make its frame, and the run from each of its states to the end. -/

namespace Sys2Proof.Machine

/-! ## What `SEND` leaves alone (44_frame_sender.md R105) -/

/-- A `SEND` that has written its bytes and reported leaves alone all but its registers and the transmit side. -/
theorem Sent.finished_keeps {s u : State} {e : List (List EnvMove)} {c : Chan} {W : List Byte} {b : Byte} {k : Cause} {r : Tx}
    (h : Sent s e c W) (hrx : u.rx = s.rx) (hpoll : u.pollT = s.pollT) (hhost : SameHost s u) (hbufs : u.bufs = s.bufs)
    (hans : u.answers = s.answers) (hctr : u.freeCtr = s.freeCtr) :
    SendKeeps s (finished b k { u with env := e, chan := c, tx := r }) :=
  ⟨hrx, hpoll, hhost, ⟨h.str, h.env, h.cap⟩, hbufs, hans, hctr, fun j i => congrArg (·.byteAt j i) hbufs⟩

/-! ## One whole `SEND` (44_frame_sender.md R105 to R108) -/

/-- Settles O31: the run to its end, the frame written out byte by byte. -/
theorem sendSuccess : Obligations.SendSuccess := by
  unfold Obligations.SendSuccess
  rintro s req h d ⟨-, hbusy⟩ hb hc ht hfind h1 h50
  obtain ⟨e, c, hrun, hsent⟩ := exec_send_ok (req := req) hbusy hb hc ht hfind h1 h50
  rw [sizeCount_eq (by omega)] at hrun
  exact ⟨_, hrun, finished_completed _ _ _, hsent.wire, hsent.txq, rfl,
    hsent.finished_keeps rfl rfl ⟨rfl, rfl, rfl, rfl⟩ rfl rfl rfl⟩

/-- Settles O32: S_CHECK fails before the first write, and FINISH follows. -/
theorem sendBadSize : Obligations.SendBadSize := by
  unfold Obligations.SendBadSize
  rintro s req h d ⟨-, hbusy⟩ hb hc hfind hbad
  obtain ⟨e, c, hrun, hdrift, hquiet⟩ := exec_send_bad (req := req) hbusy hb hc hfind hbad
  obtain ⟨hkeeps, hwritten, hchan⟩ : PureKeeps s (finished 0x00#8 .badSize { accept (encode (.send req h)) .finish s with
      env := e, chan := c, tx := s.tx.started req h d }) :=
    .of_drift hdrift rfl rfl ⟨rfl, rfl, rfl, rfl⟩ rfl rfl rfl hquiet
  exact ⟨_, hrun, finished_completed _ _ _, hwritten, hchan, rfl, hkeeps⟩

/-! ## How far the frame has come (44_frame_sender.md R107, R109) -/

/-- The rest of a frame once the payload bytes `p` are written: the payload bytes `q`, and the running checksum folded over
them. -/
theorem frameBytes_rest {req : Byte} {d p q : List Byte} (h : p ++ q = d) :
    (req :: frameLength ⟨req, d⟩ :: p) ++
        (q ++ [q.foldl foldByte (xor8 (req :: frameLength ⟨req, d⟩ :: p))]) = frameBytes ⟨req, d⟩ := by
  rw [← xor8_split, List.cons_append, List.cons_append, ← List.append_assoc, List.cons_append, List.cons_append, h]
  rfl

/-- What is written is a beginning of the frame. -/
theorem FrameSoFar.isPrefix {req : Byte} {h : Handle} {d q : List Byte} {u : State} (hf : FrameSoFar req h d q u) :
    q <+: frameBytes ⟨req, d⟩ := by
  unfold FrameSoFar at hf
  cases hst : u.st <;> simp only [hst] at hf
  case sCheck | sReq => exact hf.1 ▸ List.nil_prefix
  case sLen => exact hf.1 ▸ ⟨_, rfl⟩
  case sPayload => exact hf.1 ▸ ⟨_, frameBytes_rest (List.take_append_drop _ d)⟩
  case sCksum => exact hf.1 ▸ List.prefix_append _ _
  case sFlush => exact hf.1 ▸ List.prefix_rfl
  case finish | idle =>
    rcases hf with ⟨rfl, -⟩ | ⟨rfl, -⟩
    · exact List.prefix_rfl
    · exact List.nil_prefix

/-- Settles O33: the invariant of the visits of a `SEND`, read at the state it has come to. -/
theorem sendNeverPartial : Obligations.SendNeverPartial := by
  unfold Obligations.SendNeverPartial
  rintro s t req h d ⟨-, hbusy⟩ hc hfind hrun
  have hsending := exec_send_next hbusy hc hfind hrun
  obtain ⟨q, hwire, hf⟩ := hsending.wire
  refine ⟨hsending.keeps, q, hf.isPrefix, hwire, fun hidle => ?finished, fun hactive => ?stopped⟩
  case finished =>
    simp only [FrameSoFar, hidle] at hf
    rcases hf with ⟨hq, ⟨h1, h50⟩, hdone⟩ | ⟨hq, hsize, hdone⟩
    · exact .inl ⟨hdone, hq, h1, h50⟩
    · exact .inr ⟨hdone, hq, hsize⟩
  case stopped =>
    obtain ⟨hbusy', hdone, -, hresult, hcause⟩ := hsending.outputs hactive
    exact ⟨hbusy', hdone, hresult, hcause⟩

/-! ## A `SEND` that stands in one of its states (44_frame_sender.md R109, R113) -/

/-- The run of the `SEND` in `s` to its end, when `V` is written of the frame of `d` and `W` is still to be written. -/
structure SendRest (s : State) (d V W : List Byte) : Prop where
  payload : s.bufs.find s.tx.h = some d
  written : V <:+ s.chan.wireOut
  whole : V ++ W = frameBytes ⟨s.tx.req, d⟩
  ends : ∃ e c r, runEngine s = .next (finished 0x01#8 .none { s with env := e, chan := c, tx := r }) ∧ Sent s e c W

/-- The length byte that the sender computes from `tx.n` is the one of the frame (R107, 30_encoding.md R60). -/
theorem sendLength_eq_frameLength (req : Byte) {n : Byte} {d : List Byte} (hn : d.length = n.toNat) (h50 : n.toNat ≤ 50) :
    sendLength n = frameLength ⟨req, d⟩ :=
  BitVec.eq_of_toNat_eq <|
    (sendLength_toNat h50).trans (by rw [← hn]; exact (frameLength_toNat (d := d) (by omega)).symm)

theorem Inv.opcode_of_sending {s : State} (h : Inv s)
    (hst : s.st = .sReq ∨ s.st = .sLen ∨ s.st = .sPayload ∨ s.st = .sCksum ∨ s.st = .sFlush) : opField s.cmd = 3#4 := by
  have hop := h.opcode
  rcases hst with hst | hst | hst | hst | hst <;> simpa only [opcodeAgrees, hst] using hop

section
variable {s : State} (hregs : registersAgree s) (hop : opField s.cmd = 3#4) (hc : Calm s.env) (ht : Taking s)
include hregs hop hc ht

theorem sendRest_of_sReq (hst : s.st = .sReq) : ∃ d V W, SendRest s d V W := by
  simp only [registersAgree, hst] at hregs
  obtain ⟨hsize, -, hidx, d, hfind, hn⟩ := hregs
  have h50 := ((validSize_iff _).1 hsize).2
  have hbudget := visitBudget_ge s
  obtain ⟨e, c, hrun, hsent⟩ := send_req (k := visitBudget s) hst hc ht hop hfind hn.symm (by omega) hidx (by omega)
  exact ⟨d, [], _, hfind, List.nil_suffix, rfl, e, c, _, hrun, hsent⟩

theorem sendRest_of_sLen (hst : s.st = .sLen) : ∃ d V W, SendRest s d V W := by
  simp only [registersAgree, hst] at hregs
  obtain ⟨hsize, -, hidx, hck, ⟨d, hfind, hn⟩, hwritten⟩ := hregs
  have h50 := ((validSize_iff _).1 hsize).2
  have hbudget := visitBudget_ge s
  obtain ⟨e, c, hrun, hsent⟩ := send_len (k := visitBudget s) hst hc ht hop hfind hn.symm (by omega) hidx (by omega)
  refine ⟨d, _, _, hfind, hwritten, ?_, e, c, _, hrun, hsent⟩
  have hfold : foldByte s.tx.ck (sendLength s.tx.n) = xor8 [s.tx.req, frameLength ⟨s.tx.req, d⟩] := by
    rw [hck, sendLength_eq_frameLength s.tx.req hn h50]
    simp [xor8, foldByte]
  rw [hfold, sendLength_eq_frameLength s.tx.req hn h50]
  exact frameBytes_rest (List.nil_append d)

theorem sendRest_of_sPayload (hst : s.st = .sPayload) : ∃ d V W, SendRest s d V W := by
  simp only [registersAgree, hst] at hregs
  obtain ⟨hsize, -, hidx, hlen, d, hfind, hn, hck, hwritten⟩ := hregs
  have h50 := ((validSize_iff _).1 hsize).2
  have hbudget := visitBudget_ge s
  obtain ⟨e, c, hrun, hsent⟩ := send_payload (k := visitBudget s) hst hc ht hop hfind rfl hn.symm (by omega)
    (by omega) (by rw [List.length_drop]; omega)
  refine ⟨d, _, _, hfind, hwritten, ?_, e, c, _, hrun, hsent⟩
  rw [hck, hlen, sendLength_eq_frameLength s.tx.req hn h50]
  exact frameBytes_rest (List.take_append_drop _ d)

theorem sendRest_of_sCksum (hst : s.st = .sCksum) : ∃ d V W, SendRest s d V W := by
  simp only [registersAgree, hst] at hregs
  obtain ⟨hsize, -, hlen, d, hfind, hn, hck, hwritten⟩ := hregs
  have h50 := ((validSize_iff _).1 hsize).2
  have hbudget := visitBudget_ge s
  obtain ⟨e, c, hrun, hsent⟩ := send_cksum (k := visitBudget s) hst hc ht hop (by omega)
  refine ⟨d, _, _, hfind, hwritten, ?_, e, c, _, hrun, hsent⟩
  rw [hck, hlen, sendLength_eq_frameLength s.tx.req hn h50]
  rfl

theorem sendRest_of_sFlush (hst : s.st = .sFlush) : ∃ d V W, SendRest s d V W := by
  simp only [registersAgree, hst] at hregs
  obtain ⟨-, d, hfind, hwritten⟩ := hregs
  have hbudget := visitBudget_ge s
  obtain ⟨e, c, hrun, hsent⟩ := send_flush (k := visitBudget s) hst hc ht hop (by omega)
  exact ⟨d, _, [], hfind, hwritten, List.append_nil _, e, c, _, hrun, hsent⟩

end

/-- In each of its states a `SEND` runs to its end. -/
theorem sendRest_of_sending {s : State} (hI : Machine.Inv s) (hc : Calm s.env) (ht : Taking s)
    (hst : s.st = .sReq ∨ s.st = .sLen ∨ s.st = .sPayload ∨ s.st = .sCksum ∨ s.st = .sFlush) :
    ∃ d V W, SendRest s d V W := by
  have hop := hI.opcode_of_sending hst
  rcases hst with hst | hst | hst | hst | hst
  · exact sendRest_of_sReq hI.registers hop hc ht hst
  · exact sendRest_of_sLen hI.registers hop hc ht hst
  · exact sendRest_of_sPayload hI.registers hop hc ht hst
  · exact sendRest_of_sCksum hI.registers hop hc ht hst
  · exact sendRest_of_sFlush hI.registers hop hc ht hst

/-- Settles O35: what was written of the frame and what the step writes make the whole of it. -/
theorem sendFinishesOnceTaken : Obligations.SendFinishesOnceTaken := by
  unfold Obligations.SendFinishesOnceTaken
  intro s hI hc ht hst
  obtain ⟨d, V, W, hfind, hwritten, hwhole, e, c, r, hrun, hsent⟩ := sendRest_of_sending hI hc ht hst
  have hactive : s.st ≠ .idle := by rcases hst with h | h | h | h | h <;> simp [h]
  have hframe : frameBytes ⟨s.tx.req, d⟩ <:+ c.wireOut := by
    rw [hsent.wire, ← hwhole]
    exact List.suffix_append_self_iff.2 hwritten
  exact ⟨_, d, (step_engine hactive).trans hrun, finished_completed _ _ _, hfind, hframe, ⟨W, hsent.wire.symm⟩, hsent.txq,
    hsent.finished_keeps rfl rfl ⟨rfl, rfl, rfl, rfl⟩ rfl rfl rfl⟩

end Sys2Proof.Machine
end

section
/-! SUPPORT. The proofs of the family 45_composite_operations: the first lines of a composite by what `allocate` answers, the
line after each operation it issues, and the whole procedures made of them. -/

namespace Sys2Proof.Machine

/-! ## The transient buffer (45_composite_operations.md R120, R123) -/

theorem alloc_host_answer (s : State) (rest : List HostCall) :
    (bufAlloc 1 { s with host := rest }).1 = (bufAlloc 1 s).1 := by
  rw [alloc_host]

/-- The map `n` is `m` with one more buffer, which `k` names and which holds the one byte `val`. -/
structure Lent (m : Memory) (k : Handle) (val : Byte) (n : Memory) : Prop where
  fresh : m.find k = none
  holds : n.find k = some [val]
  others : ∀ j, j ≠ k → n.find j = m.find j

/-- The release of the transient buffer leaves every handle what it named before. -/
theorem Lent.released {m n : Memory} {k : Handle} {val : Byte} (h : Lent m k val n) (j : Handle) :
    (n.erase k).find j = m.find j := by
  rw [Memory.find_erase]
  by_cases hj : k = j
  · rw [if_pos hj, ← hj, h.fresh]
  · rw [if_neg hj, h.others j (Ne.symm hj)]

/-- With the transient buffer there a response buffer is valid when it was, or when it is that buffer itself. -/
theorem Lent.bufValid_iff {s t : State} {k : Handle} {val : Byte} (h : Lent s.bufs k val t.bufs) (hr : Handle) :
    bufValid hr t = true ↔ bufValid hr s = true ∨ hr = k := by
  unfold bufValid
  by_cases hk : hr = k
  · simp [hk, h.holds]
  · simp [hk, h.others hr hk]

/-- After the release the transient buffer names nothing, and every other handle what it named before. -/
theorem find_bufFree (k : Handle) (s : State) :
    (bufFree k s).bufs.find k = none ∧ ∀ j, j ≠ k → (bufFree k s).bufs.find j = s.bufs.find j := by
  constructor
  · rw [bufFree_bufs, Memory.find_erase, if_pos rfl]
  · intro j hj
    rw [bufFree_bufs, Memory.find_erase, if_neg hj.symm]

/-- A composite that ends in its first lines leaves the engine alone. -/
theorem engineKept_returnTo (s : State) (r : HostRet) (calls : List HostCall) (m : Memory) (a : Answers) (n : Nat) :
    EngineKept s (returnTo r { s with host := calls, bufs := m, answers := a, freeCtr := n }) :=
  ⟨rfl, rfl, rfl, rfl, rfl, rfl, rfl, rfl, rfl, rfl, rfl, rfl⟩

/-! ## The first lines (45_composite_operations.md R120 to R122) -/

section
variable {s : State} {k : Handle} (req val : Byte) (hb : s.bound = true)
include hb

theorem hostSend1_refused (h : (bufAlloc 1 s).1 = none) :
    ∃ a c, hostSend1 req val s = .next (returnTo (.bool false) { s with answers := a, freeCtr := c }) := by
  obtain ⟨halloc, -, a, c, hs⟩ := alloc_none h
  refine ⟨a, c, ?_⟩
  rw [hostSend1, if_pos hb, halloc, hs]

theorem hostSend1Recv_refused (h : (bufAlloc 1 s).1 = none) (hr : Handle) :
    ∃ a c, hostSend1Recv req val hr s = .next (returnTo (.byte 0x00#8) { s with answers := a, freeCtr := c }) := by
  obtain ⟨halloc, -, a, c, hs⟩ := alloc_none h
  refine ⟨a, c, ?_⟩
  rw [hostSend1Recv, if_pos hb, halloc, hs]

theorem hostSend1_granted (h : (bufAlloc 1 s).1 = some k) :
    ∃ B a c, Lent s.bufs k val B ∧
      hostSend1 req val s =
        exec (.send req k) { s with bufs := B, answers := a, freeCtr := c, phase := .sent1 k } := by
  obtain ⟨hfresh, a, c, B, halloc, hset, hfind, hothers, -⟩ := alloc_and_set val h
  refine ⟨B, a, c, ⟨hfresh, hfind, hothers⟩, ?_⟩
  rw [hostSend1, if_pos hb, halloc]
  simp only [hset]

theorem hostSend1Recv_granted (h : (bufAlloc 1 s).1 = some k) (hr : Handle) :
    ∃ B a c, Lent s.bufs k val B ∧ a.resizeOk = s.answers.resizeOk ∧
      hostSend1Recv req val hr s =
        startSendRecv req k hr (some k) { s with bufs := B, answers := a, freeCtr := c } := by
  obtain ⟨hfresh, a, c, B, halloc, hset, hfind, hothers, hscript⟩ := alloc_and_set val h
  refine ⟨B, a, c, ⟨hfresh, hfind, hothers⟩, hscript, ?_⟩
  rw [hostSend1Recv, if_pos hb, halloc]
  simp only [hset]

end

/-! ## The line after an operation (45_composite_operations.md R120 to R123) -/

theorem step_sent1_returns {s : State} {k : Handle} (hst : s.st = .idle) (hph : s.phase = .sent1 k) :
    step s = .next (returnTo (.bool (s.result ≠ 0x00#8)) (bufFree k s)) :=
  (step_sent1 hst hph).trans (afterOperation_sent1 hph)

theorem step_received_returns {s : State} {o : Option Handle} (hst : s.st = .idle) (hph : s.phase = .received o) :
    step s = .next (returnTo (.byte s.result) (freeTransient o s)) :=
  (step_received hst hph).trans (afterOperation_received hph)

theorem step_notSent_returns {s : State} {hr : Handle} {o : Option Handle} (hst : s.st = .idle)
    (hph : s.phase = .sent hr o) (h0 : s.result = 0x00#8) :
    step s = .next (returnTo (.byte 0x00#8) (freeTransient o s)) :=
  (step_sent hst hph).trans (afterOperation_not_sent hph h0)

theorem step_sent_receives {s : State} {hr : Handle} {o : Option Handle} (hst : s.st = .idle)
    (hph : s.phase = .sent hr o) (h0 : s.result ≠ 0x00#8) :
    step s = exec (.recv hr) { s with phase := .received o } :=
  (step_sent hst hph).trans (afterOperation_receive hph h0)

/-- Settles O43: each of these states takes the composite's last line, whose release is the transient buffer's alone. -/
theorem transientReleased : Obligations.TransientReleased := by
  unfold Obligations.TransientReleased
  intro s hst
  refine ⟨fun k hph => ?_, fun k hph => ?_, fun hr k hph h0 => ?_, fun hph => ?_, fun hr hph h0 => ?_⟩
  · exact ⟨_, step_sent1_returns hst hph, rfl, rfl, find_bufFree k s⟩
  · exact ⟨_, step_received_returns hst hph, rfl, rfl, find_bufFree k s⟩
  · exact ⟨_, step_notSent_returns hst hph h0, rfl, rfl, find_bufFree k s⟩
  · exact ⟨_, step_received_returns hst hph, rfl, rfl, rfl⟩
  · exact ⟨_, step_notSent_returns hst hph h0, rfl, rfl, rfl⟩

/-! ## `SEND1` (45_composite_operations.md R120) -/

/-- Settles O40: the allocation is refused, or the `SEND` of the one byte ends and the next step releases the buffer. -/
theorem send1 : Obligations.Send1 := by
  unfold Obligations.Send1
  rintro s req val rest ⟨hst, hbusy⟩ hph hb hc hhost
  have hstep := step_call hst hph hhost
  rw [← alloc_host_answer s rest]
  refine ⟨fun hnone => ?refused, fun k hk => ?granted⟩
  case refused =>
    obtain ⟨a, c, hrun⟩ := hostSend1_refused req val (s := { s with host := rest }) hb hnone
    exact ⟨_, hstep.trans hrun, rfl, rfl, rfl, rfl, rfl, engineKept_returnTo ..⟩
  case granted =>
    obtain ⟨B, a, n, hlent, hrun⟩ := hostSend1_granted req val (s := { s with host := rest }) hb hk
    refine ⟨hlent.fresh, fun ht => ?_⟩
    obtain ⟨e, c, hsend, hsent⟩ := exec_send_ok (req := req) (h := k) (d := [val])
      (s := { s with host := rest, bufs := B, answers := a, freeCtr := n, phase := .sent1 k })
      hbusy hb hc ⟨ht.willing, ht.ready, ht.line⟩ hlent.holds (by simp) (by simp)
    exact ⟨_, _, (hstep.trans hrun).trans hsend, rfl, step_sent1_returns rfl rfl, rfl, rfl,
      frameBytes_one req val ▸ hsent.wire, hsent.txq, hlent.released, ⟨hsent.str, hsent.env, hsent.cap⟩, hb, rfl⟩

/-! ## The send and the receive of `SENDRECV` (45_composite_operations.md R121, R122) -/

theorem startSendRecv_valid {s : State} {hr : Handle} (hv : bufValid hr s = true) (req : Byte) (hp : Handle)
    (o : Option Handle) : startSendRecv req hp hr o s = exec (.send req hp) { s with phase := .sent hr o } :=
  if_pos hv

theorem startSendRecv_invalid {s : State} {hr : Handle} (hv : bufValid hr s = false) (req : Byte) (hp : Handle)
    (o : Option Handle) : startSendRecv req hp hr o s = .next (returnTo (.byte 0x00#8) (freeTransient o s)) :=
  if_neg (by simp [hv])

/-- A composite whose `SEND` has ended with true and whose `RECV` comes next. -/
structure Awaiting (hr : Handle) (o : Option Handle) (t : State) : Prop where
  ready : Ready t
  phase : t.phase = .sent hr o
  sent : t.result = 0x01#8
  bound : t.bound = true
  calm : Calm t.env

/-- The `SEND` of a composite through a channel that takes bytes: what it leaves, all but the frame as it was. -/
theorem startSendRecv_sends {s : State} {hp hr : Handle} {d : List Byte} (hbusy : s.busy = false) (hb : s.bound = true)
    (hc : Calm s.env) (ht : Taking s) (hv : bufValid hr s = true) (hd : s.bufs.find hp = some d) (h1 : 1 ≤ d.length)
    (h50 : d.length ≤ 50) (req : Byte) (o : Option Handle) :
    ∃ t, startSendRecv req hp hr o s = .next t ∧ Awaiting hr o t ∧
      t.chan.wireOut = s.chan.wireOut ++ frameBytes ⟨req, d⟩ ∧ NothingRead s t ∧ BuffersKept s t ∧ t.host = s.host := by
  obtain ⟨e, c, hsend, hsent⟩ := exec_send_ok (req := req) (s := { s with phase := .sent hr o }) hbusy hb hc
    ⟨ht.willing, ht.ready, ht.line⟩ hd h1 h50
  exact ⟨_, (startSendRecv_valid hv req hp o).trans hsend, ⟨⟨rfl, rfl⟩, rfl, rfl, hb, hc.of_suffix hsent.env⟩, hsent.wire,
    ⟨hsent.str, hsent.env, hsent.cap⟩, ⟨rfl, rfl, rfl, fun _ _ => rfl⟩, rfl⟩

theorem Awaiting.receives {hr : Handle} {o : Option Handle} {t : State} (h : Awaiting hr o t) :
    step t = exec (.recv hr) { t with phase := .received o } :=
  step_sent_receives h.ready.1 h.phase (by rw [h.sent]; decide)

/-- When the `RECV` of a composite has ended, with whatever result, the composite returns that result. -/
theorem Awaiting.returns {hr : Handle} {o : Option Handle} {t u : State} (h : Awaiting hr o t) (hu : step t = .next u)
    (hidle : u.st = .idle) :
    ReceiveKeeps hr { t with phase := .received o } u ∧
      step u = .next (returnTo (.byte u.result) (freeTransient o u)) := by
  have hkeeps := recvFrame { t with phase := .received o } u hr h.ready h.calm.noReset (h.receives.symm.trans hu)
  refine ⟨hkeeps, ?_⟩
  obtain ⟨-, ⟨-, -, hph, -⟩, -⟩ := hkeeps
  exact step_received_returns hidle hph

/-- With a transient buffer the composite's last line releases it, and leaves the response buffer as the `RECV` left it and
every other buffer as the `SEND` left it (45_composite_operations.md R123). -/
theorem Awaiting.releases {hr k : Handle} {t u : State} (h : Awaiting hr (some k) t) (hu : step t = .next u)
    (hidle : u.st = .idle) :
    step u = .next (returnTo (.byte u.result) (bufFree k u)) ∧ (bufFree k u).bufs.find k = none ∧
      (hr ≠ k → (bufFree k u).bufs.find hr = u.bufs.find hr) ∧
      (∀ j, j ≠ k → j ≠ hr → (bufFree k u).bufs.find j = t.bufs.find j) ∧
      u.host = t.host ∧ u.chan.wireOut = t.chan.wireOut := by
  obtain ⟨⟨-, ⟨-, hcalls, -⟩, ⟨hwire, -⟩, hothers, -⟩, hreturn⟩ := h.returns hu hidle
  obtain ⟨hgone, hkept⟩ := find_bufFree k u
  exact ⟨hreturn, hgone, hkept hr, fun j hk hj => (hkept j hk).trans (hothers j hj).1, hcalls, hwire⟩

/-- The answer of the other end is a correct frame: its `RECV` ends with the request byte and the payload. -/
theorem Awaiting.answered {hr : Handle} {o : Option Handle} {t : State} {f : Frame} {S : List Byte} (h : Awaiting hr o t)
    (hroom : Roomy t) (hv : bufValid hr t = true) (ha : (drawResize t).1 = true) (hf : f.wf = true)
    (hreq : f.request ≠ 0x00#8) (hS : stream t = frameBytes f ++ S) (h4 : 4 ≤ (stream t).length) :
    ∃ u, step t = .next u ∧ u.st = .idle ∧ u.result = f.request ∧ u.bufs.find hr = some f.payload ∧
      stream u = S := by
  obtain ⟨u, hrun, ⟨hidle, -, -, -, hres, -⟩, hfind, hrest, -⟩ :=
    exec_recv_correct (s := { t with phase := .received o }) (h := hr) h.ready h.bound h.calm hroom hv
      (drawResize_granted ha rfl rfl) hf hreq hS h4
  exact ⟨u, h.receives.trans hrun, hidle, hres, hfind, hrest⟩

/-- No answer comes: the composite rests in the wait for the first bytes. -/
theorem Awaiting.rests {hr : Handle} {o : Option Handle} {t : State} (h : Awaiting hr o t) (hv : bufValid hr t = true)
    (hshort : (stream t).length < 4) :
    ∃ u, step t = .next u ∧ u.st = .rWaitMin ∧ u.phase = .received o ∧ u.chan.wireOut = t.chan.wireOut ∧
      step u = .next u := by
  obtain ⟨u, hrun, ⟨hst, -⟩, -, -, ⟨-, ⟨-, -, hph, -⟩, ⟨hwire, -⟩, -⟩, hstays⟩ :=
    recvWaitsForFour { t with phase := .received o } hr h.ready h.bound h.calm hv (.inl hshort)
  exact ⟨u, h.receives.trans hrun, hst, hph, hwire, hstays⟩

/-! ## `SENDRECV` (45_composite_operations.md R121) -/

/-- Settles O41: the test of the response buffer, then a `SEND` that fails on the size, or one that ends and is answered or
not. -/
theorem sendRecv : Obligations.SendRecv := by
  unfold Obligations.SendRecv
  rintro s req hp hr rest ⟨hst, hbusy⟩ hph hb hc hhost
  have hstep : step s = startSendRecv req hp hr none { s with host := rest } :=
    (step_call hst hph hhost).trans (if_pos hb)
  refine ⟨fun hv => ?invalid, fun d hv hd hbad => ?badSize, fun d hv hd h1 h50 ht => ?sends⟩
  case invalid =>
    exact ⟨_, hstep.trans (startSendRecv_invalid (s := { s with host := rest }) hv req hp none), rfl, rfl, rfl, rfl, rfl,
      engineKept_returnTo ..⟩
  case badSize =>
    obtain ⟨e, c, hsend, hdrift, -⟩ := exec_send_bad (req := req)
      (s := { s with host := rest, phase := .sent hr none }) hbusy hb hc hd hbad
    have hvalid := startSendRecv_valid (s := { s with host := rest }) hv req hp none
    exact ⟨_, _, (hstep.trans hvalid).trans hsend, step_notSent_returns rfl rfl rfl, rfl, rfl,
      ⟨hdrift.str, hdrift.env, hdrift.cap⟩, ⟨hdrift.wire, hdrift.txq⟩, ⟨rfl, rfl, rfl, fun _ _ => rfl⟩, rfl⟩
  case sends =>
    obtain ⟨t, hsend, hawait, hwire, ⟨hstream, -, hcap⟩, ⟨hbufs, hans, hctr, -⟩, hcalls⟩ :=
      startSendRecv_sends (s := { s with host := rest }) hbusy hb hc ⟨ht.willing, ht.ready, ht.line⟩ hv hd h1 h50 req none
    have hv' : bufValid hr t = true := by
      unfold bufValid
      rw [hbufs]
      exact hv
    refine ⟨fun f S hf hreq hS h4 ha hroom => ?answered, fun hshort => ?silent⟩
    case answered =>
      obtain ⟨u, hrecv, hidle, hres, hfind, hrest⟩ := hawait.answered (f := f) (S := S) (by unfold Roomy; rwa [hcap]) hv'
        (drawResize_granted ha hans hctr) hf hreq (hstream.trans hS) (hstream ▸ h4)
      obtain ⟨⟨-, ⟨-, hcalls', -⟩, ⟨hwire', -⟩, hothers, -⟩, hreturn⟩ := hawait.returns hrecv hidle
      refine ⟨t, u, _, hstep.trans hsend, hrecv, hreturn, congrArg HostRet.byte hres, rfl, hwire'.trans hwire, hfind, ?_,
        hrest, hcalls'.trans hcalls⟩
      exact otherBuffersKept_of_find fun j hj => (hothers j hj).1.trans (congrArg (·.find j) hbufs)
    case silent =>
      obtain ⟨u, hrecv, hwait, hphase, hwire', hstays⟩ := hawait.rests hv' (hstream ▸ hshort)
      exact ⟨t, u, hstep.trans hsend, hrecv, hwait, hphase, hwire'.trans hwire, hstays⟩

/-! ## `SEND1RECV` (45_composite_operations.md R122) -/

/-- Settles O42: the allocation, the test of the response buffer with the transient buffer there, the `SEND`, and the `RECV`,
whose end is followed by the release. -/
theorem send1Recv : Obligations.Send1Recv := by
  unfold Obligations.Send1Recv
  rintro s req val hr rest ⟨hst, hbusy⟩ hph hb hc hhost
  have hstep := step_call hst hph hhost
  rw [← alloc_host_answer s rest]
  refine ⟨fun hnone => ?refused, fun k hk => ?granted⟩
  case refused =>
    obtain ⟨a, c, hrun⟩ := hostSend1Recv_refused req val (s := { s with host := rest }) hb hnone hr
    exact ⟨_, hstep.trans hrun, rfl, rfl, rfl, rfl, rfl, engineKept_returnTo ..⟩
  case granted =>
    obtain ⟨B, a, n, hlent, hscript, hrun⟩ := hostSend1Recv_granted req val (s := { s with host := rest }) hb hk hr
    refine ⟨hlent.fresh, fun hv hne => ?invalid, fun hv ht => ?sends⟩
    case invalid =>
      have hno : bufValid hr { s with host := rest, bufs := B, answers := a, freeCtr := n } = false := by
        rw [Bool.eq_false_iff, ne_eq, hlent.bufValid_iff]
        exact not_or.2 ⟨Bool.eq_false_iff.1 hv, hne⟩
      exact ⟨_, (hstep.trans hrun).trans (startSendRecv_invalid hno req k (some k)), rfl, rfl, rfl, hlent.released, rfl,
        engineKept_returnTo ..⟩
    case sends =>
      obtain ⟨t, hsend, hawait, hwire, hread, ⟨hbufs, hans, -⟩, hcalls⟩ :=
        startSendRecv_sends (s := { s with host := rest, bufs := B, answers := a, freeCtr := n }) hbusy hb hc
          ⟨ht.willing, ht.ready, ht.line⟩ ((hlent.bufValid_iff hr).2 hv) hlent.holds (by simp) (by simp) req (some k)
      rw [frameBytes_one] at hwire
      have hlent' : Lent s.bufs k val t.bufs := by rw [hbufs]; exact hlent
      refine ⟨t, (hstep.trans hrun).trans hsend, hawait.ready.1, hawait.phase, hread, hwire, hlent'.holds, hlent'.others,
        hawait.receives, fun u hu hidle => ?ended, fun f S a' hf hreq hroom hS h4 hok => ?answered⟩
      case ended =>
        obtain ⟨hreturn, hgone, hresponse, hothers, hcalls', hwire'⟩ := hawait.releases hu hidle
        exact ⟨_, hreturn, rfl, rfl, hcalls'.trans hcalls, hgone, hresponse,
          fun j hk hj => (hothers j hk hj).trans (hlent'.others j hk), hwire'⟩
      case answered =>
        obtain ⟨hstream, -, hcap⟩ := hread
        have ha : (drawResize t).1 = true := drawResize_of_script (by rw [hans]; exact hscript.trans hok)
        obtain ⟨u, hrecv, hidle, hres, hfind, hrest⟩ := hawait.answered (f := f) (S := S) (by unfold Roomy; rwa [hcap])
          ((hlent'.bufValid_iff hr).2 hv) ha hf hreq (hstream.trans hS) (hstream ▸ h4)
        obtain ⟨hreturn, hgone, hresponse, hothers, hcalls', -⟩ := hawait.releases hrecv hidle
        exact ⟨u, _, hrecv, hreturn, congrArg HostRet.byte hres, rfl, hgone, fun hne => (hresponse hne).trans hfind,
          fun j hk hj => (hothers j hk hj).trans (hlent'.others j hk), hrest, hcalls'.trans hcalls⟩

end Sys2Proof.Machine
end

section
/-! SUPPORT. The proofs of the family 60_exceptions: the failure of a frame whose request byte is 0x00, and that a host which
meets its duties is never refused. -/

namespace Sys2Proof.Machine

/-! ## A frame whose request byte is 0x00 (60_exceptions.md R133) -/

/-- Settles O19: the comparison of R_CKSUM holds, and the request byte it puts in `rx.res` is the failure value. -/
theorem recvZeroRequest : Obligations.RecvZeroRequest := by
  unfold Obligations.RecvZeroRequest
  rintro s h p rest ⟨-, hbusy⟩ hb hc hroom hv ha h50 hS h4
  have hlen : (frameLength ⟨0x00#8, p⟩).toNat = p.length + 1 := frameLength_eq ((frame_wf_iff _).2 h50)
  have hstream : stream s = 0x00#8 :: frameLength ⟨0x00#8, p⟩ :: p ++ frameChecksum ⟨0x00#8, p⟩ :: rest := by
    rw [hS]; simp [frameBytes]
  obtain ⟨t, hrun, hcomp, -, -, hdrained, hfind, -, -, hkeeps⟩ :=
    exec_recv_frame hbusy hb hc hv ha hstream hlen.symm (by omega) hroom h4
  have hmatch : frameChecksum ⟨0x00#8, p⟩ = xor8 (0x00#8 :: frameLength ⟨0x00#8, p⟩ :: p) := rfl
  rw [if_pos hmatch] at hcomp hdrained
  rw [frameCause, if_pos hmatch, if_pos rfl] at hcomp
  exact ⟨t, hrun, hcomp, hdrained rfl, hfind, hkeeps⟩

/-! ## The duties of the host (60_exceptions.md R146) -/

theorem Inv.not_busy {s : State} (h : Inv s) (hst : s.st = .idle) : ¬ s.busy = true := fun hbusy => h.busy.1 hbusy hst

theorem Inv.session_of_idle {s : State} (h : Inv s) (hst : s.st = .idle) : s.phase ≠ .ready → s.bound = true :=
  (h.at hst).2.1

/-- `CKSUM` starts with a buffer of at most 50 bytes in its first visit, and so keeps the invariant (41_checksum.md R78). -/
theorem startCksum_inv {s : State} {k : Handle} {d : List Byte} (h : Inv s) (hst : s.st = .idle)
    (hfind : s.bufs.find k = some d) (h50 : d.length ≤ 50) : Inv (startCksum k s) := by
  have hsized : Inv { s with kSize := true } := h.idle hst hst rfl rfl h.wf rfl rfl rfl rfl (h.session_of_idle hst)
  have hsize : s.bufs.find (handleOf (encode (.cksum k))) = some d := by rwa [handleOf_encode]
  exact accept_inv (w := encode (.cksum k)) (q := .kRun) hsized hst (by decide) (opField_encode _)
    (h.session_of_idle hst) ⟨fun _ => ⟨d, hsize, h50⟩, fun hk => by cases hk⟩

/-- A host that meets its duty is past every refusal of the operation: the sequencer runs from a state that meets the
invariant (40_session_control.md R73, 41_checksum.md R78, 44_frame_sender.md R111). -/
theorem HostDuty.runs {i : Instr} {s : State} (hd : HostDuty i s) (h : Inv s) (hst : s.st = .idle) :
    ∃ u, exec i s = runEngine u ∧ Inv u := by
  have hidle := h.not_busy hst
  cases i with
  | encode sl act =>
    exact ⟨_, if_neg hidle, accept_inv (q := .eRun) h hst (by decide) (opField_encode _) (h.session_of_idle hst) trivial⟩
  | cksum k =>
    obtain ⟨d, hfind, h50⟩ := hd
    have hrun : exec (.cksum k) s = runEngine (startCksum k s) := by
      rw [exec_cksum, execCksum, if_neg hidle, cksumBuffer_ok.2 ⟨hfind, h50⟩]
    exact ⟨_, hrun, startCksum_inv h hst hfind h50⟩
  | recv k =>
    have hbound : s.bound = true := hd
    exact ⟨_, (if_neg hidle).trans (if_pos hbound),
      accept_inv (q := .rCheck) h hst (by decide) (opField_encode _) hbound trivial⟩
  | send req k =>
    obtain ⟨hbound, hvalid⟩ := hd
    have hhandle : bufValid (handleOf (encode (.send req k))) s = true := by rwa [handleOf_encode]
    exact ⟨_, (if_neg hidle).trans ((if_pos hbound).trans (if_pos hvalid)),
      accept_inv (q := .sCheck) h hst (by decide) (opField_encode _) hbound hhandle⟩

/-- Settles O59: the operation is a run of the sequencer, which the invariant carries from visit to visit. -/
theorem dutiesSuffice : Obligations.DutiesSuffice := by
  unfold Obligations.DutiesSuffice
  intro i s h hst hd
  obtain ⟨u, hrun, hu⟩ := hd.runs h hst
  obtain ⟨t, ht, hInv⟩ := runEngineFor_inv (visitBudget u) hu
  exact ⟨t, hrun.trans ht, hInv⟩

end Sys2Proof.Machine
end

section
/-! SUPPORT. The proofs of the family 70_reset_and_hazards: the counts that saturate, the three-byte frame, the `SEND` that
hangs, the machine that has finished, and reset in the middle of anything. -/

namespace Sys2Proof.Machine

/-! ## Counts that saturate (70_reset_and_hazards.md R169) -/

theorem chanAvail_le (s : State) : chanAvail s ≤ 255 := min_le_right _ _

/-- A buffer's size is reported exactly up to 255, and as 255 beyond (10_state.md R18). -/
theorem sizeCount_toNat_eq_min (d : List Byte) : (sizeCount d).toNat = min d.length 255 := by
  unfold sizeCount Config.countMax
  rw [BitVec.toNat_ofNat]
  omega

/-- Settles O12: every bound the engine compares a count with is at most 255. -/
theorem saturationHarmless : Obligations.SaturationHarmless := by
  unfold Obligations.SaturationHarmless
  refine ⟨fun s => ?channel, fun d => ?buffer⟩
  case channel =>
    exact ⟨le_chanAvail (n := 1) (by decide) s, le_chanAvail (by decide) s,
      fun len h51 => le_chanAvail (by omega) s, chanAvail_le s⟩
  case buffer =>
    have hsize := sizeCount_toNat_eq_min d
    exact ⟨by omega, by omega, hsize⟩

/-! ## The three-byte frame (70_reset_and_hazards.md R155) -/

theorem frameBytes_empty (r : Byte) : frameBytes ⟨r, []⟩ = [r, 0x01#8, r ^^^ 0x01#8] := by
  have hck : xor8 [r, 0x01#8] = r ^^^ 0x01#8 := by rw [xor8_cons, xor8_cons, xor8_nil, BitVec.xor_zero]
  rw [frameBytes_of_length (l := 0x01#8) (by decide) rfl, hck]
  rfl

/-- Settles O23: three bytes do not end the wait of step 1; with a fourth they are a correct frame with no payload. -/
theorem threeByteFrame : Obligations.ThreeByteFrame := by
  unfold Obligations.ThreeByteFrame
  intro s h r rest hs hb hc hroom hv ha hr hS
  have hlen : (stream s).length = rest.length + 3 := by rw [hS]; rfl
  by_cases hrest : rest = []
  case pos =>
    have hshort : (stream s).length < 4 := by rw [hlen, hrest]; decide
    obtain ⟨t, hrun, hrests, hread, -⟩ := recvWaitsForFour s h hs hb hc hv (.inl hshort)
    exact ⟨t, hrun, fun _ => ⟨hrests, hread⟩, fun hne => absurd hrest hne⟩
  case neg =>
    have hfour : 4 ≤ (stream s).length := by
      have := List.length_pos_of_ne_nil hrest
      omega
    have hframe : stream s = frameBytes ⟨r, []⟩ ++ rest := by rw [hS, frameBytes_empty]; rfl
    obtain ⟨t, hrun, hdone, hfind, hleft, -⟩ :=
      exec_recv_correct (f := ⟨r, []⟩) hs hb hc hroom hv ha ((frame_wf_iff _).2 (Nat.zero_le 50)) hr hframe hfour
    exact ⟨t, hrun, fun h0 => absurd h0 hrest, fun _ => ⟨hdone, hfind, hleft⟩⟩

/-! ## A `SEND` that hangs (70_reset_and_hazards.md R157) -/

theorem writing_blocked {s : State} (h : s.chan.ready = false) (b : Byte) (u : State) : writing b s u = .wait s :=
  if_neg (by simp [h])

/-- A byte on `tx_data` that the channel does not take holds the sequencer where it is (44_frame_sender.md R109). -/
theorem visit_blocked {s : State} {b : Byte} (hp : txPush s = some b) (h : s.chan.ready = false) : visit s = .wait s := by
  cases hst : s.st
  case sReq | sLen | sCksum =>
    unfold visit
    rw [hst]
    exact writing_blocked h _ _
  case sPayload =>
    simp only [txPush, hst] at hp
    split at hp
    case isTrue more =>
      unfold visit
      rw [hst]
      show visitSPayload s = .wait s
      rw [visitSPayload, if_pos more, hp]
      exact writing_blocked h _ _
    case isFalse => cases hp
  all_goals simp [txPush, hst] at hp

/-- A flush that is not confirmed holds the sequencer in S_FLUSH (44_frame_sender.md R108). -/
theorem visit_unflushed {s : State} (hst : s.st = .sFlush) (h : canFlush s = false) : visit s = .wait s := by
  unfold visit
  rw [hst]
  exact if_neg (by simp [h])

theorem active_of_txPush {s : State} {b : Byte} (hp : txPush s = some b) : s.st ≠ .idle := by
  intro hst
  simp [txPush, hst] at hp

/-- A wait that changes nothing rests at once in the same state, when the world outside does not move. -/
theorem runEngineFor_waiting {s : State} (k : Nat) (hst : s.st ≠ .idle) (he : s.env = []) (hv : visit s = .wait s) :
    runEngineFor (k + 1) s = .next s :=
  runVisits_wait_rest (engineActive_of hst) (by rw [envStep_of_env_nil he, hv]) he

/-- So it is at every further step. -/
theorem step_waiting {s : State} (hst : s.st ≠ .idle) (he : s.env = []) (hv : visit s = .wait s) : step s = .next s := by
  obtain ⟨k, hk, -⟩ := visitBudget_visits s
  rw [step_engine hst, runEngine_eq, hk]
  exact runEngineFor_waiting k hst he hv

theorem moved_of_env_nil {s : State} (he : s.env = []) : moved s = s := by
  rw [← envStep_moved (he ▸ Calm.nil), envStep_of_env_nil he]

/-- `SEND` of 1 to 50 bytes through a channel that takes none comes to its first write and rests there. -/
theorem exec_send_blocked {s : State} {req : Byte} {h : Handle} {d : List Byte} (hbusy : s.busy = false)
    (hb : s.bound = true) (he : s.env = []) (hr : s.chan.ready = false) (hfind : s.bufs.find h = some d)
    (h1 : 1 ≤ d.length) (h50 : d.length ≤ 50) :
    ∃ t, exec (.send req h) s = .next t ∧ t.st = .sReq ∧ t.env = [] ∧ t.chan = s.chan ∧ visit t = .wait t := by
  let a := accept (encode (.send req h)) .sCheck s
  let t : State := { a with tx := a.tx.started (requestOf a.cmd) (handleOf a.cmd) d, st := .sReq }
  have hstart : exec (.send req h) s = runEngine a := by
    rw [exec_send, execSend, if_neg (by simp [hbusy]), if_pos hb, if_pos ((bufValid_iff h s).2 ⟨d, hfind⟩)]
  have hbuf : a.bufs.find (handleOf a.cmd) = some d := by
    rw [show handleOf a.cmd = h from handleOf_encode (.send req h)]
    exact hfind
  have hsize : validSize (sizeCount d) = true :=
    (validSize_iff _).2 (by rw [sizeCount_toNat_eq_min]; omega)
  have hcheck (k : Nat) : runEngineFor (k + 1) a = runEngineFor k t := by
    rw [sCheck_ok (s := a) rfl (show Calm s.env from he ▸ Calm.nil) hbuf hsize, moved_of_env_nil (s := a) he]
  have hwait : visit t = .wait t := visit_blocked (b := t.tx.req) rfl hr
  obtain ⟨k, hk, hbudget⟩ := visitBudget_visits a
  obtain ⟨j, rfl⟩ : ∃ j, k = j + 1 := ⟨k - 1, by omega⟩
  refine ⟨t, ?_, rfl, he, rfl, hwait⟩
  rw [hstart, runEngine_eq, hk, hcheck]
  exact runEngineFor_waiting j (by decide : Seq.sReq ≠ .idle) he hwait

/-- Settles O34: the visit of a blocked write, or of a flush that is not confirmed, waits in the same state. -/
theorem sendHangs : Obligations.SendHangs := by
  unfold Obligations.SendHangs
  refine ⟨?whole, fun s b he hp hr => ?write, fun s he hst hf => ?flush⟩
  case whole =>
    rintro s req h d ⟨-, hbusy⟩ hb he hr hfind h1 h50
    obtain ⟨t, hrun, hst, hte, hchan, hwait⟩ := exec_send_blocked (req := req) hbusy hb he hr hfind h1 h50
    have hactive : t.st ≠ .idle := by rw [hst]; decide
    have hsending := exec_send_next hbusy (he ▸ Calm.nil) hfind hrun
    obtain ⟨hbusy', hdone, hillegal, hresult, hcause⟩ := hsending.outputs hactive
    exact ⟨t, hrun, ⟨hst, hbusy', hdone, hillegal, hresult, hcause, hte⟩, hchan, hsending.keeps,
      step_waiting hactive hte hwait⟩
  case write => exact step_waiting (active_of_txPush hp) he (visit_blocked hp hr)
  case flush => exact step_waiting (by rw [hst]; decide) he (visit_unflushed hst hf)

/-! ## The machine that has finished (70_reset_and_hazards.md R172) -/

/-- With the engine idle, no procedure in progress and no call left, a step is the moves of the next slot. -/
theorem step_idle {s : State} (hst : s.st = .idle) (hph : s.phase = .ready) (hhost : s.host = []) :
    step s = .next (envStep s) := by
  rw [step_ready hst hph, nextCall, hhost]

/-- A machine whose engine and host are as those of a finished one has finished. -/
theorem Finished.of_kept {s t : State} (h : Finished s) (he : EngineKept s t) (hh : SameHost s t) : Finished t := by
  obtain ⟨hst, hbusy, hph, hhost⟩ := h
  obtain ⟨hst', -, -, -, -, hbusy', -⟩ := he
  obtain ⟨-, hhost', hph', -⟩ := hh
  exact ⟨hst'.trans hst, hbusy'.trans hbusy, hph'.trans hph, hhost'.trans hhost⟩

/-- Settles O52: the step is a slot's moves, which append to the receive stream and leave the rest alone. -/
theorem finishedRests : Obligations.FinishedRests := by
  unfold Obligations.FinishedRests
  intro s hfin hc
  have ⟨hst, _, hph, hhost⟩ := hfin
  obtain ⟨-, -, hstream, -, hwritten, hengine, hsame, hbufs⟩ := environmentOnlyAppends s hc.noReset
  exact ⟨envStep s, step_idle hst hph hhost, hfin.of_kept hengine hsame, hengine, hsame, hbufs, hstream hc, hwritten,
    envStep_of_env_nil⟩

/-! ## Reset at any time (70_reset_and_hazards.md R150 to R152) -/

theorem resetEngine_registers (s : State) : RegistersReset (resetEngine s) :=
  ⟨rfl, rfl, rfl, rfl, rfl, rfl, rfl, rfl, rfl⟩

theorem resetEngine_outside (s : State) : SameOutside s (resetEngine s) := ⟨rfl, rfl, rfl, rfl, rfl⟩

/-- A slot in which `rst` is asserted alone. -/
theorem envStep_reset {s : State} {rest : List (List EnvMove)} (h : s.env = [.rst] :: rest) :
    envStep s = resetEngine { s with env := rest } := by
  have hlater : laterSlots s.env = rest := by rw [h]; rfl
  rw [envStep, hlater, h]
  rfl

/-- A loop of visits whose first slot brings the machine to rest ends with the moves of that slot. -/
theorem runVisits_stopped {act : State → Bool} {v : State → Visit} {k : Nat} {s : State} (h : act s = true)
    (hv : v (envStep s) = .go (envStep s)) (hrest : act (envStep s) = false) :
    runVisits act v (k + 1) s = .next (envStep s) := by
  rw [runVisits_go h hv, runVisits_rest hrest]

/-- A step whose slot is a reset ends there: the operation or the procedure in progress is abandoned (R150, R151). -/
theorem step_reset {s : State} {rest : List (List EnvMove)} (h : s.env = [.rst] :: rest)
    (hat : s.st ≠ .idle ∨ phaseActive s = true ∨ (s.phase = .ready ∧ s.host = [])) : step s = .next (envStep s) := by
  obtain ⟨k, hk, -⟩ := visitBudget_visits s
  by_cases hst : s.st = .idle
  case neg =>
    rw [step_engine hst, runEngine_eq, hk]
    exact runVisits_stopped (engineActive_of hst) (by rw [envStep_reset h]; rfl) (by rw [envStep_reset h]; rfl)
  case pos =>
    rcases hat with hactive | hphase | ⟨hph, hhost⟩
    · exact absurd hst hactive
    · rw [step_phase hst hphase, runPhase, hk]
      exact runVisits_stopped hphase (by rw [envStep_reset h]; rfl) (by rw [envStep_reset h]; rfl)
    · exact step_idle hst hph hhost

/-- Settles O54: the move is `resetEngine`, and a step whose next slot is that move comes to it and rests. -/
theorem resetAtAnyTime : Obligations.ResetAtAnyTime := by
  unfold Obligations.ResetAtAnyTime
  constructor
  · intro s
    exact ⟨resetEngine_registers s, resetEngine_outside s, rfl⟩
  · intro s rest h hat
    refine ⟨resetEngine { s with env := rest }, ?_, resetEngine_registers _, resetEngine_outside _, rfl⟩
    rw [step_reset h hat, envStep_reset h]

end Sys2Proof.Machine
end

section
/-! SUPPORT. The proof of the family other: the command words that the vectors write out. -/

namespace Sys2Proof

/-- Settles O3: each word holds the encoder's bits wherever its operation uses them, so V-E8's word, whose ignored bits are
set, decodes as well; the last word holds the reserved opcode 4. -/
theorem sampleWordsDecode : Obligations.SampleWordsDecode := by
  unfold Obligations.SampleWordsDecode
  have hop {w : CmdWord} {i : Instr} : w &&& usedBits i = encode i → decode w = .op i := (decode_op_iff_usedBits w i).2
  have hreserved : decode 0x40000#20 = .reservedOpcode 0x4#4 :=
    (decode_reserved_iff 0x40000#20).2 (show 4 ≤ (opField 0x40000#20).toNat by decide)
  exact ⟨hop (by decide), hop (by decide), hop (by decide), hop (by decide), hop (by decide), hop (by decide),
    hop (by decide), hreserved⟩

end Sys2Proof
end
